-- ==== Sys2Proof/Word.lean ====
section
/-! DEFINITION. The widths of the block: the 64-bit command word (R80), the 32-bit `F` pattern (R10), the byte of a byte-addressed
view of an output buffer (R67), and fixed-length vectors mapped through their lists. -/

namespace Sys2Proof

/-- One command word `cmd[63:0]` (R9, R80). -/
abbrev Word := BitVec 64

/-- One value of the number type `F`: an IEEE 754 binary32 pattern, bit 31 the sign, 30:23 the exponent, 22:0 the fraction (R10). -/
abbrev F := BitVec 32

/-- One byte of the byte-addressed view of an output buffer (R67). -/
abbrev Byte := BitVec 8

/-- The slice `w[lo + n - 1 : lo]` of a word (R9). -/
def slice {m : Nat} (w : BitVec m) (lo n : Nat) : BitVec n := w.extractLsb' lo n

/-- Apply `f` to every element, in index order. Written over the list of the elements, so that it evaluates by structural recursion. -/
def vmap {α β : Type} {n : Nat} (f : α → β) (v : Vector α n) : Vector β n :=
  ⟨⟨v.toArray.toList.map f⟩, by simp⟩

end Sys2Proof
end

