-- ==== Sys2Proof/Syntax.lean ====
section
/-! DEFINITION. The instruction set: one constructor for each of the 17 rows of spec/opcode_table.json. The `MIDI` operations carry the
normalised and masked data values of R84 and R91; reserved bits, the channel nibble and the bytes `len` does not cover are no operands
(R93, R94, U8). -/

namespace Sys2Proof

/-- The commands, with the eleven operations `MIDI` decodes to (R87, R93). -/
inductive Instr where
  /-- `NOP` (R190) -/
  | nop
  /-- `ALLOC rate, hint` (R196) -/
  | alloc (hint : BitVec 24) (rate : F)
  /-- `RESET` (R198) -/
  | reset
  /-- `RENDER off, cnt, chan` (R200) -/
  | render (off cnt : BitVec 24) (chan : BitVec 8)
  /-- `MIDI.NOTE_OFF`: the note and the release velocity (R231) -/
  | midiNoteOff (note vel : BitVec 7)
  /-- `MIDI.NOTE_ON`: the note and the velocity (R232) -/
  | midiNoteOn (note vel : BitVec 7)
  /-- `MIDI.CC_MODWHEEL` (R254) -/
  | midiCcModwheel (v : BitVec 7)
  /-- `MIDI.CC_SUSTAIN` (R255) -/
  | midiCcSustain (v : BitVec 7)
  /-- `MIDI.CC_RESONANCE` (R256) -/
  | midiCcResonance (v : BitVec 7)
  /-- `MIDI.CC_FILTER_UP` (R257) -/
  | midiCcFilterUp (v : BitVec 7)
  /-- `MIDI.CC_FILTER_DOWN` (R258) -/
  | midiCcFilterDown (v : BitVec 7)
  /-- `MIDI.CC_ALL_OFF`: the controller number, 0x78 to 0x7F, and the value (R259) -/
  | midiCcAllOff (ctl v : BitVec 7)
  /-- `MIDI.PRESSURE`: the value, data byte 1 (R260) -/
  | midiPressure (v : BitVec 7)
  /-- `MIDI.PITCH_BEND`: data byte 1 (low) and data byte 2 (high) (R261) -/
  | midiPitchBend (d1 d2 : BitVec 7)
  /-- `MIDI.IGNORED` (R262) -/
  | midiIgnored
  /-- `PWRITE idx, value` (R192) -/
  | pwrite (idx : BitVec 8) (value : F)
  /-- `ILLEGAL`: an opcode 0x06 to 0xFF (R94) -/
  | illegal (op : BitVec 8)
deriving DecidableEq, Repr

end Sys2Proof
end

