-- ==== Sys2Proof/WellFormed.lean ====
section
/-! DEFINITION. Which terms of `Instr` some command word stands for. -/

namespace Sys2Proof

/-- The least controller number of the all-notes-off family (R93). -/
def ccAllOffMin : BitVec 7 := 0x78#7
/-- The least illegal opcode (R94). -/
def illegalMin : BitVec 8 := 0x06#8

/-- The two operands with values no word carries: the controller of `MIDI.CC_ALL_OFF` is 0x78 to 0x7F (R93), and the opcode of
`ILLEGAL` is 0x06 to 0xFF (R94). Every other operand has every value of its width; a `PWRITE` index above 19 is a command that aborts. -/
def Instr.wf : Instr → Bool
  | .nop => true
  | .alloc _ _ => true
  | .reset => true
  | .render _ _ _ => true
  | .midiNoteOff _ _ => true
  | .midiNoteOn _ _ => true
  | .midiCcModwheel _ => true
  | .midiCcSustain _ => true
  | .midiCcResonance _ => true
  | .midiCcFilterUp _ => true
  | .midiCcFilterDown _ => true
  | .midiCcAllOff ctl _ => ccAllOffMin.toNat ≤ ctl.toNat
  | .midiPressure _ => true
  | .midiPitchBend _ _ => true
  | .midiIgnored => true
  | .pwrite _ _ => true
  | .illegal op => illegalMin.toNat ≤ op.toNat

end Sys2Proof
end

