-- ==== Sys2Proof/Decode.lean ====
section
/-! DEFINITION. The decoder of R80 to R95 and R99, total on all 64-bit words, and the encoder, with the pseudo-instructions of R98.
No word is refused: an opcode outside the map decodes to `ILLEGAL` (R94), a MIDI message outside the table to `MIDI.IGNORED` (R95). -/

namespace Sys2Proof

/-! ## Fields (R81) -/

/-- `op = cmd[63:56]` -/
def Word.op (w : Word) : BitVec 8 := slice w 56 8
/-- `hint = cmd[55:32]` of format A -/
def Word.hint (w : Word) : BitVec 24 := slice w 32 24
/-- `rate = cmd[31:0]` of format A -/
def Word.rate (w : Word) : F := slice w 0 32
/-- `off = cmd[55:32]` of format R -/
def Word.off (w : Word) : BitVec 24 := slice w 32 24
/-- `cnt = cmd[31:8]` of format R -/
def Word.cnt (w : Word) : BitVec 24 := slice w 8 24
/-- `chan = cmd[7:0]` of format R -/
def Word.chan (w : Word) : BitVec 8 := slice w 0 8
/-- `len = cmd[25:24]` of format M -/
def Word.len (w : Word) : BitVec 2 := slice w 24 2
/-- `status = cmd[23:16]` of format M -/
def Word.status (w : Word) : BitVec 8 := slice w 16 8
/-- `data1 = cmd[15:8]` of format M -/
def Word.data1 (w : Word) : BitVec 8 := slice w 8 8
/-- `data2 = cmd[7:0]` of format M -/
def Word.data2 (w : Word) : BitVec 8 := slice w 0 8
/-- `idx = cmd[39:32]` of format P -/
def Word.idx (w : Word) : BitVec 8 := slice w 32 8
/-- `value = cmd[31:0]` of format P -/
def Word.value (w : Word) : F := slice w 0 32

/-! ## The MIDI message of a word -/

/-- `status'` of R84: the status byte, 0 when `len` says it is absent. -/
def Word.statusN (w : Word) : BitVec 8 := if 1 ≤ w.len.toNat then w.status else 0#8
/-- `d1raw` of R84. -/
def Word.d1raw (w : Word) : BitVec 8 := if 2 ≤ w.len.toNat then w.data1 else 0#8
/-- `d2raw` of R84. -/
def Word.d2raw (w : Word) : BitVec 8 := if 3 ≤ w.len.toNat then w.data2 else 0#8
/-- `d1`, bit 7 discarded (R91). -/
def Word.d1 (w : Word) : BitVec 7 := slice w.d1raw 0 7
/-- `d2`, bit 7 discarded (R91). -/
def Word.d2 (w : Word) : BitVec 7 := slice w.d2raw 0 7
/-- `kind = status'[7:4]` (R93). -/
def Word.kind (w : Word) : BitVec 4 := slice w.statusN 4 4

/-- The control-change rows of R93, tried from the top. -/
def decodeControl (d1 d2 : BitVec 7) : Instr :=
  if d1 = 0x01#7 then .midiCcModwheel d2
  else if d1 = 0x40#7 then .midiCcSustain d2
  else if d1 = 0x47#7 then .midiCcResonance d2
  else if d1 = 0x4A#7 then .midiCcFilterUp d2
  else if d1 = 0x4B#7 then .midiCcFilterDown d2
  else if ccAllOffMin.toNat ≤ d1.toNat then .midiCcAllOff d1 d2
  else .midiIgnored

/-- The table of R93 on the normalised message. -/
def decodeMidi (kind : BitVec 4) (d1 d2 : BitVec 7) : Instr :=
  if kind = 0x8#4 then .midiNoteOff d1 d2
  else if kind = 0x9#4 then .midiNoteOn d1 d2
  else if kind = 0xB#4 then decodeControl d1 d2
  else if kind = 0xD#4 then .midiPressure d1
  else if kind = 0xE#4 then .midiPitchBend d1 d2
  else .midiIgnored

/-- The opcode map of R87. The same on both ports (R80). -/
def decode (w : Word) : Instr :=
  if w.op = 0x00#8 then .nop
  else if w.op = 0x01#8 then .alloc w.hint w.rate
  else if w.op = 0x02#8 then .reset
  else if w.op = 0x03#8 then .render w.off w.cnt w.chan
  else if w.op = 0x04#8 then decodeMidi w.kind w.d1 w.d2
  else if w.op = 0x05#8 then .pwrite w.idx w.value
  else .illegal w.op

/-! ## Encoding (R81), reserved bits 0 (R94) -/

/-- Format Z. -/
def encodeZ (op : BitVec 8) : Word := op ++ 0#56
/-- Format A. -/
def encodeA (op : BitVec 8) (hint : BitVec 24) (rate : F) : Word := op ++ (hint ++ rate)
/-- Format R. -/
def encodeR (op : BitVec 8) (off cnt : BitVec 24) (chan : BitVec 8) : Word := op ++ (off ++ (cnt ++ chan))
/-- Format M. -/
def encodeM (op : BitVec 8) (len : BitVec 2) (status data1 data2 : BitVec 8) : Word :=
  op ++ (0#30 ++ (len ++ (status ++ (data1 ++ data2))))
/-- Format P. -/
def encodeP (op : BitVec 8) (idx : BitVec 8) (value : F) : Word := op ++ (0#16 ++ (idx ++ value))

/-- A `MIDI` word (R97). -/
def encodeMidi (len : BitVec 2) (status data1 data2 : BitVec 8) : Word := encodeM 0x04#8 len status data1 data2

/-- A MIDI data byte of a 7-bit value: bit 7 clear. -/
def dataByte (d : BitVec 7) : BitVec 8 := 0#1 ++ d

/-- The word of an instruction: a MIDI message of three bytes (channel pressure: two, R260) on channel 0, as R98 writes them. -/
def encode : Instr → Word
  | .nop => encodeZ 0x00#8
  | .alloc hint rate => encodeA 0x01#8 hint rate
  | .reset => encodeZ 0x02#8
  | .render off cnt chan => encodeR 0x03#8 off cnt chan
  | .midiNoteOff note vel => encodeMidi 3#2 0x80#8 (dataByte note) (dataByte vel)
  | .midiNoteOn note vel => encodeMidi 3#2 0x90#8 (dataByte note) (dataByte vel)
  | .midiCcModwheel v => encodeMidi 3#2 0xB0#8 0x01#8 (dataByte v)
  | .midiCcSustain v => encodeMidi 3#2 0xB0#8 0x40#8 (dataByte v)
  | .midiCcResonance v => encodeMidi 3#2 0xB0#8 0x47#8 (dataByte v)
  | .midiCcFilterUp v => encodeMidi 3#2 0xB0#8 0x4A#8 (dataByte v)
  | .midiCcFilterDown v => encodeMidi 3#2 0xB0#8 0x4B#8 (dataByte v)
  | .midiCcAllOff ctl v => encodeMidi 3#2 0xB0#8 (dataByte ctl) (dataByte v)
  | .midiPressure v => encodeMidi 2#2 0xD0#8 (dataByte v) 0x00#8
  | .midiPitchBend d1 d2 => encodeMidi 3#2 0xE0#8 (dataByte d1) (dataByte d2)
  | .midiIgnored => encodeMidi 0#2 0x00#8 0x00#8 0x00#8
  | .pwrite idx value => encodeP 0x05#8 idx value
  | .illegal op => encodeZ op

/-! ## The pseudo-instructions of R98, as the words they expand to -/

/-- `NOTEON n, v` -/
def Pseudo.noteOn (n v : BitVec 7) : Word := encodeMidi 3#2 0x90#8 (dataByte n) (dataByte v)
/-- `NOTEOFF n` -/
def Pseudo.noteOff (n : BitVec 7) : Word := encodeMidi 3#2 0x80#8 (dataByte n) 0x00#8
/-- `CC c, v` -/
def Pseudo.cc (c v : BitVec 7) : Word := encodeMidi 3#2 0xB0#8 (dataByte c) (dataByte v)
/-- `PEDAL_ON` -/
def Pseudo.pedalOn : Word := Pseudo.cc 0x40#7 127#7
/-- `PEDAL_OFF` -/
def Pseudo.pedalOff : Word := Pseudo.cc 0x40#7 0#7
/-- `ALLOFF` -/
def Pseudo.allOff : Word := Pseudo.cc 0x7B#7 0#7
/-- `PRESSURE v` -/
def Pseudo.pressure (v : BitVec 7) : Word := encodeMidi 2#2 0xD0#8 (dataByte v) 0x00#8
/-- `BEND b`: `MIDI 3, 0xE0, b mod 128, b div 128` -/
def Pseudo.bend (b : BitVec 14) : Word := encodeMidi 3#2 0xE0#8 (dataByte (slice b 0 7)) (dataByte (slice b 7 7))
/-- `RENDERS off, cnt` -/
def Pseudo.renderS (off cnt : BitVec 24) : Word := encodeR 0x03#8 off cnt 2#8
/-- `RENDERM off, cnt` -/
def Pseudo.renderM (off cnt : BitVec 24) : Word := encodeR 0x03#8 off cnt 1#8
/-- `LATCH` -/
def Pseudo.latch : Word := Pseudo.renderS 0#24 0#24

/-! ## The host's reading of the opcode table -/

/-- The word whose low `nbits` bits are those of `w` and whose other bits are 0. -/
def tableWord (nbits w : Nat) : Word := BitVec.ofNat 64 (w % 2 ^ nbits)

/-- The instruction the decoder reads from an instruction of `nbits` bits numbered as the opcode table numbers them. A command is one
64-bit word (R80), so more bits than that are no command. -/
def decodeTableWord (nbits w : Nat) : Option Instr := if nbits ≤ 64 then some (decode (tableWord nbits w)) else none

end Sys2Proof
end

