-- ==== Sys2Proof/Machine/Float.lean ====
section
/-! DEFINITION. The number type `F` of R10, R11 and R13: IEEE 754 binary32, round to nearest even, subnormal operands read as zero,
subnormal results replaced by zero of the same sign, one canonical NaN. Every operation is a function on naturals that the kernel can
evaluate. A finite magnitude is counted in units of 2^-149, so that sums, products and quotients are exact before the one rounding. -/

namespace Sys2Proof

/-- The canonical quiet NaN (R10). -/
def F.nan : F := 0x7FC00000#32
/-- Plus infinity. -/
def F.inf : F := 0x7F800000#32
/-- `+0`. -/
def F.zero : F := 0x00000000#32
/-- `-0`. -/
def F.negZero : F := 0x80000000#32

/-- Bit 31, the sign. -/
def F.neg? (x : F) : Bool := 2 ^ 31 ≤ x.toNat

/-- The exponent and fraction bits 30:0 as one number. It orders magnitudes. -/
def F.magBits (x : F) : Nat := x.toNat % 2 ^ 31

def F.isNaN (x : F) : Bool := 0x7F800000 < x.magBits
def F.isInf (x : F) : Bool := x.magBits == 0x7F800000

/-- Zero as the block reads it: a subnormal operand is read as zero of the same sign (R10). -/
def F.isZero (x : F) : Bool := x.magBits < 2 ^ 23

/-- A finite value (a subnormal pattern counts, being read as zero). -/
def F.isFinite (x : F) : Bool := x.magBits < 0x7F800000

/-- The zero of a sign. -/
def F.zeroOf (neg : Bool) : F := if neg then F.negZero else F.zero
/-- The infinity of a sign. -/
def F.infOf (neg : Bool) : F := if neg then 0xFF800000#32 else F.inf

/-- A subnormal read as an operand: zero of the same sign (R10). -/
def F.flush (x : F) : F := if x.isZero then F.zeroOf x.neg? else x

/-- A value as a result of an operation: no subnormal, and only one NaN (R10). -/
def F.canon (x : F) : F := if x.isNaN then F.nan else x.flush

/-- The magnitude of a finite value in units of 2^-149: `(2^23 + fraction) * 2^(exponent - 1)`, and 0 for a zero or a subnormal. -/
def F.units (x : F) : Nat :=
  if x.isZero then 0 else (2 ^ 23 + x.magBits % 2 ^ 23) * 2 ^ (x.magBits / 2 ^ 23 - 1)

/-- `n / 2^d` rounded to the nearest integer, ties to even (R10). -/
def rne (n d : Nat) : Nat :=
  if 2 ^ d < 2 * (n % 2 ^ d) ∨ (2 * (n % 2 ^ d) = 2 ^ d ∧ n / 2 ^ d % 2 = 1) then n / 2 ^ d + 1 else n / 2 ^ d

/-- Bits 30:0 of the binary32 value nearest to `n * 2^-(149 + k)`: the rounding position is 24 significant bits, or the subnormal grid
where that is coarser; a result below 2^-126 is flushed to zero and one past the largest finite value is infinity (R10). -/
def roundBits (n k : Nat) : Nat :=
  let d := max (Nat.log2 n - 23) k
  let mant := rne n d
  if mant < 2 ^ 23 then 0 else min ((d - k) * 2 ^ 23 + mant) 0x7F800000

/-- A sign and bits 30:0. -/
def F.pack (neg : Bool) (bits : Nat) : F := BitVec.ofNat 32 ((if neg then 2 ^ 31 else 0) + bits)

/-- The `F` value nearest to `±n * 2^-(149 + k)`. -/
def F.round (neg : Bool) (n k : Nat) : F := F.pack neg (roundBits n k)

/-- The signed exact value of a finite operand, in units of 2^-149. -/
def F.toUnits (x : F) : Int := if x.neg? then -(x.units : Int) else x.units

/-- The exact conversion of an integer (R11; exact below 2^24). -/
def F.ofInt (i : Int) : F := F.round (i < 0) (i.natAbs * 2 ^ 149) 0
/-- The exact conversion of a natural number (R11). -/
def F.ofNat (n : Nat) : F := F.round false (n * 2 ^ 149) 0

/-- `x + y`. An exact zero sum is `+0` unless both operands are negative (IEEE 754, R10). -/
def F.add (x y : F) : F :=
  if x.isNaN || y.isNaN then F.nan
  else if x.isInf then (if y.isInf && (x.neg? != y.neg?) then F.nan else F.infOf x.neg?)
  else if y.isInf then F.infOf y.neg?
  else
    let t := x.toUnits + y.toUnits
    if t = 0 then F.zeroOf (x.neg? && y.neg?) else F.round (t < 0) t.natAbs 0

/-- Unary minus: the sign bit inverted, a NaN made canonical. -/
def F.neg (x : F) : F := if x.isNaN then F.nan else F.flush (x ^^^ 0x80000000#32)

/-- `x - y`. -/
def F.sub (x y : F) : F := F.add x (F.neg y)

/-- `x * y`. -/
def F.mul (x y : F) : F :=
  let s := x.neg? != y.neg?
  if x.isNaN || y.isNaN then F.nan
  else if x.isInf || y.isInf then (if x.isZero || y.isZero then F.nan else F.infOf s)
  else F.round s (x.units * y.units) 149

/-- `x / y`. The quotient is cut 179 places after the point, and a last place says whether anything was cut, so that the rounding is
that of the exact quotient. -/
def F.div (x y : F) : F :=
  let s := x.neg? != y.neg?
  if x.isNaN || y.isNaN then F.nan
  else if x.isInf then (if y.isInf then F.nan else F.infOf s)
  else if y.isInf then F.zeroOf s
  else if y.isZero then (if x.isZero then F.nan else F.infOf s)
  else
    let t := x.units * 2 ^ 179
    F.round s (2 * (t / y.units) + (if t % y.units = 0 then 0 else 1)) 31

/-- The place of a value on the real line: magnitude bits with the sign, both zeros at 0. -/
def F.key (x : F) : Int := if x.isZero then 0 else if x.neg? then -(x.magBits : Int) else x.magBits

/-- `x < y`: false when either is a NaN, and `-0 == +0` (R13). -/
def F.lt (x y : F) : Bool := !x.isNaN && !y.isNaN && decide (x.key < y.key)
/-- `x <= y` (R13). -/
def F.le (x y : F) : Bool := !x.isNaN && !y.isNaN && decide (x.key ≤ y.key)
/-- `x > y` (R13). -/
def F.gt (x y : F) : Bool := F.lt y x
/-- `x >= y` (R13). -/
def F.ge (x y : F) : Bool := F.le y x
/-- `x == y` (R13). -/
def F.eqv (x y : F) : Bool := !x.isNaN && !y.isNaN && decide (x.key = y.key)

/-- `clamp(x, lo, hi)` in the form R13 gives it: a NaN passes through. -/
def F.clamp (x lo hi : F) : F := if F.lt x lo then lo else if F.gt x hi then hi else x

/-- The integer a value is, where it is an integer. -/
def F.asInt? (x : F) : Option Int :=
  if x.isFinite && x.units % 2 ^ 149 = 0 then
    some (if x.neg? then -((x.units / 2 ^ 149 : Nat) : Int) else ((x.units / 2 ^ 149 : Nat) : Int))
  else none

end Sys2Proof
end

