-- ==== Sys2Proof/Config.lean ====
section
/-! DEFINITION. What is fixed for one block: the constants of R6 and R11, the open parameters of R7 as a record of plain data, and the
open functions of `NUM` and `FLT` (R8, R12, R156), which have no body: nothing can be proved of a value of theirs. -/

namespace Sys2Proof

/-! ## Constants the source fixes (R6) and the literals of R11 -/

/-- `NUM_VOICES` -/
abbrev numVoices : Nat := 16
/-- `NCFG` (R34) -/
abbrev numCfg : Nat := 20
/-- `SILENCE` = 1e-4 -/
def silence : F := 0x38D1B717#32
/-- `ATTACK_TARGET` = 2.0. It and `decayThreshold` are one pair (R128). -/
def attackTarget : F := 0x40000000#32
/-- `DECAY_THRESHOLD` = 3.0 -/
def decayThreshold : F := 0x40400000#32
/-- `ATTACK_BUMP` = 2e-4 -/
def attackBump : F := 0x3951B717#32
/-- `BAND_LO` = 40 Hz -/
def bandLo : F := 0x42200000#32
/-- `BAND_HI` = 1000 Hz -/
def bandHi : F := 0x447A0000#32
/-- `PAN_CENTRE` -/
def panCentre : Int := 60
/-- `PAN_DIV` = 96 -/
def panDiv : F := 0x42C00000#32
/-- `PAN_LIMIT` = 0.3 -/
def panLimit : F := 0x3E99999A#32
/-- `-PAN_LIMIT` -/
def panLimitNeg : F := 0xBE99999A#32
/-- `CUTOFF_MIN` = 20 Hz -/
def cutoffMin : F := 0x41A00000#32
/-- `CUTOFF_MAX` = 20000 Hz -/
def cutoffMax : F := 0x469C4000#32
/-- `RES_DIV` = 30 -/
def resDiv : F := 0x41F00000#32
/-- `FZIP_COEF` = 0.005 -/
def fzipCoef : F := 0x3BA3D70A#32
/-- `A4_HZ` = 440 -/
def a4Hz : F := 0x43DC0000#32
/-- `A4_NOTE` -/
def a4Note : Int := 69
/-- `SEMIS` = 12 -/
def semis : F := 0x41400000#32
/-- `BEND_CENTRE` -/
def bendCentre : Int := 8192
/-- The velocity at which the base cutoff is not scaled (R244, decision D25). -/
def velCentre : Int := 64
/-- `RESO_NUM` = 154 as an `F` value -/
def resoNum : F := 0x431A0000#32
/-- `RESO_NUM` = 154 as the integer of `154 - v` -/
def resoInt : Int := 154
/-- `PEDAL_ON` -/
def pedalOn : Nat := 64
/-- `NOTE_FREE` -/
def noteFree : Int := 0
/-- `NOTE_HELD` -/
def noteHeld : Int := -1
/-- The greatest velocity, 127, as an `F` value (R172). -/
def f127 : F := 0x42FE0000#32
def f0_5 : F := 0x3F000000#32
def f1 : F := 0x3F800000#32
def f2 : F := 0x40000000#32
/-- 2^23, the divisor of a noise sample (R113). -/
def f2p23 : F := 0x4B000000#32
/-- `PI` -/
def pi : F := 0x40490FDB#32
/-- `TWO_PI` -/
def twoPi : F := 0x40C90FDB#32
/-- `PI_OVER_4` -/
def piOver4 : F := 0x3F490FDB#32
/-- `TWO_OVER_PI`, the `HARM_AMP` of R6 -/
def twoOverPi : F := 0x3F22F983#32

/-! ## The filter primitive's state (R49, R156)

The state of an instance is held as the calls made on it since power-on. Every `FState` of every `FLT` is a function of that
sequence (`FLT.det`), and the call sequence is the interface (R161). -/

/-- One call of the filter contract with its operands (R156). -/
inductive FltCall where
  /-- `prepare(sampleRate)` -/
  | prepare (rate : F)
  /-- `update(cutoffHz, normalizedResonance)` -/
  | update (cutoff res : F)
  /-- `process(x)` -/
  | process (x : F)
  /-- `reset()` -/
  | reset
deriving DecidableEq, Repr

/-- `FState`: the calls made on one instance, the latest first. The fixture `F_BYPASS` keeps the one state with no call (R164). -/
structure FState where
  calls : List FltCall
deriving DecidableEq, Repr

/-! ## The open functions (R8, R12, R156)

No body: a proof about the block holds for every choice of them. -/

/-- `NUM.EXP` at the arguments `NUM.exp0` does not cover (R12). -/
opaque Config.expOpen : F → F
/-- `NUM.SIN` at the arguments `NUM.sin0` does not cover. Its sign at `-0` chooses which zero `SIN(-0)` is (R12). -/
opaque Config.sinOpen : F → F
/-- `NUM.COS` (R12). -/
opaque Config.cosOpen : F → F
/-- `NUM.POW2` at the arguments `NUM.pow2int` does not cover (R12). -/
opaque Config.pow2Open : F → F
/-- The `y` of `FLT.process(state, x)` (R156): a function of the calls before it and of `x`. -/
opaque Config.fltOpen : FState → F → F
/-- What `FS` reads as where it holds no value (U5). No rule reads it there: `RENDER` and `MIDI` abort first (R273). -/
opaque Config.unsetRate : F

/-! ## The open parameters (R7) -/

/-- Which numerics the record `NUM` holds (R8). -/
inductive NumSel where
  /-- The open functions above: what a claim about hardware is about. -/
  | external
  /-- The reference numerics of spec/95_test_vectors.md, for tests. -/
  | reference
deriving DecidableEq, Repr

/-- Which filter primitive the record `FLT` holds (R8). -/
inductive FltSel where
  /-- The open primitive: what a claim about hardware is about. -/
  | external
  /-- The fixture `F_BYPASS` of R164, for tests. -/
  | bypass
deriving DecidableEq, Repr

/-- The open parameters of R7, "each a named argument of the model". No step writes them. -/
structure Params where
  /-- `LFO_MAX`, integer >= 1 -/
  lfoMax : Nat
  /-- `PB_K` -/
  pbK : F
  /-- `MODWHEEL_K` -/
  modwheelK : F
  /-- `PRESSURE_K` -/
  pressureK : F
  /-- `FCTL_UP_K` -/
  fctlUpK : F
  /-- `FCTL_DN_K` -/
  fctlDnK : F
  /-- `SMOOTH_N`, integer >= 0 -/
  smoothN : Nat
  /-- `HARM_MAX`, integer >= 1 -/
  harmMax : Nat
  /-- `OBUF_DEPTH`, 1 to 2^24 -/
  obufDepth : Nat
  /-- `NOISE_SEED`, nonzero -/
  noiseSeed : BitVec 32
  /-- `NOISE_TAPS` -/
  noiseTaps : BitVec 32
  /-- `NOISE_STEPS`, integer >= 1 -/
  noiseSteps : Nat
  /-- `AMP_OF_VEL`, a function 0..127 -> `F`, as its table -/
  ampOfVel : Vector F 128
  /-- `NUM` -/
  num : NumSel
  /-- `FLT` -/
  flt : FltSel
deriving DecidableEq, Repr

/-- The default `AMP_OF_VEL`: `v / 127` (R7). -/
def defaultAmpOfVel : Vector F 128 := ⟨⟨(List.range 128).map fun v => F.div (F.ofNat v) f127⟩, by simp⟩

/-- The default column of R7, with `SMOOTH_N` as in the vectors, and `NUM` and `FLT` left open (log entry 6). -/
def Params.default : Params where
  lfoMax := 32
  pbK := 0x376C97A1#32
  modwheelK := 0x36A7C5AC#32
  pressureK := 0x38D1B717#32
  fctlUpK := 0x3CA3D70A#32
  fctlDnK := 0x3CF5C28F#32
  smoothN := 4
  harmMax := 1024
  obufDepth := 4096
  noiseSeed := 0x000056CE#32
  noiseTaps := 0x80200003#32
  noiseSteps := 24
  ampOfVel := defaultAmpOfVel
  num := .external
  flt := .external

end Sys2Proof
end

