-- ==== Sys2Proof/Machine/RefNum.lean ====
section
/-! DEFINITION. The reference numerics of spec/95_test_vectors.md: an instance of `EXP`, `SIN`, `COS` and `POW2` that can be evaluated.
It stands beside the open functions of Config.lean and is used only by a machine whose parameters select it (`Params.num`); State.reset
does not. Each function is computed with 249 or 405 places after the point and rounded once to binary32. DESIGN CHOICE, log entry 4. -/

namespace Sys2Proof

/-- `ln 2` in units of 2^-249. -/
def RefNum.ln2 : Nat := 0x162e42fefa39ef35793c7673007e5ed5e81e6864ce5316c5b141a2eb71755f4
/-- `pi / 2` in units of 2^-405. -/
def RefNum.halfPi : Nat :=
  0x3243f6a8885a308d313198a2e03707344a4093822299f31d0082efa98ec4e6c89452821e638d01377be5466cf34e90c6cc0ac2

/-- The power series of e^r, `r` and the result in units of 2^-249: `fuel` terms from the term of index `j`. -/
def RefNum.expSeries (r : Nat) : Nat → Nat → Nat → Nat → Nat
  | 0, _, _, acc => acc
  | fuel + 1, j, term, acc => RefNum.expSeries r fuel (j + 1) (term * r / 2 ^ 249 / (j + 1)) (acc + term)

/-- `2^k * e^r` rounded, `0 <= r < ln 2` in units of 2^-249. -/
def RefNum.scaledExp (k : Int) (r : Nat) : F :=
  if 128 ≤ k then F.inf
  else if k < -149 then F.zero
  else F.round false (RefNum.expSeries r 64 0 (2 ^ 249) 0 * 2 ^ (k + 149).toNat) 249

/-- `EXP` of the reference numerics. -/
def RefNum.exp (x : F) : F :=
  if x.isNaN then F.nan
  else if x.isInf then (if x.neg? then F.zero else F.inf)
  else
    let u := x.toUnits * 2 ^ 100
    RefNum.scaledExp (u / (RefNum.ln2 : Int)) (u % (RefNum.ln2 : Int)).toNat

/-- `POW2` of the reference numerics. -/
def RefNum.pow2 (x : F) : F :=
  if x.isNaN then F.nan
  else if x.isInf then (if x.neg? then F.zero else F.inf)
  else
    let u := x.toUnits
    RefNum.scaledExp (u / (2 ^ 149 : Int)) ((u % (2 ^ 149 : Int)).toNat * RefNum.ln2 / 2 ^ 149)

/-- An alternating Taylor series in units of 2^-405: the term `t` of index `j`, the next one `t * r^2 / ((j+1)(j+2))` with the other sign. -/
def RefNum.trigSeries (r2 : Nat) : Nat → Nat → Bool → Nat → Int → Int
  | 0, _, _, _, acc => acc
  | fuel + 1, j, minus, t, acc =>
    RefNum.trigSeries r2 fuel (j + 2) (!minus) (t * r2 / 2 ^ 405 / ((j + 1) * (j + 2))) (if minus then acc - t else acc + t)

/-- sin of `0 <= t < pi/2`, in units of 2^-405. -/
def RefNum.sinQ (t : Nat) : Int := RefNum.trigSeries (t * t / 2 ^ 405) 48 1 false t 0
/-- cos of `0 <= t < pi/2`, in units of 2^-405. -/
def RefNum.cosQ (t : Nat) : Int := RefNum.trigSeries (t * t / 2 ^ 405) 48 0 false (2 ^ 405) 0

/-- sin of a quarter turn count and a remainder. -/
def RefNum.sinTurn (q t : Nat) : Int :=
  match q % 4 with
  | 0 => RefNum.sinQ t
  | 1 => RefNum.cosQ t
  | 2 => -RefNum.sinQ t
  | _ => -RefNum.cosQ t

/-- A signed number of units of 2^-405, rounded. -/
def RefNum.roundTrig (v : Int) : F := F.round (v < 0) v.natAbs 256

/-- `SIN` of the reference numerics: odd, and `SIN(-0) = -0`. -/
def RefNum.sin (x : F) : F :=
  if x.isNaN || x.isInf then F.nan
  else if x.isZero then F.zeroOf x.neg?
  else
    let u := x.units * 2 ^ 256
    let v := RefNum.sinTurn (u / RefNum.halfPi) (u % RefNum.halfPi)
    RefNum.roundTrig (if x.neg? then -v else v)

/-- `COS` of the reference numerics: even. -/
def RefNum.cos (x : F) : F :=
  if x.isNaN || x.isInf then F.nan
  else
    let u := x.units * 2 ^ 256
    RefNum.roundTrig (RefNum.sinTurn (u / RefNum.halfPi + 1) (u % RefNum.halfPi))

end Sys2Proof
end

