-- ==== Sys2Proof/Machine/Numerics.lean ====
section
/-! DEFINITION. The transcendental fields of `NUM` (R12): functions of their operand alone (`NUM.det`) that have the named properties
`NUM.exp0`, `NUM.sin0` and `NUM.pow2int` by their form and are open elsewhere. As in every operation on `F` a subnormal operand is read
as zero, and the result is no subnormal and has one NaN (R10; log entry 3). -/

namespace Sys2Proof

/-- `EXP(x)`; `NUM.exp0`: `EXP(+0) = EXP(-0) = 1.0`. -/
def EXP (num : NumSel) (x : F) : F :=
  if x.isZero then f1
  else match num with
    | .external => (Config.expOpen x).canon
    | .reference => RefNum.exp x

/-- `SIN(x)`; `NUM.sin0`: `SIN(+0) = +0` and `SIN(-0)` is a zero. -/
def SIN (num : NumSel) (x : F) : F :=
  if x.isZero then
    (if x.neg? then
      match num with
        | .external => F.zeroOf (Config.sinOpen F.negZero).neg?
        | .reference => F.negZero
     else F.zero)
  else match num with
    | .external => (Config.sinOpen x).canon
    | .reference => RefNum.sin x

/-- `COS(x)`. -/
def COS (num : NumSel) (x : F) : F :=
  match num with
  | .external => (Config.cosOpen x.flush).canon
  | .reference => RefNum.cos x

/-- `POW2` where `NUM.pow2int` says nothing. -/
def pow2Other (num : NumSel) (x : F) : F :=
  match num with
  | .external => (Config.pow2Open x.flush).canon
  | .reference => RefNum.pow2 x

/-- `POW2(x)`; `NUM.pow2int`: `POW2(k) = 2^k` for every integer `-126 <= k <= 127`. R12 does not name the
operand `-0` here: that `-0` (and a subnormal, read as a zero) is the integer 0, so that `POW2(-0) = 1.0`, is the model's DESIGN CHOICE,
unsafe, log entry 27. -/
def POW2 (num : NumSel) (x : F) : F :=
  match x.asInt? with
  | some k => if -126 ≤ k ∧ k ≤ 127 then F.pack false ((k + 127).toNat * 2 ^ 23) else pow2Other num x
  | none => pow2Other num x

end Sys2Proof
end

