-- ==== Sys2Proof/Machine/State.lean ====
section
/-! DEFINITION. The state of the block (spec/10_state.md, INVENTORY.md ## State), as plain data, and its value after hardware reset
(R54, R290). Beside the spec's state it holds what R50 calls arguments of the step relation: the parameters of R7, the two command
sequences, and the order in which the host acts on the ports. -/

namespace Sys2Proof.Machine

/-- A reason the block stops with a fault. There is none: the six faults of R271 are sticky bits, and the command that raises one
retires or aborts and the next command runs (R17, R276). Nobody raises a value of this type, which is safe. -/
inductive Fault where
deriving DecidableEq, Repr

/-- A reason the model gives an instruction no meaning. -/
inductive Refusal where
  /-- Raised by an arm of `exec` for an instruction that has no meaning yet. No arm raises it. Safe: a refused step claims nothing. -/
  | notModelled (mnemonic : String)
deriving DecidableEq, Repr

/-- The two command ports (R61, R62). -/
inductive Port where
  /-- The command port, every opcode. -/
  | cmd
  /-- The parameter port, `PWRITE` only. -/
  | par
deriving DecidableEq, Repr

/-- What the host does next (R5, R74, R296): the interleaving is an input (U14). -/
inductive HostAct where
  /-- A word transfers on the command port. -/
  | cmd
  /-- A word transfers on the parameter port. -/
  | par
  /-- `rst_n` is driven low and released (R290). -/
  | rst
deriving DecidableEq, Repr

/-- One oscillator (R46). -/
structure Osc where
  /-- Hz, after modulation -/
  freq : F
  phase : F
  /-- `freq / FS` as of the last `OscSetFreq` -/
  inc : F
  /-- output amplitude -/
  amp : F
deriving DecidableEq, Repr

/-- One envelope (R47): there is no stage variable (R120). -/
structure Env where
  level : F
  target : F
  /-- the current coefficient -/
  coef : F
  /-- attack -/
  a : F
  /-- decay -/
  d : F
  /-- sustain level -/
  s : F
  /-- release -/
  r : F
deriving DecidableEq, Repr

/-- One smoother (R45). -/
structure Smoother where
  cur : F
  tgt : F
  step : F
  /-- samples left in the ramp -/
  cnt : Nat
deriving DecidableEq, Repr

/-- One voice slot (R20 to R27). -/
structure Voice where
  /-- -1 held by the pedal, 0 free or released, else the note number (R21) -/
  note : Int
  /-- R22 -/
  velocity : BitVec 7
  /-- the note's frequency in Hz, unmodulated (R23) -/
  frequency : F
  /-- base filter cutoff in Hz (R24) -/
  cutoff : F
  /-- R25 -/
  filterMod : F
  /-- R26 -/
  panLeft : F
  /-- R26 -/
  panRight : F
  /-- R27, R46 -/
  oscA : Osc
  /-- R27, R46 -/
  oscB : Osc
  /-- the amplitude envelope (R27, R47) -/
  env : Env
  /-- the filter envelope (R27, R47) -/
  fenv : Env
  /-- the filter instance (R27, R49) -/
  flt : FState
deriving DecidableEq, Repr

/-- The six sticky bits `FAULT[1]` to `FAULT[6]` (R32, R271). -/
structure FaultBits where
  /-- `FAULT[1]` -/
  notAllocated : Bool
  /-- `FAULT[2]` -/
  badSampleRate : Bool
  /-- `FAULT[3]` -/
  obufRange : Bool
  /-- `FAULT[4]` -/
  harmClip : Bool
  /-- `FAULT[5]` -/
  illegalCommand : Bool
  /-- `FAULT[6]` -/
  badParamIndex : Bool
deriving DecidableEq, Repr

/-- The whole state. -/
structure State where
  /-- `V[0 .. 15]` (R20) -/
  voices : Vector Voice numVoices
  /-- the noise register (R48) -/
  lfsr : BitVec 32
  /-- R37 -/
  pitchBend : F
  /-- R38 -/
  modWheel : F
  /-- R39 -/
  pressure : F
  /-- R40 -/
  filterCtl : F
  /-- R41 -/
  resonanceCtl : F
  /-- R42 -/
  filterZip : F
  /-- R43 -/
  vibratoMod : F
  /-- the LFO phase in radians (R44) -/
  lfo : F
  /-- the LFO's sample-decimation counter (R44) -/
  lfoStep : Int
  /-- R29 -/
  sustain : Bool
  /-- R45 -/
  outLevel : Smoother
  /-- R45 -/
  oscMix : Smoother
  /-- the shadow bank `SH[0..19]` (R34) -/
  sh : Vector F numCfg
  /-- the active bank `CFG[0..19]` (R34) -/
  cfg : Vector F numCfg
  /-- `DIRTY` (R30) -/
  dirty : Bool
  /-- `ALLOCATED` (R31) -/
  allocated : Bool
  /-- `FS`, no value until an `ALLOC` retires (R36, U5) -/
  fs : Option F
  /-- `NYQ` (R36, U5) -/
  nyq : Option F
  /-- `FAULT` (R32) -/
  fault : FaultBits
  /-- the command pointer (R28) -/
  cp : Nat
  /-- the parameter port's pointer (R28) -/
  pp : Nat
  /-- `OBUF_L` through the byte view of R67: addresses rising, a frame no `RENDER` wrote not listed (R63, U4) -/
  obufL : List Host.Cell
  /-- `OBUF_R` -/
  obufR : List Host.Cell
  /-- the port whose word is being executed (R61, R62; the model's own field, log entry 12) -/
  port : Port
  /-- the command-port program `P` (R28, R300; an argument of the step relation, R50, log entry 10) -/
  cmdWords : List Word
  /-- the parameter-port program `Q` (R300, R50) -/
  parWords : List Word
  /-- the host's next acts, the interleaving (R74, R300, U14; log entry 10) -/
  sched : List HostAct
  /-- the open parameters (R7, R50; log entry 6) -/
  params : Params
deriving DecidableEq, Repr

/-- An oscillator after hardware reset (R54). -/
def Osc.zero : Osc := ⟨F.zero, F.zero, F.zero, F.zero⟩
/-- An envelope after hardware reset (R54). -/
def Env.zero : Env := ⟨F.zero, F.zero, F.zero, F.zero, F.zero, F.zero, F.zero⟩
/-- A smoother after hardware reset (R54). -/
def Smoother.zero : Smoother := ⟨F.zero, F.zero, F.zero, 0⟩

/-- `FLT.init`: no call made yet (R49). -/
def FState.init : FState := ⟨[]⟩

/-- The centre value of both pan coefficients, `SIN(PI_OVER_4)` (R26). -/
def panCentreValue (p : Params) : F := SIN p.num piOver4

/-- A voice slot after hardware reset (R54). -/
def Voice.powerOn (p : Params) : Voice where
  note := noteFree
  velocity := 0#7
  frequency := F.zero
  cutoff := F.zero
  filterMod := F.zero
  panLeft := panCentreValue p
  panRight := panCentreValue p
  oscA := Osc.zero
  oscB := Osc.zero
  env := Env.zero
  fenv := Env.zero
  flt := FState.init

/-- No fault recorded. -/
def FaultBits.none : FaultBits := ⟨false, false, false, false, false, false⟩

/-- The "hardware reset" column of R54 for a block with parameters `p`, with nothing presented on either port. -/
def State.resetWith (p : Params) : State where
  voices := Vector.replicate numVoices (Voice.powerOn p)
  lfsr := p.noiseSeed
  pitchBend := f1
  modWheel := F.zero
  pressure := F.zero
  filterCtl := F.zero
  resonanceCtl := f1
  filterZip := F.zero
  vibratoMod := f1
  lfo := F.zero
  lfoStep := 0
  sustain := false
  outLevel := Smoother.zero
  oscMix := Smoother.zero
  sh := Vector.replicate numCfg F.zero
  cfg := Vector.replicate numCfg F.zero
  dirty := false
  allocated := false
  fs := none
  nyq := none
  fault := FaultBits.none
  cp := 0
  pp := 0
  obufL := []
  obufR := []
  port := .cmd
  cmdWords := []
  parWords := []
  sched := []
  params := p

/-- The machine right after hardware reset, with the default parameters of R7. -/
def State.reset : State := State.resetWith Params.default

end Sys2Proof.Machine
end

