-- ==== Sys2Proof/Machine/Flags.lean ====
section
/-! DEFINITION. Everything of the block that is a flag or a predicate: the fault bits and their pins (R32, R60, R271), the two envelope
predicates (R16, R126, R127), the activity of a voice, and the strategy band (R171). No arithmetic condition code exists (R33). -/

namespace Sys2Proof.Machine

/-- The six faults, by the codes of R271. -/
inductive FaultCode where
  /-- code 1, aborting -/
  | notAllocated
  /-- code 2, aborting -/
  | badSampleRate
  /-- code 3, aborting -/
  | obufRange
  /-- code 4, not aborting -/
  | harmClip
  /-- code 5, aborting -/
  | illegalCommand
  /-- code 6, aborting -/
  | badParamIndex
deriving DecidableEq, Repr

/-- The code `k`, 1 to 6 (R271). -/
def FaultCode.code : FaultCode → Nat
  | .notAllocated => 1
  | .badSampleRate => 2
  | .obufRange => 3
  | .harmClip => 4
  | .illegalCommand => 5
  | .badParamIndex => 6

/-- Whether the fault ends its command (R271). -/
def FaultCode.aborting : FaultCode → Bool
  | .harmClip => false
  | .notAllocated | .badSampleRate | .obufRange | .illegalCommand | .badParamIndex => true

/-- `FAULT[k]`. -/
def FaultBits.bit (f : FaultBits) : FaultCode → Bool
  | .notAllocated => f.notAllocated
  | .badSampleRate => f.badSampleRate
  | .obufRange => f.obufRange
  | .harmClip => f.harmClip
  | .illegalCommand => f.illegalCommand
  | .badParamIndex => f.badParamIndex

/-- `FAULT[k] <- 1`: sticky (R32, R277). -/
def FaultBits.raise (f : FaultBits) : FaultCode → FaultBits
  | .notAllocated => { f with notAllocated := true }
  | .badSampleRate => { f with badSampleRate := true }
  | .obufRange => { f with obufRange := true }
  | .harmClip => { f with harmClip := true }
  | .illegalCommand => { f with illegalCommand := true }
  | .badParamIndex => { f with badParamIndex := true }

/-- The pin `fault_any` (R32, R60). -/
def FaultBits.any (f : FaultBits) : Bool :=
  f.notAllocated || f.badSampleRate || f.obufRange || f.harmClip || f.illegalCommand || f.badParamIndex

/-- The pins `fault[6:1]`, `FAULT[1]` the least significant (R60). -/
def FaultBits.pins (f : FaultBits) : BitVec 6 :=
  BitVec.ofNat 6 (f.notAllocated.toNat + 2 * f.badSampleRate.toNat + 4 * f.obufRange.toNat + 8 * f.harmClip.toNat
    + 16 * f.illegalCommand.toNat + 32 * f.badParamIndex.toNat)

/-- `EnvIsActive(e)`: `e.level > 1e-4`, strict (R126). -/
def envIsActive (e : Env) : Bool := F.gt e.level silence

/-- `InAttack(e)`: `e.target >= 2.0` (R127). -/
def inAttack (e : Env) : Bool := F.ge e.target attackTarget

/-- `Active(i)` of a voice: its amplitude envelope decides (R16, R126). -/
def Voice.active (v : Voice) : Bool := envIsActive v.env

/-- The three oscillator strategies (R135). -/
inductive Strategy where
  | naive
  | blep
  | additive
deriving DecidableEq, Repr

/-- `Band(f)`: below 40 Hz naive, below 1000 Hz poly-BLEP, otherwise additive, a NaN included (R171). -/
def band (f : F) : Strategy := if F.lt f bandLo then .naive else if F.lt f bandHi then .blep else .additive

end Sys2Proof.Machine
end

