-- ==== Sys2Proof/Machine/Operands.lean ====
section
/-! DEFINITION. How operands are read: the configuration registers by name and by index (R35, R64), the sample rate (R36), the conversion
of MIDI values (R14, R92), the command-format operands (R82), and the filter port's form of a call (R165). -/

namespace Sys2Proof.Machine

/-- The configuration registers (R35). -/
inductive Reg where
  | envAttack
  | envDecay
  | envSustain
  | envRelease
  | fenvAttack
  | fenvDecay
  | fenvSustain
  | fenvRelease
  | lfoInc
  | vibrato
  | detune
  | tune
  | oscMix
  | noiseMix
  | outputLevel
  | filterKeytrack
  | filterLfoDepth
  | filterEnvDepth
  | filterQ
  | velSens
deriving DecidableEq, Repr

/-- The `PWRITE` index of a register (R35). -/
def Reg.idx : Reg → Fin numCfg
  | .envAttack => 0
  | .envDecay => 1
  | .envSustain => 2
  | .envRelease => 3
  | .fenvAttack => 4
  | .fenvDecay => 5
  | .fenvSustain => 6
  | .fenvRelease => 7
  | .lfoInc => 8
  | .vibrato => 9
  | .detune => 10
  | .tune => 11
  | .oscMix => 12
  | .noiseMix => 13
  | .outputLevel => 14
  | .filterKeytrack => 15
  | .filterLfoDepth => 16
  | .filterEnvDepth => 17
  | .filterQ => 18
  | .velSens => 19

/-- `CFG[NAME]`, the active configuration register (R15). -/
def State.cfgReg (s : State) (r : Reg) : F := s.cfg.get r.idx
/-- `SH[NAME]`, its shadow (R15). -/
def State.shReg (s : State) (r : Reg) : F := s.sh.get r.idx

/-- `FS` as a rule reads it. It holds a value wherever a rule reads it (R273). -/
def State.fsVal (s : State) : F := s.fs.getD Config.unsetRate
/-- `NYQ` as a rule reads it. -/
def State.nyqVal (s : State) : F := s.nyq.getD Config.unsetRate

/-- A 7-bit MIDI value as `F` (R11, R14). -/
def f7 (v : BitVec 7) : F := F.ofNat v.toNat

/-- `v * v`, an integer at most 16129, then converted (R14). -/
def f7sq (v : BitVec 7) : F := F.ofNat (v.toNat * v.toNat)

/-- `bend = d1 + 128 * d2` (R92). -/
def bendValue (d1 d2 : BitVec 7) : Nat := d1.toNat + 128 * d2.toNat

/-- `AMP_OF_VEL(v)` (R7, R246). -/
def ampOfVel (p : Params) (v : BitVec 7) : F := p.ampOfVel.get ⟨v.toNat, v.isLt⟩

/-- `off + cnt` of `RENDER`, in 25 bits without wrap (R71, R201). -/
def renderEnd (off cnt : BitVec 24) : Nat := off.toNat + cnt.toNat

/-- `flt_op` of a filter request: 0 prepare, 1 update, 2 process, 3 reset (R60, R165). -/
def fltOp : FltCall → BitVec 2
  | .prepare _ => 0#2
  | .update _ _ => 1#2
  | .process _ => 2#2
  | .reset => 3#2

end Sys2Proof.Machine
end

