-- ==== Sys2Proof/Machine/Ops.lean ====
section
/-! DEFINITION. The named operations over the state: the output buffers, the voice file, the command pointers, raising a fault and
aborting a command (the block's whole exception mechanism, R271 to R277), the port check, hardware reset, and what the host's next
act transfers. -/

namespace Sys2Proof.Machine

/-- The outcome of a command. -/
abbrev Result := Host.Outcome State Fault Refusal

/-! ## Output buffers (R63, R67 to R71) -/

/-- One output buffer through its byte view: rising addresses, and nothing listed for a byte no `RENDER` wrote. -/
abbrev Memory := List Host.Cell

/-- The canonical form: addresses strictly rising. An unlisted address has no value, so no entry can equal what one reads as. -/
abbrev Memory.wf (m : Memory) : Prop := m.Pairwise fun x y => x.1 < y.1

/-- Store one byte, keeping the canonical form. -/
def writeByte (a : Nat) (b : Byte) : Memory → Memory
  | [] => [(a, b)]
  | (k, x) :: t => if a < k then (a, b) :: (k, x) :: t else if a = k then (a, b) :: t else (k, x) :: writeByte a b t

/-- The byte at an address; `none` where no `RENDER` wrote since hardware reset: its content is unspecified (R63, U4). -/
def readByte (a : Nat) : Memory → Option Byte
  | [] => none
  | (k, x) :: t => if a = k then some x else readByte a t

/-- Byte `j` of an element, little-endian (R67). -/
def elemByte (v : F) (j : Nat) : Byte := slice v (8 * j) 8

/-- `MemWrite(OBUF, k, 4, v)`: the element of frame `k`, bytes `4k .. 4k + 3` (R15, R67). -/
def writeElem (k : Nat) (v : F) (m : Memory) : Memory :=
  writeByte (4 * k + 3) (elemByte v 3) (writeByte (4 * k + 2) (elemByte v 2)
    (writeByte (4 * k + 1) (elemByte v 1) (writeByte (4 * k) (elemByte v 0) m)))

/-- The element of frame `k` as the host reads it; `none` where it is unspecified. -/
def readElem (k : Nat) (m : Memory) : Option F :=
  match readByte (4 * k) m, readByte (4 * k + 1) m, readByte (4 * k + 2) m, readByte (4 * k + 3) m with
  | some b0, some b1, some b2, some b3 => some (b3 ++ (b2 ++ (b1 ++ b0)))
  | _, _, _, _ => none

/-- `OBUF_L[k] <- v`. -/
def State.storeL (s : State) (k : Nat) (v : F) : State := { s with obufL := writeElem k v s.obufL }
/-- `OBUF_R[k] <- v`. -/
def State.storeR (s : State) (k : Nat) (v : F) : State := { s with obufR := writeElem k v s.obufR }

/-! ## The voice file (R20) -/

/-- The indices `0 .. 15` in ascending order. -/
def voiceIndices : List (Fin numVoices) := [0, 1, 2, 3, 4, 5, 6, 7, 8, 9, 10, 11, 12, 13, 14, 15]

/-- `V[i]`. -/
def State.voice (s : State) (i : Fin numVoices) : Voice := s.voices.get i

/-- Write slot `i`. -/
def State.setVoice (s : State) (i : Fin numVoices) (v : Voice) : State := { s with voices := s.voices.set i.val v i.isLt }

/-- `for i in 0 .. 15: V[i] <- f(V[i])`. No voice operation reads or writes another voice (R170), so the order cannot show. -/
def State.mapVoices (s : State) (f : Voice → Voice) : State := { s with voices := vmap f s.voices }

/-! ## Command pointers and faults -/

/-- The end of every command, retired or aborted: `cp <- cp + 1`, on the parameter port `pp <- pp + 1` (R28). -/
def State.advance (s : State) : State :=
  match s.port with
  | .cmd => { s with cp := s.cp + 1 }
  | .par => { s with pp := s.pp + 1 }

/-- `raise <Fault>`: the sticky bit (R15, R32). -/
def State.raise (s : State) (k : FaultCode) : State := { s with fault := s.fault.raise k }

/-- An aborting fault: the bit is set, nothing else changes, the pointer advances (R271, R276). There is no trap entry and no return:
nothing is saved, no mode changes and control goes to the next command word (R276, R277). -/
def State.abort (s : State) (k : FaultCode) : State := (s.raise k).advance

/-- The port check, before every other check of a command that only the command port may carry (R191, R275, R279): on the parameter port
the command aborts with `IllegalCommand`, on the command port it goes on as `k`. -/
def commandPortOnly (s : State) (k : State → State) : State :=
  match s.port with
  | .par => s.abort .illegalCommand
  | .cmd => k s

/-- The check of `RENDER` and `MIDI` that a sample rate has been set (R201, R230, R273). -/
def whenAllocated (s : State) (k : State → State) : State := if s.allocated then k s else s.abort .notAllocated

/-! ## What the host does (R5, R61, R62, R74, R296) -/

/-- Hardware reset (R290): every register takes its reset value and the buffers become unspecified. The host's own sequences and the
parameters are no state of the block: they stay, and the act is used up. -/
def hardwareReset (s : State) : State :=
  { State.resetWith s.params with cmdWords := s.cmdWords, parWords := s.parWords, sched := s.sched.tail }

/-- The word the host presents on a port: the one the port's pointer names (R28). -/
def State.pending (s : State) : Port → Option Word
  | .cmd => s.cmdWords[s.cp]?
  | .par => s.parWords[s.pp]?

/-- What happens at the block's pins next. -/
inductive Transfer where
  /-- Neither port has a word: the block idles with all state held (R284, R290). -/
  | idle
  /-- Hardware reset. -/
  | rst
  /-- A word transfers on a port. -/
  | word (p : Port) (w : Word)
deriving DecidableEq, Repr

/-- A word from the first port that has one. -/
def State.firstPending (s : State) (p q : Port) : Transfer :=
  match s.pending p with
  | some w => .word p w
  | none => match s.pending q with
    | some w => .word q w
    | none => .idle

/-- The next transfer. Where the interleaving names a port with no word left, the other port's next word is taken, and an interleaving
that has run out prefers the command port: each port's next word is eventually taken (R300; log entry 10). -/
def State.transfer (s : State) : Transfer :=
  match s.sched with
  | .rst :: _ => .rst
  | .par :: _ => s.firstPending .par .cmd
  | .cmd :: _ => s.firstPending .cmd .par
  | [] => s.firstPending .cmd .par

/-- The act is used up and nothing else happens. -/
def State.idle (s : State) : State := { s with sched := s.sched.tail }

/-- A word has transferred on port `p`. -/
def State.accept (s : State) (p : Port) : State := { s with port := p, sched := s.sched.tail }

/-- Put a word at index `n` of a port's sequence, filling up with `NOP` words where the sequence is shorter. -/
def placeWord (w : Word) : List Word → Nat → List Word
  | [], 0 => [w]
  | [], n + 1 => 0#64 :: placeWord w [] n
  | _ :: t, 0 => w :: t
  | h :: t, n + 1 => h :: placeWord w t n

end Sys2Proof.Machine
end

