-- ==== Sys2Proof/Machine/Envelope.lean ====
section
/-! DEFINITION. The envelope generator, spec/41_envelope.md. -/

namespace Sys2Proof.Machine

/-- The level `EnvNext` computes and returns: `coef * (level - target) + target` (R121). -/
def envLevel (e : Env) : F := F.add (F.mul e.coef (F.sub e.level e.target)) e.target

/-- `EnvNext(e)`: the update first, then the test `level + target > 3.0` with the target from before, which loads `s` and `d` (R121).
The value it returns is the `level` of the result. -/
def envNext (e : Env) : Env :=
  if F.gt (F.add (envLevel e) e.target) decayThreshold then { e with level := envLevel e, target := e.s, coef := e.d }
  else { e with level := envLevel e }

/-- `EnvAttack(e)` (R122). -/
def envAttack (e : Env) : Env := { e with level := F.add e.level attackBump, target := attackTarget, coef := e.a }

/-- `EnvRelease(e)` (R123). -/
def envRelease (e : Env) : Env := { e with target := F.zero, coef := e.r }

/-- `EnvReset(e)`: `a`, `d`, `s`, `r` stay (R124). -/
def envReset (e : Env) : Env := { e with level := F.zero, target := F.zero, coef := F.zero }

/-- `EnvPrime(e, a, d, s, r)` (R125). -/
def envPrime (e : Env) (a d s r : F) : Env := { e with a := a, d := d, s := s, r := r }

end Sys2Proof.Machine
end

