-- ==== Sys2Proof/Machine/Filter.lean ====
section
/-! DEFINITION. The filter primitive's contract, spec/43_filter_interface.md: the four functions of `FLT` (R156), the requests of the filter
port (R165), and the operations that apply them to a voice's instance. -/

namespace Sys2Proof.Machine

/-- The state a call leaves (R156): for the open primitive the call history with this call, for the fixture `F_BYPASS` the state itself,
so that its instances never leave their one state `FState.init` (R164). -/
def fltCall (flt : FltSel) (st : FState) (c : FltCall) : FState :=
  match flt with
  | .external => ⟨c :: st.calls⟩
  | .bypass => st

/-- `FLT.prepare` (R156). -/
def fltPrepare (flt : FltSel) (st : FState) (rate : F) : FState := fltCall flt st (.prepare rate)
/-- `FLT.update` (R156). -/
def fltUpdate (flt : FltSel) (st : FState) (cutoff res : F) : FState := fltCall flt st (.update cutoff res)
/-- `FLT.reset` (R156). -/
def fltReset (flt : FltSel) (st : FState) : FState := fltCall flt st .reset
/-- The state `FLT.process` leaves (R156). -/
def fltProcess (flt : FltSel) (st : FState) (x : F) : FState := fltCall flt st (.process x)
/-- The `y` that `FLT.process` returns: open, or `x` for the fixture `F_BYPASS` (R156, R164). -/
def fltOut (flt : FltSel) (st : FState) (x : F) : F :=
  match flt with
  | .external => Config.fltOpen st x
  | .bypass => x

/-! ## The filter port (R60, R165) -/

/-- One request on the filter port. `none` on an operand pin: the operation has no such operand, and no rule says what the pin carries. -/
structure FltRequest where
  /-- `flt_op` -/
  op : BitVec 2
  /-- `flt_voice`, the index of the voice -/
  voice : BitVec 4
  /-- `flt_a`: the sample rate, the cutoff or `x` -/
  a : Option F
  /-- `flt_b`: the normalised resonance, for update only -/
  b : Option F
deriving DecidableEq, Repr

/-- `flt_a` of a call (R165). -/
def fltA : FltCall → Option F
  | .prepare rate => some rate
  | .update cutoff _ => some cutoff
  | .process x => some x
  | .reset => none

/-- `flt_b` of a call (R165). -/
def fltB : FltCall → Option F
  | .update _ res => some res
  | .prepare _ => none
  | .process _ => none
  | .reset => none

/-- The request that a call on voice `i`'s instance is (R165). -/
def fltRequest (i : Fin numVoices) (c : FltCall) : FltRequest := ⟨fltOp c, BitVec.ofNat 4 i.val, fltA c, fltB c⟩

/-- What `flt_y` carries when the primitive acknowledges a call made in state `st`: the result of a process operation, nothing that a rule
reads for the others (R165). -/
def fltY (flt : FltSel) (st : FState) : FltCall → Option F
  | .process x => some (fltOut flt st x)
  | .prepare _ => none
  | .update _ _ => none
  | .reset => none

/-! ## The instance of a voice -/

/-- `FltPrepare(i)` on a voice (R157). -/
def voicePrepare (p : Params) (fs : F) (v : Voice) : Voice := { v with flt := fltPrepare p.flt v.flt fs }

/-- The normalised resonance `clamp(FILTER_Q * resonanceCtl / 30, 0, 1)` (R163). -/
def normalizedResonance (q resonanceCtl : F) : F := F.clamp (F.div (F.mul q resonanceCtl) resDiv) F.zero f1

end Sys2Proof.Machine
end

