-- ==== Sys2Proof/Machine/Oscillator.lean ====
section
/-! DEFINITION. The oscillator and its three strategies, spec/42_oscillator.md. -/

namespace Sys2Proof.Machine

/-- `OscSetFreq(o, f)`: the phase stays (R136). -/
def oscSetFreq (fs : F) (o : Osc) (f : F) : Osc := { o with freq := f, inc := F.div f fs }

/-- `OscReset(o)` (R137). -/
def oscReset (_ : Osc) : Osc := ⟨F.zero, F.zero, F.zero, F.zero⟩

/-- The phase after `OscAdvance`: one conditional subtraction (R139). -/
def advancePhase (phase inc : F) : F := if F.ge (F.add phase inc) f1 then F.sub (F.add phase inc) f1 else F.add phase inc

/-- `OscAdvance(o)` (R139). -/
def oscAdvance (o : Osc) : Osc := { o with phase := advancePhase o.phase o.inc }

/-- What a strategy gives: the oscillator after the advance, the sample, and whether it raised `HarmClip`. -/
structure OscOut where
  osc : Osc
  sample : F
  clip : Bool
deriving DecidableEq, Repr

/-- The ramp `2.0 * phase - 1.0` (R140). -/
def ramp (phase : F) : F := F.sub (F.mul f2 phase) f1

/-- `OscNaive(o)` (R140). -/
def oscNaive (o : Osc) : OscOut := ⟨oscAdvance o, F.mul o.amp (ramp o.phase), false⟩

/-- The poly-BLEP correction `c` at phase `t` with increment `dt` (R141). -/
def blepCorrection (t dt : F) : F :=
  if F.lt t dt then
    let u := F.div t dt
    F.sub (F.sub (F.add u u) (F.mul u u)) f1
  else if F.gt t (F.sub f1 dt) then
    let u := F.div (F.sub t f1) dt
    F.add (F.add (F.mul u u) (F.add u u)) f1
  else F.zero

/-- `OscBlep(o)` (R141). -/
def oscBlep (o : Osc) : OscOut :=
  ⟨oscAdvance o, F.mul o.amp (F.sub (ramp o.phase) (blepCorrection o.phase o.inc)), false⟩

/-- The loop test `F(i) * freq < NYQ` (R142). -/
def belowNyquist (i : Nat) (freq nyq : F) : Bool := F.lt (F.mul (F.ofNat i) freq) nyq

/-- The term of harmonic `i`: `(TWO_OVER_PI / F(i)) * SIN(TWO_PI * phase * F(i))` (R142). -/
def harmonicTerm (num : NumSel) (phase : F) (i : Nat) : F :=
  F.mul (F.div twoOverPi (F.ofNat i)) (SIN num (F.mul (F.mul twoPi phase) (F.ofNat i)))

/-- The loop of `OscAdditive` from harmonic `i`, `fuel` harmonics being left below `HARM_MAX`: the sum, and whether the bound and not
Nyquist ended the loop (R142). -/
def additiveSum (num : NumSel) (nyq freq phase : F) : Nat → Nat → F → F × Bool
  | 0, i, acc => (acc, belowNyquist i freq nyq)
  | fuel + 1, i, acc =>
    if belowNyquist i freq nyq then
      additiveSum num nyq freq phase fuel (i + 1)
        (if i % 2 = 1 then F.add acc (harmonicTerm num phase i) else F.sub acc (harmonicTerm num phase i))
    else (acc, false)

/-- `OscAdditive(o)` (R142). -/
def oscAdditive (p : Params) (nyq : F) (o : Osc) : OscOut :=
  let r := additiveSum p.num nyq o.freq o.phase p.harmMax 1 F.zero
  ⟨oscAdvance o, F.mul o.amp r.1, r.2⟩

/-- One sample by the strategy (R172). -/
def oscRender (p : Params) (nyq : F) (b : Strategy) (o : Osc) : OscOut :=
  match b with
  | .naive => oscNaive o
  | .blep => oscBlep o
  | .additive => oscAdditive p nyq o

end Sys2Proof.Machine
end

