-- ==== Sys2Proof/Machine/Voice.lean ====
section
/-! DEFINITION. The voice, spec/44_voice.md. -/

namespace Sys2Proof.Machine

/-- What `VoiceRender` gives: the voice after it, its sample, and whether it raised `HarmClip`. -/
structure VoiceOut where
  voice : Voice
  sample : F
  clip : Bool
deriving DecidableEq, Repr

/-- The voice with `oscB.amp <- oscA.amp * mix` (R173). -/
def setAmpB (v : Voice) (mix : F) : Voice := { v with oscB := { v.oscB with amp := F.mul v.oscA.amp mix } }

/-- `VoiceRender(i, noise, mix)` (R172). -/
def voiceRender (p : Params) (nyq noise mix : F) (v : Voice) : VoiceOut :=
  let v1 := setAmpB v mix
  let a := oscRender p nyq (band v1.frequency) v1.oscA
  let b := oscRender p nyq (band v1.frequency) v1.oscB
  let x := F.add (F.add a.sample b.sample) (F.mul noise (F.div (f7 v1.velocity) f127))
  let y := fltOut p.flt v1.flt x
  let e := envNext v1.env
  ⟨{ v1 with oscA := a.osc, oscB := b.osc, flt := fltProcess p.flt v1.flt x, env := e }, F.mul y e.level, a.clip || b.clip⟩

/-- The clamped pan position `clamp(F(note - 60) / 96, -0.3, 0.3)` (R174). -/
def panPosition (note : Int) : F := F.clamp (F.div (F.ofInt (note - panCentre)) panDiv) panLimitNeg panLimit

/-- The pan angle `PI_OVER_4 * (1 + p)` (R174). -/
def panAngle (note : Int) : F := F.mul piOver4 (F.add f1 (panPosition note))

/-- `UpdatePanning(i)` (R174). -/
def updatePanning (p : Params) (v : Voice) : Voice :=
  { v with panLeft := COS p.num (panAngle v.note), panRight := SIN p.num (panAngle v.note) }

/-- The modulated cutoff before the clamp: `cutoff * EXP(filterMod + FILTER_ENV_DEPTH * fenv) / pitchBend` (R176). -/
def modulatedCutoff (num : NumSel) (cutoff filterMod depth fenv pitchBend : F) : F :=
  F.div (F.mul cutoff (EXP num (F.add filterMod (F.mul depth fenv)))) pitchBend

/-- `VoiceUpdateLFO(i)` (R176). -/
def voiceUpdateLFO (s : State) (v : Voice) : Voice :=
  let e := envNext v.fenv
  let mc := modulatedCutoff s.params.num v.cutoff v.filterMod (s.cfgReg .filterEnvDepth) e.level s.pitchBend
  { v with
    fenv := e
    flt := fltUpdate s.params.flt v.flt (F.clamp mc cutoffMin cutoffMax) (normalizedResonance (s.cfgReg .filterQ) s.resonanceCtl) }

/-- Oscillator A's frequency: `frequency * pitchBend * vibratoMod` (R178). -/
def pitchA (s : State) (v : Voice) : F := F.mul (F.mul v.frequency s.pitchBend) s.vibratoMod

/-- `UpdatePitch(i)` (R178). -/
def updatePitch (s : State) (v : Voice) : Voice :=
  { v with
    oscA := oscSetFreq s.fsVal v.oscA (pitchA s v)
    oscB := oscSetFreq s.fsVal v.oscB (F.mul (pitchA s v) (s.cfgReg .detune)) }

/-- `VoiceReset(i)` (R180). -/
def voiceReset (p : Params) (v : Voice) : Voice where
  note := noteFree
  velocity := 0#7
  frequency := F.zero
  cutoff := F.zero
  filterMod := F.zero
  panLeft := panCentreValue p
  panRight := panCentreValue p
  oscA := oscReset v.oscA
  oscB := oscReset v.oscB
  env := envReset v.env
  fenv := envReset v.fenv
  flt := fltReset p.flt v.flt

/-- `VoiceRelease(i)` (R181). -/
def voiceRelease (v : Voice) : Voice := { v with env := envRelease v.env, fenv := envRelease v.fenv }

end Sys2Proof.Machine
end

