-- ==== Sys2Proof/Machine/Lfo.lean ====
section
/-! DEFINITION. The decimated LFO, R207 and R208. -/

namespace Sys2Proof.Machine

/-- The LFO phase after a tick: one conditional subtraction (R208). -/
def lfoPhase (lfo inc : F) : F := if F.gt (F.add lfo inc) pi then F.sub (F.add lfo inc) twoPi else F.add lfo inc

/-- `vibratoMod` at a tick: `1.0 + sine * (modWheel + VIBRATO)` (R208). -/
def vibratoAt (s : State) (sine : F) : F := F.add f1 (F.mul sine (F.add s.modWheel (s.cfgReg .vibrato)))

/-- `fm` at a tick: `FILTER_KEYTRACK + filterCtl + (FILTER_LFO_DEPTH + pressure) * sine` (R208). -/
def filterModAt (s : State) (sine : F) : F :=
  F.add (F.add (s.cfgReg .filterKeytrack) s.filterCtl) (F.mul (F.add (s.cfgReg .filterLfoDepth) s.pressure) sine)

/-- The one-pole smoother: `zip + 0.005 * (fm - zip)` (R208). -/
def filterZipStep (zip fm : F) : F := F.add zip (F.mul fzipCoef (F.sub fm zip))

/-- The first part of `LfoTick()`: the phase, the pitch factor and the smoothed filter modulation (R208). -/
def lfoScalars (s : State) : State :=
  let lfo := lfoPhase s.lfo (s.cfgReg .lfoInc)
  let sine := SIN s.params.num lfo
  { s with lfo := lfo, vibratoMod := vibratoAt s sine, filterZip := filterZipStep s.filterZip (filterModAt s sine) }

/-- What a tick does to one voice (R208). -/
def voiceTick (s : State) (v : Voice) : Voice :=
  if v.active then voiceUpdateLFO s (updatePitch s { v with filterMod := s.filterZip }) else v

/-- `LfoTick()` (R208). -/
def lfoTick (s : State) : State := (lfoScalars s).mapVoices (voiceTick (lfoScalars s))

/-- The LFO part of a frame: decrement, and at `<= 0` reload and tick (R207). -/
def lfoDecimate (s : State) : State :=
  if s.lfoStep - 1 ≤ 0 then lfoTick { s with lfoStep := s.params.lfoMax } else { s with lfoStep := s.lfoStep - 1 }

end Sys2Proof.Machine
end

