-- ==== Sys2Proof/Machine/Noise.lean ====
section
/-! DEFINITION. The noise generator, spec/40_noise.md. -/

namespace Sys2Proof.Machine

/-- `LfsrStep()`: one right shift of the Galois register with feedback mask `taps` (R112). -/
def lfsrStep (taps x : BitVec 32) : BitVec 32 := if x.getLsbD 0 then (x >>> 1) ^^^ taps else x >>> 1

/-- `repeat n times: LfsrStep()`. -/
def lfsrSteps (taps : BitVec 32) : Nat → BitVec 32 → BitVec 32
  | 0, x => x
  | n + 1, x => lfsrSteps taps n (lfsrStep taps x)

/-- The register after one `NoiseNext()` (R113). -/
def noiseAdvance (p : Params) (x : BitVec 32) : BitVec 32 := lfsrSteps p.noiseTaps p.noiseSteps x

/-- The value `NoiseNext()` returns, from the register after its shifts: `(lfsr[23:0] - 2^23) / 2^23` (R113). -/
def noiseValue (x : BitVec 32) : F := F.div (F.ofInt (((slice x 0 24).toNat : Int) - 8388608)) f2p23

/-- `NoiseReset()` (R111). -/
def noiseReset (s : State) : State := { s with lfsr := s.params.noiseSeed }

/-- The state after `NoiseNext()`. -/
def noiseNext (s : State) : State := { s with lfsr := noiseAdvance s.params s.lfsr }

end Sys2Proof.Machine
end

