-- ==== Sys2Proof/Machine/Smoother.lean ====
section
/-! DEFINITION. The two smoothers, R204 to R206. -/

namespace Sys2Proof.Machine

/-- `SmSetTarget(sm, t)`, `n` being `SMOOTH_N` (R204). `F(SMOOTH_N)` is exact below 2^24 (R11). From 2^24 on, which the ranges of R7 and R14
allow and R11 does not foresee, it is the nearest `F` value: DESIGN CHOICE, unsafe there, log entry 26. -/
def smSetTarget (n : Nat) (sm : Smoother) (t : F) : Smoother :=
  if n = 0 then { cur := t, tgt := t, step := F.zero, cnt := 0 }
  else { cur := sm.cur, tgt := t, step := F.div (F.sub t sm.cur) (F.ofNat n), cnt := n }

/-- `SmNext(sm)`; the value it returns is the `cur` of the result (R205). -/
def smNext (sm : Smoother) : Smoother :=
  if 0 < sm.cnt then
    { sm with cnt := sm.cnt - 1, cur := if sm.cnt - 1 = 0 then sm.tgt else F.add sm.cur sm.step }
  else sm

/-- `SmSnap(sm)` (R206). -/
def smSnap (sm : Smoother) : Smoother := { sm with cur := sm.tgt, step := F.zero, cnt := 0 }

end Sys2Proof.Machine
end

