-- ==== Sys2Proof/Machine/Render.lean ====
section
/-! DEFINITION. The parts of `RENDER`: the configuration latch (R203), one frame with its mixer and stores (R202, R209 to R212), the
frames of a block, and the end-of-block sweep (R213). -/

namespace Sys2Proof.Machine

/-- The configuration latch: the one atomic test-and-clear (R76, R203). -/
def latch (s : State) : State :=
  if s.dirty then
    { s with
      dirty := false
      cfg := s.sh
      outLevel := smSetTarget s.params.smoothN s.outLevel (s.shReg .outputLevel)
      oscMix := smSetTarget s.params.smoothN s.oscMix (s.shReg .oscMix) }
  else s

/-- The noise sample of a frame, after the draw: `NoiseNext() * CFG[NOISE_MIX]` (R209). -/
def frameNoise (s : State) : F := F.mul (noiseValue s.lfsr) (s.cfgReg .noiseMix)

/-- A voice after its part of a frame: rendered when active (R202 (4), R211). -/
def voiceFrame (s : State) (noise mix : F) (v : Voice) : Voice :=
  if v.active then (voiceRender s.params s.nyqVal noise mix v).voice else v

/-- The accumulators after one voice: its sample weighted by its pan coefficients, left and right (R211). -/
def mixVoice (s : State) (noise mix : F) (acc : F × F) (v : Voice) : F × F :=
  if v.active then
    let o := (voiceRender s.params s.nyqVal noise mix v).sample
    (F.add acc.1 (F.mul o v.panLeft), F.add acc.2 (F.mul o v.panRight))
  else acc

/-- The accumulators after all voices, in index order from `+0` (R211). -/
def mixAll (s : State) (noise mix : F) : F × F := s.voices.toList.foldl (mixVoice s noise mix) (F.zero, F.zero)

/-- Whether a voice raises `HarmClip` in a frame (R142). -/
def voiceClips (s : State) (noise mix : F) (v : Voice) : Bool := v.active && (voiceRender s.params s.nyqVal noise mix v).clip

/-- The voices' part of a frame on the state: every active voice rendered, `HarmClip` raised if any of them raised it. -/
def renderVoices (s : State) (noise mix : F) : State :=
  if s.voices.toList.any (voiceClips s noise mix) then (s.mapVoices (voiceFrame s noise mix)).raise .harmClip
  else s.mapVoices (voiceFrame s noise mix)

/-- The stores of a frame: mono for `chan = 1`, stereo for every other value, left first (R212). -/
def storeFrame (chan : BitVec 8) (k : Nat) (outL outR : F) (s : State) : State :=
  if chan = 1#8 then s.storeL k (F.mul (F.add outL outR) f0_5) else (s.storeL k outL).storeR k outR

/-- Steps (1) to (3) of a frame: the LFO, the noise draw and the oscillator-mix smoother (R202). -/
def frameInputs (s : State) : State :=
  let s1 := noiseNext (lfoDecimate s)
  { s1 with oscMix := smNext s1.oscMix }

/-- Steps (4) to (6) of a frame: the voices, the output-level smoother and the stores (R202). -/
def frameOutputs (chan : BitVec 8) (k : Nat) (s : State) : State :=
  let acc := mixAll s (frameNoise s) s.oscMix.cur
  let s1 := renderVoices s (frameNoise s) s.oscMix.cur
  let s2 := { s1 with outLevel := smNext s1.outLevel }
  storeFrame chan k (F.mul acc.1 s2.outLevel.cur) (F.mul acc.2 s2.outLevel.cur) s2

/-- One frame, stored at frame index `k` (R202). -/
def frame (chan : BitVec 8) (k : Nat) (s : State) : State := frameOutputs chan k (frameInputs s)

/-- `n` frames, the first at frame index `k` (R202, R73). -/
def frames (chan : BitVec 8) : Nat → Nat → State → State
  | _, 0, s => s
  | k, n + 1, s => frames chan (k + 1) n (frame chan k s)

/-- What the end-of-block sweep does to one voice (R213). -/
def voiceSweep (p : Params) (v : Voice) : Voice := if v.active then v else voiceReset p v

/-- The end-of-block sweep (R213). -/
def sweep (s : State) : State := s.mapVoices (voiceSweep s.params)

/-- A whole block: latch, frames, sweep (R200). -/
def renderBlock (off cnt : Nat) (chan : BitVec 8) (s : State) : State := sweep (frames chan off cnt (latch s))

end Sys2Proof.Machine
end

