-- ==== Sys2Proof/Machine/Commands.lean ====
section
/-! DEFINITION. The meanings of `NOP`, `PWRITE`, `ALLOC`, `RESET`, `RENDER` (spec/45_synth_commands.md) and of an illegal opcode (R94). -/

namespace Sys2Proof.Machine

/-- `NOP` (R190). -/
def execNop (s : State) : Result := .next (commandPortOnly s State.advance)

/-- The test of `ALLOC`: the rate is finite and greater than zero (R196). -/
def rateOk (rate : F) : Bool := F.gt rate F.zero && F.lt rate F.inf

/-- The effect of a successful `ALLOC` (R196). -/
def allocate (rate : F) (s : State) : State :=
  { s.mapVoices (voicePrepare s.params rate) with fs := some rate, nyq := some (F.div rate f2), allocated := true }

/-- `ALLOC rate, hint` (R196); `hint` is ignored (R197). -/
def execAlloc (_hint : BitVec 24) (rate : F) (s : State) : Result :=
  .next (commandPortOnly s fun s => if rateOk rate then (allocate rate s).advance else s.abort .badSampleRate)

/-- The effect of `RESET` (R198). -/
def resetSynth (s : State) : State :=
  { noiseReset (s.mapVoices (voiceReset s.params)) with
    pitchBend := f1
    sustain := false
    modWheel := F.zero
    pressure := F.zero
    filterCtl := F.zero
    filterZip := F.zero
    resonanceCtl := f1
    vibratoMod := f1
    lfo := F.zero
    lfoStep := 0
    outLevel := smSnap s.outLevel
    oscMix := smSnap s.oscMix }

/-- `RESET` (R198). -/
def execReset (s : State) : Result := .next (commandPortOnly s fun s => (resetSynth s).advance)

/-- The second abort check of `RENDER`: `off + cnt > OBUF_DEPTH` (R201). -/
def renderChecked (off cnt : BitVec 24) (chan : BitVec 8) (s : State) : State :=
  if s.params.obufDepth < renderEnd off cnt then s.abort .obufRange
  else (renderBlock off.toNat cnt.toNat chan s).advance

/-- `RENDER off, cnt, chan` (R200, R201). -/
def execRender (off cnt : BitVec 24) (chan : BitVec 8) (s : State) : Result :=
  .next (commandPortOnly s fun s => whenAllocated s (renderChecked off cnt chan))

/-- `SH[idx] <- value; DIRTY <- 1`, one indivisible step (R70, R192). -/
def writeShadow (i : Fin numCfg) (value : F) (s : State) : State := { s with sh := s.sh.set i.val value i.isLt, dirty := true }

/-- `PWRITE idx, value`, on either port (R192). -/
def execPwrite (idx : BitVec 8) (value : F) (s : State) : Result :=
  .next (if h : idx.toNat < numCfg then (writeShadow ⟨idx.toNat, h⟩ value s).advance else s.abort .badParamIndex)

/-- A word with `op >= 0x06`: `IllegalCommand` on either port (R94, R191). -/
def execIllegal (_op : BitVec 8) (s : State) : Result := .next (s.abort .illegalCommand)

end Sys2Proof.Machine
end

