-- ==== Sys2Proof/Machine/Midi.lean ====
section
/-! DEFINITION. The `MIDI` command and voice allocation, spec/46_midi_and_allocation.md: the operations, and one meaning for each of the
eleven rows the command decodes to. -/

namespace Sys2Proof.Machine

/-- What every `MIDI` word does around its operation: the port check (R191), then `NotAllocated` (R230), then the operation. -/
def midiCommand (s : State) (k : State → State) : Result :=
  .next (commandPortOnly s fun s => whenAllocated s fun s => (k s).advance)

/-! ## Voice allocation (R241 to R243) -/

/-- The combined test of the first scan (R241). -/
def takesNote (n : Int) (v : Voice) : Bool := !v.active || v.note == n

/-- The stealing score `F(velocity) * env.level` (R242). -/
def stealScore (v : Voice) : F := F.mul (f7 v.velocity) v.env.level

/-- One step of the second scan: a voice not in attack with a strictly lower score is the new best (R241). -/
def stealStep (s : State) (best : Fin numVoices × F) (i : Fin numVoices) : Fin numVoices × F :=
  if inAttack (s.voice i).env then best
  else if F.lt (stealScore (s.voice i)) best.2 then (i, stealScore (s.voice i)) else best

/-- The second scan, from voice 0 and `+infinity` (R241, R243). -/
def stealVoice (s : State) : Fin numVoices := (voiceIndices.foldl (stealStep s) (0, F.inf)).1

/-- `FindVoice(n)` (R241). -/
def findVoice (s : State) (n : Int) : Fin numVoices :=
  match voiceIndices.find? fun i => takesNote n (s.voice i) with
  | some i => i
  | none => stealVoice s

/-! ## Note-on (R240) -/

/-- The equal-tempered frequency `440 * POW2((F(n - 69) + TUNE) / 12)` (R244). -/
def noteFrequency (num : NumSel) (n : Int) (tune : F) : F :=
  F.mul a4Hz (POW2 num (F.div (F.add (F.ofInt (n - a4Note)) tune) semis))

/-- The base cutoff `(frequency / PI) * EXP(VEL_SENS * F(vel - 64))` (R244). -/
def baseCutoff (num : NumSel) (frequency velSens : F) (vel : BitVec 7) : F :=
  F.mul (F.div frequency pi) (EXP num (F.mul velSens (F.ofInt ((vel.toNat : Int) - velCentre))))

/-- The voice that takes the note: the lines of R240 in their order. -/
def triggerVoice (s : State) (n vel : BitVec 7) (v : Voice) : Voice :=
  let f := noteFrequency s.params.num n.toNat (s.cfgReg .tune)
  let v1 := { v with note := n.toNat, velocity := vel, frequency := f, cutoff := baseCutoff s.params.num f (s.cfgReg .velSens) vel }
  let v2 := updatePanning s.params v1
  let v3 := { v2 with oscA := { v2.oscA with amp := ampOfVel s.params vel } }
  let v4 := updatePitch s v3
  let e := envPrime v4.env (s.cfgReg .envAttack) (s.cfgReg .envDecay) (s.cfgReg .envSustain) (s.cfgReg .envRelease)
  let fe := envPrime v4.fenv (s.cfgReg .fenvAttack) (s.cfgReg .fenvDecay) (s.cfgReg .fenvSustain) (s.cfgReg .fenvRelease)
  { v4 with env := envAttack e, fenv := envAttack fe }

/-- `NoteOn(n, vel)` (R240). -/
def noteOn (n vel : BitVec 7) (s : State) : State :=
  s.setVoice (findVoice s n.toNat) (triggerVoice s n vel (s.voice (findVoice s n.toNat)))

/-! ## Note-off and the pedal (R248, R255) -/

/-- What a note-off of `n` does to one voice (R248). -/
def voiceNoteOff (sustain : Bool) (n : Int) (v : Voice) : Voice :=
  if v.note = n then (if sustain then { v with note := noteHeld } else { voiceRelease v with note := noteFree }) else v

/-- `NoteOff(n)`: every voice that holds the note (R248). -/
def noteOff (n : BitVec 7) (s : State) : State := s.mapVoices (voiceNoteOff s.sustain n.toNat)

/-- What the pedal's release does to one voice (R255). -/
def voicePedalUp (v : Voice) : Voice := if v.note = noteHeld then { voiceRelease v with note := noteFree } else v

/-- The sustain controller (R255). -/
def sustainPedal (d2 : BitVec 7) (s : State) : State :=
  if pedalOn ≤ d2.toNat then { s with sustain := true } else { s.mapVoices voicePedalUp with sustain := false }

/-- The all-notes-off family (R259). -/
def allNotesOff (s : State) : State := { s.mapVoices (voiceReset s.params) with sustain := false }

/-! ## Controller curves -/

/-- `MODWHEEL_K * F(v * v)` (R254). -/
def modWheelCurve (p : Params) (v : BitVec 7) : F := F.mul p.modwheelK (f7sq v)
/-- `154.0 / F(154 - v)` (R256). -/
def resonanceCurve (v : BitVec 7) : F := F.div resoNum (F.ofInt (resoInt - v.toNat))
/-- `FCTL_UP_K * F(v)` (R257). -/
def filterUpCurve (p : Params) (v : BitVec 7) : F := F.mul p.fctlUpK (f7 v)
/-- `-(FCTL_DN_K * F(v))` (R258). -/
def filterDownCurve (p : Params) (v : BitVec 7) : F := F.neg (F.mul p.fctlDnK (f7 v))
/-- `PRESSURE_K * F(v * v)` (R260). -/
def pressureCurve (p : Params) (v : BitVec 7) : F := F.mul p.pressureK (f7sq v)
/-- `EXP(PB_K * F(bend - 8192))` (R261). -/
def bendCurve (p : Params) (bend : Nat) : F := EXP p.num (F.mul p.pbK (F.ofInt ((bend : Int) - bendCentre)))

/-! ## The meanings -/

/-- `MIDI.NOTE_OFF`: the release velocity is ignored (R231). -/
def execMidiNoteOff (note _vel : BitVec 7) (s : State) : Result := midiCommand s (noteOff note)

/-- `MIDI.NOTE_ON`: velocity 0 is a note-off (R232). -/
def execMidiNoteOn (note vel : BitVec 7) (s : State) : Result :=
  midiCommand s (if vel = 0#7 then noteOff note else noteOn note vel)

/-- `MIDI.CC_MODWHEEL` (R254). -/
def execMidiCcModwheel (v : BitVec 7) (s : State) : Result :=
  midiCommand s fun s => { s with modWheel := modWheelCurve s.params v }

/-- `MIDI.CC_SUSTAIN` (R255). -/
def execMidiCcSustain (v : BitVec 7) (s : State) : Result := midiCommand s (sustainPedal v)

/-- `MIDI.CC_RESONANCE` (R256). -/
def execMidiCcResonance (v : BitVec 7) (s : State) : Result := midiCommand s fun s => { s with resonanceCtl := resonanceCurve v }

/-- `MIDI.CC_FILTER_UP` (R257). -/
def execMidiCcFilterUp (v : BitVec 7) (s : State) : Result :=
  midiCommand s fun s => { s with filterCtl := filterUpCurve s.params v }

/-- `MIDI.CC_FILTER_DOWN` (R258). -/
def execMidiCcFilterDown (v : BitVec 7) (s : State) : Result :=
  midiCommand s fun s => { s with filterCtl := filterDownCurve s.params v }

/-- `MIDI.CC_ALL_OFF`: the controller number within the family and the value are not consulted (R259). -/
def execMidiCcAllOff (_ctl _v : BitVec 7) (s : State) : Result := midiCommand s allNotesOff

/-- `MIDI.PRESSURE` (R260). -/
def execMidiPressure (v : BitVec 7) (s : State) : Result :=
  midiCommand s fun s => { s with pressure := pressureCurve s.params v }

/-- `MIDI.PITCH_BEND` (R261). -/
def execMidiPitchBend (d1 d2 : BitVec 7) (s : State) : Result :=
  midiCommand s fun s => { s with pitchBend := bendCurve s.params (bendValue d1 d2) }

/-- `MIDI.IGNORED`: retires with no effect (R262). -/
def execMidiIgnored (s : State) : Result := midiCommand s fun s => s

end Sys2Proof.Machine
end

