-- ==== Sys2Proof/Machine/Dispatch.lean ====
section
/-! DEFINITION. The meaning of every instruction, one arm per constructor. -/

namespace Sys2Proof.Machine

def exec (i : Instr) (s : State) : Host.Outcome State Fault Refusal :=
  match i with
  | .nop => Sys2Proof.Machine.execNop s
  | .alloc hint rate => Sys2Proof.Machine.execAlloc hint rate s
  | .reset => Sys2Proof.Machine.execReset s
  | .render off cnt chan => Sys2Proof.Machine.execRender off cnt chan s
  | .midiNoteOff note vel => Sys2Proof.Machine.execMidiNoteOff note vel s
  | .midiNoteOn note vel => Sys2Proof.Machine.execMidiNoteOn note vel s
  | .midiCcModwheel v => Sys2Proof.Machine.execMidiCcModwheel v s
  | .midiCcSustain v => Sys2Proof.Machine.execMidiCcSustain v s
  | .midiCcResonance v => Sys2Proof.Machine.execMidiCcResonance v s
  | .midiCcFilterUp v => Sys2Proof.Machine.execMidiCcFilterUp v s
  | .midiCcFilterDown v => Sys2Proof.Machine.execMidiCcFilterDown v s
  | .midiCcAllOff ctl v => Sys2Proof.Machine.execMidiCcAllOff ctl v s
  | .midiPressure v => Sys2Proof.Machine.execMidiPressure v s
  | .midiPitchBend d1 d2 => Sys2Proof.Machine.execMidiPitchBend d1 d2 s
  | .midiIgnored => Sys2Proof.Machine.execMidiIgnored s
  | .pwrite idx value => Sys2Proof.Machine.execPwrite idx value s
  | .illegal op => Sys2Proof.Machine.execIllegal op s

end Sys2Proof.Machine
end

