-- ==== Sys2Proof/Machine/Step.lean ====
section
/-! DEFINITION. One step of the block with its host: the next transfer, and the whole command it starts (R61, R74). -/

namespace Sys2Proof.Machine

/-- One step: the block idles, is reset, or executes the word that transfers (R61, R62, R284, R290). -/
def step (s : State) : Host.Outcome State Fault Refusal :=
  match s.transfer with
  | .idle => .next s.idle
  | .rst => .next (hardwareReset s)
  | .word p w => exec (decode w) (s.accept p)

/-- `s` with the word of an instruction presented next on the command port: the word at index `cp` of the command-port sequence, and the
command port the next to transfer. The host presents its words to the block, which fetches nothing (R28, R77; log entry 21). -/
def State.withFetchWord (s : State) (nbits w : Nat) : State :=
  { s with cmdWords := placeWord (tableWord nbits w) s.cmdWords s.cp, sched := .cmd :: s.sched }

/-- A run's start (R300): hardware reset of a block with parameters `p`, then the command-port program, the parameter-port program and
their interleaving. -/
def State.start (p : Params) (cmdWords parWords : List Word) (sched : List HostAct) : State :=
  { State.resetWith p with cmdWords := cmdWords, parWords := parWords, sched := sched }

end Sys2Proof.Machine
end

