-- ==== Sys2Proof/Laws/Bits.lean ====
section
/-! SUPPORT. Concatenation and slices of bit vectors as arithmetic on naturals. -/

namespace Sys2Proof

/-- Concatenation as arithmetic (R9). -/
theorem append_toNat {m n : Nat} (a : BitVec m) (b : BitVec n) : (a ++ b).toNat = a.toNat * 2 ^ n + b.toNat := by
  rw [BitVec.toNat_append, ← Nat.shiftLeft_add_eq_or_of_lt b.isLt, Nat.shiftLeft_eq]

/-- A slice as arithmetic (R9). -/
theorem slice_toNat {m : Nat} (w : BitVec m) (lo n : Nat) : (slice w lo n).toNat = w.toNat / 2 ^ lo % 2 ^ n := by
  simp [slice, BitVec.extractLsb'_toNat, Nat.shiftRight_eq_div_pow]

/-- The slice inside the low part of a concatenation. -/
theorem slice_append_low {m n : Nat} (a : BitVec m) (b : BitVec n) (lo k : Nat) (h : lo + k ≤ n) :
    slice (a ++ b) lo k = slice b lo k := by
  apply BitVec.eq_of_toNat_eq
  rw [slice_toNat, slice_toNat, append_toNat]
  obtain ⟨d, rfl⟩ := Nat.exists_eq_add_of_le h
  rw [show a.toNat * 2 ^ (lo + k + d) = 2 ^ lo * (2 ^ k * (2 ^ d * a.toNat)) by rw [Nat.pow_add, Nat.pow_add]; ring,
    Nat.mul_add_div (Nat.two_pow_pos lo), Nat.mul_add_mod]

/-- The slice inside the high part of a concatenation. -/
theorem slice_append_high {m n : Nat} (a : BitVec m) (b : BitVec n) (lo k : Nat) :
    slice (a ++ b) (n + lo) k = slice a lo k := by
  apply BitVec.eq_of_toNat_eq
  rw [slice_toNat, slice_toNat, append_toNat, Nat.pow_add, ← Nat.div_div_eq_div_mul, Nat.mul_comm, Nat.mul_add_div (Nat.two_pow_pos n),
    Nat.div_eq_of_lt b.isLt, Nat.add_zero]

/-- The whole of a bit vector as a slice. -/
@[simp] theorem slice_self {n : Nat} (a : BitVec n) : slice a 0 n = a := by
  apply BitVec.eq_of_toNat_eq
  rw [slice_toNat, Nat.pow_zero, Nat.div_one, Nat.mod_eq_of_lt a.isLt]

/-- A slice of a slice. -/
theorem slice_slice {m : Nat} (w : BitVec m) (lo n lo' k : Nat) (h : lo' + k ≤ n) :
    slice (slice w lo n) lo' k = slice w (lo + lo') k := by
  apply BitVec.eq_of_toNat_eq
  rw [slice_toNat, slice_toNat, slice_toNat, Nat.pow_add, ← Nat.div_div_eq_div_mul]
  obtain ⟨d, rfl⟩ := Nat.exists_eq_add_of_le h
  rw [Nat.pow_add, Nat.pow_add, Nat.mul_assoc, Nat.mod_mul_right_div_self, Nat.mod_mul_right_mod]

end Sys2Proof
end

