-- ==== Sys2Proof/Laws/Encoding.lean ====
section
/-! SUPPORT. The fields of an encoded word, format by format, and the decoder on each opcode. -/

namespace Sys2Proof

/-! ## Formats -/

theorem op_encodeZ (op : BitVec 8) : (encodeZ op).op = op := by
  apply BitVec.eq_of_toNat_eq
  have hop := op.isLt
  simp only [encodeZ, Word.op, slice_toNat, append_toNat, BitVec.toNat_ofNat]
  omega

theorem op_encodeA (op : BitVec 8) (hint : BitVec 24) (rate : F) : (encodeA op hint rate).op = op := by
  apply BitVec.eq_of_toNat_eq
  have hop := op.isLt
  have hhint := hint.isLt
  have hrate := rate.isLt
  simp only [encodeA, Word.op, slice_toNat, append_toNat]
  omega
theorem hint_encodeA (op : BitVec 8) (hint : BitVec 24) (rate : F) : (encodeA op hint rate).hint = hint := by
  apply BitVec.eq_of_toNat_eq
  have hop := op.isLt
  have hhint := hint.isLt
  have hrate := rate.isLt
  simp only [encodeA, Word.hint, slice_toNat, append_toNat]
  omega
theorem rate_encodeA (op : BitVec 8) (hint : BitVec 24) (rate : F) : (encodeA op hint rate).rate = rate := by
  apply BitVec.eq_of_toNat_eq
  have hop := op.isLt
  have hhint := hint.isLt
  have hrate := rate.isLt
  simp only [encodeA, Word.rate, slice_toNat, append_toNat]
  omega

theorem op_encodeR (op : BitVec 8) (off cnt : BitVec 24) (chan : BitVec 8) : (encodeR op off cnt chan).op = op := by
  apply BitVec.eq_of_toNat_eq
  have hop := op.isLt
  have hoff := off.isLt
  have hcnt := cnt.isLt
  have hchan := chan.isLt
  simp only [encodeR, Word.op, slice_toNat, append_toNat]
  omega
theorem off_encodeR (op : BitVec 8) (off cnt : BitVec 24) (chan : BitVec 8) : (encodeR op off cnt chan).off = off := by
  apply BitVec.eq_of_toNat_eq
  have hop := op.isLt
  have hoff := off.isLt
  have hcnt := cnt.isLt
  have hchan := chan.isLt
  simp only [encodeR, Word.off, slice_toNat, append_toNat]
  omega
theorem cnt_encodeR (op : BitVec 8) (off cnt : BitVec 24) (chan : BitVec 8) : (encodeR op off cnt chan).cnt = cnt := by
  apply BitVec.eq_of_toNat_eq
  have hop := op.isLt
  have hoff := off.isLt
  have hcnt := cnt.isLt
  have hchan := chan.isLt
  simp only [encodeR, Word.cnt, slice_toNat, append_toNat]
  omega
theorem chan_encodeR (op : BitVec 8) (off cnt : BitVec 24) (chan : BitVec 8) : (encodeR op off cnt chan).chan = chan := by
  apply BitVec.eq_of_toNat_eq
  have hop := op.isLt
  have hoff := off.isLt
  have hcnt := cnt.isLt
  have hchan := chan.isLt
  simp only [encodeR, Word.chan, slice_toNat, append_toNat]
  omega

theorem op_encodeP (op : BitVec 8) (idx : BitVec 8) (value : F) : (encodeP op idx value).op = op := by
  apply BitVec.eq_of_toNat_eq
  have hop := op.isLt
  have hidx := idx.isLt
  have hvalue := value.isLt
  simp only [encodeP, Word.op, slice_toNat, append_toNat, BitVec.toNat_ofNat]
  omega
theorem idx_encodeP (op : BitVec 8) (idx : BitVec 8) (value : F) : (encodeP op idx value).idx = idx := by
  apply BitVec.eq_of_toNat_eq
  have hop := op.isLt
  have hidx := idx.isLt
  have hvalue := value.isLt
  simp only [encodeP, Word.idx, slice_toNat, append_toNat, BitVec.toNat_ofNat]
  omega
theorem value_encodeP (op : BitVec 8) (idx : BitVec 8) (value : F) : (encodeP op idx value).value = value := by
  apply BitVec.eq_of_toNat_eq
  have hop := op.isLt
  have hidx := idx.isLt
  have hvalue := value.isLt
  simp only [encodeP, Word.value, slice_toNat, append_toNat, BitVec.toNat_ofNat]
  omega

theorem op_encodeM (op : BitVec 8) (len : BitVec 2) (status data1 data2 : BitVec 8) :
    (encodeM op len status data1 data2).op = op := by
  apply BitVec.eq_of_toNat_eq
  have hop := op.isLt
  have hlen := len.isLt
  have hstatus := status.isLt
  have hdata1 := data1.isLt
  have hdata2 := data2.isLt
  simp only [encodeM, Word.op, slice_toNat, append_toNat, BitVec.toNat_ofNat]
  omega
theorem len_encodeM (op : BitVec 8) (len : BitVec 2) (status data1 data2 : BitVec 8) :
    (encodeM op len status data1 data2).len = len := by
  apply BitVec.eq_of_toNat_eq
  have hop := op.isLt
  have hlen := len.isLt
  have hstatus := status.isLt
  have hdata1 := data1.isLt
  have hdata2 := data2.isLt
  simp only [encodeM, Word.len, slice_toNat, append_toNat, BitVec.toNat_ofNat]
  omega
theorem status_encodeM (op : BitVec 8) (len : BitVec 2) (status data1 data2 : BitVec 8) :
    (encodeM op len status data1 data2).status = status := by
  apply BitVec.eq_of_toNat_eq
  have hop := op.isLt
  have hlen := len.isLt
  have hstatus := status.isLt
  have hdata1 := data1.isLt
  have hdata2 := data2.isLt
  simp only [encodeM, Word.status, slice_toNat, append_toNat, BitVec.toNat_ofNat]
  omega
theorem data1_encodeM (op : BitVec 8) (len : BitVec 2) (status data1 data2 : BitVec 8) :
    (encodeM op len status data1 data2).data1 = data1 := by
  apply BitVec.eq_of_toNat_eq
  have hop := op.isLt
  have hlen := len.isLt
  have hstatus := status.isLt
  have hdata1 := data1.isLt
  have hdata2 := data2.isLt
  simp only [encodeM, Word.data1, slice_toNat, append_toNat, BitVec.toNat_ofNat]
  omega
theorem data2_encodeM (op : BitVec 8) (len : BitVec 2) (status data1 data2 : BitVec 8) :
    (encodeM op len status data1 data2).data2 = data2 := by
  apply BitVec.eq_of_toNat_eq
  have hop := op.isLt
  have hlen := len.isLt
  have hstatus := status.isLt
  have hdata1 := data1.isLt
  have hdata2 := data2.isLt
  simp only [encodeM, Word.data2, slice_toNat, append_toNat, BitVec.toNat_ofNat]
  omega

/-! ## The decoder on each opcode -/

theorem decode_nop {w : Word} (h : w.op = 0x00#8) : decode w = .nop := by simp [decode, h]
theorem decode_alloc {w : Word} (h : w.op = 0x01#8) : decode w = .alloc w.hint w.rate := by simp [decode, h]
theorem decode_reset {w : Word} (h : w.op = 0x02#8) : decode w = .reset := by simp [decode, h]
theorem decode_render {w : Word} (h : w.op = 0x03#8) : decode w = .render w.off w.cnt w.chan := by simp [decode, h]
theorem decode_midi {w : Word} (h : w.op = 0x04#8) : decode w = decodeMidi w.kind w.d1 w.d2 := by simp [decode, h]
theorem decode_pwrite {w : Word} (h : w.op = 0x05#8) : decode w = .pwrite w.idx w.value := by simp [decode, h]

theorem decode_illegal {w : Word} (h : illegalMin.toNat ≤ w.op.toNat) : decode w = .illegal w.op := by
  have hk : ∀ k : BitVec 8, k.toNat < illegalMin.toNat → w.op ≠ k := fun k hk e => by
    rw [e] at h; exact absurd (Nat.lt_of_lt_of_le hk h) (Nat.lt_irrefl _)
  simp [decode, hk 0x00#8 (by decide), hk 0x01#8 (by decide), hk 0x02#8 (by decide), hk 0x03#8 (by decide), hk 0x04#8 (by decide),
    hk 0x05#8 (by decide)]

/-! ## MIDI messages -/

theorem dataByte_low (d : BitVec 7) : slice (dataByte d) 0 7 = d := by
  apply BitVec.eq_of_toNat_eq
  have hd := d.isLt
  simp only [dataByte, slice_toNat, append_toNat, BitVec.toNat_ofNat]
  omega

/-- A whole three-byte message. -/
theorem decode_midi3 (status data1 data2 : BitVec 8) :
    decode (encodeMidi 3#2 status data1 data2) = decodeMidi (slice status 4 4) (slice data1 0 7) (slice data2 0 7) := by
  rw [decode_midi (by simp [encodeMidi, op_encodeM])]
  simp [encodeMidi, Word.kind, Word.d1, Word.d2, Word.statusN, Word.d1raw, Word.d2raw, len_encodeM, status_encodeM, data1_encodeM,
    data2_encodeM]

/-- A two-byte message: the second data byte reads as zero (R84). -/
theorem decode_midi2 (status data1 data2 : BitVec 8) :
    decode (encodeMidi 2#2 status data1 data2) = decodeMidi (slice status 4 4) (slice data1 0 7) 0#7 := by
  rw [decode_midi (by simp [encodeMidi, op_encodeM])]
  simp [encodeMidi, Word.kind, Word.d1, Word.d2, Word.statusN, Word.d1raw, Word.d2raw, len_encodeM, status_encodeM, data1_encodeM]
  rfl

end Sys2Proof
end

