-- ==== Sys2Proof/Laws/PerInstr.lean ====
section
/-! SUPPORT. The round trip of encoder and decoder, one lemma per constructor of `Instr`. -/

namespace Sys2Proof.Laws.RoundTrip

open Sys2Proof

/-- Decoding the encoding of a well-formed instruction gives the instruction back (R80 to R93). -/
def Statement (i : Instr) : Prop := i.wf = true → decode (encode i) = i

theorem nop : Statement .nop := fun _ => decode_nop (op_encodeZ _)

theorem alloc (hint : BitVec 24) (rate : F) : Statement (.alloc hint rate) := fun _ => by
  rw [encode, decode_alloc (op_encodeA _ _ _), hint_encodeA, rate_encodeA]

theorem reset : Statement .reset := fun _ => decode_reset (op_encodeZ _)

theorem render (off cnt : BitVec 24) (chan : BitVec 8) : Statement (.render off cnt chan) := fun _ => by
  rw [encode, decode_render (op_encodeR _ _ _ _), off_encodeR, cnt_encodeR, chan_encodeR]

theorem midiNoteOff (note vel : BitVec 7) : Statement (.midiNoteOff note vel) := fun _ => by
  rw [encode, decode_midi3, dataByte_low, dataByte_low]; rfl

theorem midiNoteOn (note vel : BitVec 7) : Statement (.midiNoteOn note vel) := fun _ => by
  rw [encode, decode_midi3, dataByte_low, dataByte_low]; rfl

theorem midiCcModwheel (v : BitVec 7) : Statement (.midiCcModwheel v) := fun _ => by
  rw [encode, decode_midi3, dataByte_low]; rfl

theorem midiCcSustain (v : BitVec 7) : Statement (.midiCcSustain v) := fun _ => by
  rw [encode, decode_midi3, dataByte_low]; rfl

theorem midiCcResonance (v : BitVec 7) : Statement (.midiCcResonance v) := fun _ => by
  rw [encode, decode_midi3, dataByte_low]; rfl

theorem midiCcFilterUp (v : BitVec 7) : Statement (.midiCcFilterUp v) := fun _ => by
  rw [encode, decode_midi3, dataByte_low]; rfl

theorem midiCcFilterDown (v : BitVec 7) : Statement (.midiCcFilterDown v) := fun _ => by
  rw [encode, decode_midi3, dataByte_low]; rfl

theorem midiCcAllOff (ctl v : BitVec 7) : Statement (.midiCcAllOff ctl v) := fun h => by
  have hc : ccAllOffMin.toNat ≤ ctl.toNat := by simpa [Instr.wf] using h
  have hk : ∀ k : BitVec 7, k.toNat < ccAllOffMin.toNat → ctl ≠ k := fun k hk e => by
    rw [e] at hc; exact absurd (Nat.lt_of_lt_of_le hk hc) (Nat.lt_irrefl _)
  rw [encode, decode_midi3, dataByte_low, dataByte_low]
  show decodeControl ctl v = _
  simp [decodeControl, hc, hk 0x01#7 (by decide), hk 0x40#7 (by decide), hk 0x47#7 (by decide), hk 0x4A#7 (by decide),
    hk 0x4B#7 (by decide)]

theorem midiPressure (v : BitVec 7) : Statement (.midiPressure v) := fun _ => by
  rw [encode, decode_midi2, dataByte_low]; rfl

theorem midiPitchBend (d1 d2 : BitVec 7) : Statement (.midiPitchBend d1 d2) := fun _ => by
  rw [encode, decode_midi3, dataByte_low, dataByte_low]; rfl

theorem midiIgnored : Statement .midiIgnored := fun _ => by decide

theorem pwrite (idx : BitVec 8) (value : F) : Statement (.pwrite idx value) := fun _ => by
  rw [encode, decode_pwrite (op_encodeP _ _ _), idx_encodeP, value_encodeP]

theorem illegal (op : BitVec 8) : Statement (.illegal op) := fun h => by
  have ho : illegalMin.toNat ≤ (encodeZ op).op.toNat := by rw [op_encodeZ]; simpa [Instr.wf] using h
  rw [encode, decode_illegal ho, op_encodeZ]

end Sys2Proof.Laws.RoundTrip
end

