-- ==== Sys2Proof/Safety.lean ====
section
/-! DEFINITION. The terms claims use: the parameters an implementation may have (R7), the invariant of the registers (R55), the reset
voice (R180, R301), runs and their end (R272, R300), and the ranges of `F` values the rules speak of. -/

namespace Sys2Proof

/-- The instructions the `MIDI` command decodes to (R93). -/
def Instr.isMidi : Instr → Bool
  | .midiNoteOff _ _ | .midiNoteOn _ _ | .midiCcModwheel _ | .midiCcSustain _ | .midiCcResonance _ | .midiCcFilterUp _
  | .midiCcFilterDown _ | .midiCcAllOff _ _ | .midiPressure _ | .midiPitchBend _ _ | .midiIgnored => true
  | .nop | .alloc _ _ | .reset | .render _ _ _ | .pwrite _ _ | .illegal _ => false

/-- The parameters an implementation may have: the ranges of R7; `LFO_MAX` and `SMOOTH_N` within the widths of R14 (DEDUCED, log entry 16);
a feedback mask with its top bit set, without which the register could shift down to 0 (R48, R112; DEDUCED, log entry 17); and harmonic
indices that convert exactly, up to `HARM_MAX + 1` (R11, R142; DEDUCED, log entry 18). -/
structure Params.Ok (p : Params) : Prop where
  lfoMaxLow : 1 ≤ p.lfoMax
  lfoMaxHigh : p.lfoMax < 2 ^ 15
  smoothN : p.smoothN < 2 ^ 32
  harmMaxLow : 1 ≤ p.harmMax
  harmMaxHigh : p.harmMax + 1 < 2 ^ 24
  obufLow : 1 ≤ p.obufDepth
  obufHigh : p.obufDepth ≤ 2 ^ 24
  noiseSeed : p.noiseSeed ≠ 0#32
  noiseTaps : p.noiseTaps.msb = true
  noiseSteps : 1 ≤ p.noiseSteps

/-- `lo <= x <= hi` on `F` values (R13). -/
def F.within (lo x hi : F) : Prop := F.le lo x = true ∧ F.le x hi = true

/-- `0 <= x < 1`, the range of a phase (R46, R139). -/
def F.phaseRange (x : F) : Prop := F.le F.zero x = true ∧ F.lt x f1 = true

end Sys2Proof

namespace Sys2Proof.Machine

/-- An output buffer in canonical form with nothing outside its `OBUF_DEPTH` elements (R63). -/
structure BufferOk (depth : Nat) (m : Memory) : Prop where
  wf : Memory.wf m
  inside : ∀ c ∈ m, c.1 < 4 * depth

/-- The invariant of the registers: the parameters an implementation may have (log entries 16 to 18), R55 (2) to (5), the values of `FS` and
`NYQ` (R36, R273), and the output buffers. -/
structure State.Inv (s : State) : Prop where
  params : s.params.Ok
  lfsr : s.lfsr ≠ 0#32
  outLevelCnt : s.outLevel.cnt ≤ s.params.smoothN
  oscMixCnt : s.oscMix.cnt ≤ s.params.smoothN
  lfoStepLow : -1 ≤ s.lfoStep
  lfoStepHigh : s.lfoStep ≤ s.params.lfoMax
  noteLow : ∀ i, -1 ≤ (s.voice i).note
  noteHigh : ∀ i, (s.voice i).note ≤ 127
  rateSet : s.allocated = true → ∃ r, s.fs = some r ∧ s.nyq = some (F.div r f2) ∧ rateOk r = true
  rateUnset : s.allocated = false → s.fs = none ∧ s.nyq = none
  bufL : BufferOk s.params.obufDepth s.obufL
  bufR : BufferOk s.params.obufDepth s.obufR

/-- An envelope after `EnvReset` (R124). -/
def Env.isReset (e : Env) : Prop := e.level = F.zero ∧ e.target = F.zero ∧ e.coef = F.zero

/-- The `VoiceReset` state (R180): every field as the reset leaves it, and the last call on the filter instance a `reset`. -/
structure Voice.IsReset (p : Params) (v : Voice) : Prop where
  note : v.note = noteFree
  velocity : v.velocity = 0#7
  frequency : v.frequency = F.zero
  cutoff : v.cutoff = F.zero
  filterMod : v.filterMod = F.zero
  panLeft : v.panLeft = panCentreValue p
  panRight : v.panRight = panCentreValue p
  oscA : v.oscA = Osc.zero
  oscB : v.oscB = Osc.zero
  env : v.env.isReset
  fenv : v.fenv.isReset
  flt : ∃ st, v.flt = fltReset p.flt st

/-- What the invariant of R27 and R301 asks of an inactive voice's phases and levels, whatever note-offs of the corner R247 have done to
its note code and coefficients. -/
structure Voice.Clean (v : Voice) : Prop where
  phaseA : v.oscA.phase = F.zero
  phaseB : v.oscB.phase = F.zero
  level : v.env.level = F.zero
  flevel : v.fenv.level = F.zero

/-- The voice invariant of R27 at command boundaries (R301): an inactive voice is a clean one. -/
def State.InactiveClean (s : State) : Prop := ∀ i, (s.voice i).active = false → (s.voice i).Clean

/-- No voice is active. -/
def State.AllInactive (s : State) : Prop := ∀ i, (s.voice i).active = false

/-- Every voice is active. -/
def State.AllActive (s : State) : Prop := ∀ i, (s.voice i).active = true

/-- "No fault recorded", the premise R272 names. -/
def State.FaultFree (s : State) : Prop := s.fault = FaultBits.none

/-- A run has ended: each pointer is past its port's last word, `busy` being low between commands (R300). -/
def State.Ended (s : State) : Prop := s.cp = s.cmdWords.length ∧ s.pp = s.parWords.length

end Sys2Proof.Machine
end

