-- ==== Sys2Proof/Certificates/Slice0/Obligations.lean ====
section
/-! DEFINITION. The statements about the block, for the provers. Each docstring names the rules of spec/ it formalises. -/

open Sys2Proof Sys2Proof.Machine

/-! ## Encoding -/

/-- O1. No bit of an encoding is dropped: decoding the word of a well-formed instruction gives the instruction (R80 to R93). -/
def Obligations.EncodeThenDecode : Prop := ∀ i : Instr, i.wf = true → decode (encode i) = i

/-- O2. The decoder is total and gives only well-formed instructions (R87, R93, R94). -/
def Obligations.DecodedWordsAreWellFormed : Prop := ∀ w : Word, (decode w).wf = true

/-- O3. Reserved bits of a legal command are ignored (R94 (d)): bits 55:0 of format Z, 55:26 of format M, 55:40 of format P. -/
def Obligations.ReservedBitsIgnored : Prop :=
  ∀ w w' : Word, w.op = w'.op →
    ((w.op = 0x00#8 ∨ w.op = 0x02#8) → decode w = decode w') ∧
    (w.op = 0x04#8 → (slice w 0 26 : BitVec 26) = slice w' 0 26 → decode w = decode w') ∧
    (w.op = 0x05#8 → (slice w 0 40 : BitVec 40) = slice w' 0 40 → decode w = decode w')

/-- O4. MIDI byte normalisation (R84): a byte that `len` does not cover reads as zero, and `len = 0` is ignored. -/
def Obligations.AbsentMidiBytesReadAsZero : Prop :=
  ∀ w : Word, w.op = 0x04#8 →
    decode w = decode (encodeMidi 3#2 (if 1 ≤ w.len.toNat then w.status else 0#8) (if 2 ≤ w.len.toNat then w.data1 else 0#8)
      (if 3 ≤ w.len.toNat then w.data2 else 0#8)) ∧
    (w.len = 0#2 → decode w = .midiIgnored)

/-- O5. Data bytes are 7-bit (R91): bit 7 of each is discarded. The channel nibble is ignored as well. -/
def Obligations.DataBytesAreSevenBits : Prop :=
  (∀ b1 b2 : BitVec 8, decode (encodeMidi 3#2 0x80#8 b1 b2) = .midiNoteOff (slice b1 0 7) (slice b2 0 7)) ∧
  (∀ w w' : Word, w.op = 0x04#8 → w'.op = 0x04#8 → w.len = w'.len →
    (slice w.status 4 4 : BitVec 4) = slice w'.status 4 4 → (slice w.data1 0 7 : BitVec 7) = slice w'.data1 0 7 →
    (slice w.data2 0 7 : BitVec 7) = slice w'.data2 0 7 → decode w = decode w')

/-- O6. The worked encodings of R100, in both directions. -/
def Obligations.WorkedEncodings : Prop :=
  F.ofNat 48000 = 0x473B8000#32 ∧
  (encode (.alloc 0#24 0x473B8000#32) = 0x01000000473B8000#64 ∧ decode 0x01000000473B8000#64 = .alloc 0#24 0x473B8000#32) ∧
  (encode .reset = 0x0200000000000000#64 ∧ decode 0x0200000000000000#64 = .reset) ∧
  (encode (.render 0#24 4#24 2#8) = 0x0300000000000402#64 ∧ decode 0x0300000000000402#64 = .render 0#24 4#24 2#8) ∧
  (encode (.render 256#24 64#24 1#8) = 0x0300010000004001#64 ∧ decode 0x0300010000004001#64 = .render 256#24 64#24 1#8) ∧
  (encode (.midiNoteOn 69#7 100#7) = 0x0400000003904564#64 ∧ decode 0x0400000003904564#64 = .midiNoteOn 69#7 100#7) ∧
  (encode (.midiNoteOff 69#7 0#7) = 0x0400000003804500#64 ∧ decode 0x0400000003804500#64 = .midiNoteOff 69#7 0#7) ∧
  (encode (.midiCcSustain 127#7) = 0x0400000003B0407F#64 ∧ decode 0x0400000003B0407F#64 = .midiCcSustain 127#7) ∧
  (encode (.midiPitchBend 0#7 64#7) = 0x0400000003E00040#64 ∧ decode 0x0400000003E00040#64 = .midiPitchBend 0#7 64#7) ∧
  (encode (.midiPressure 64#7) = 0x0400000002D04000#64 ∧ decode 0x0400000002D04000#64 = .midiPressure 64#7) ∧
  (encode (.pwrite 14#8 0x3F800000#32) = 0x0500000E3F800000#64 ∧ decode 0x0500000E3F800000#64 = .pwrite 14#8 0x3F800000#32) ∧
  (encode .nop = 0x0000000000000000#64 ∧ decode 0x0000000000000000#64 = .nop)

/-- O7. The opcode map of R87, with the operands at the bit positions of R81 and the reserved opcodes of R94 (a). -/
def Obligations.OpcodeMap : Prop :=
  ∀ w : Word,
    ((slice w 56 8 : BitVec 8) = 0x00#8 → decode w = .nop) ∧
    ((slice w 56 8 : BitVec 8) = 0x01#8 → decode w = .alloc (slice w 32 24) (slice w 0 32)) ∧
    ((slice w 56 8 : BitVec 8) = 0x02#8 → decode w = .reset) ∧
    ((slice w 56 8 : BitVec 8) = 0x03#8 → decode w = .render (slice w 32 24) (slice w 8 24) (slice w 0 8)) ∧
    ((slice w 56 8 : BitVec 8) = 0x04#8 → (decode w).isMidi = true) ∧
    ((slice w 56 8 : BitVec 8) = 0x05#8 → decode w = .pwrite (slice w 32 8) (slice w 0 32)) ∧
    (6 ≤ (slice w 56 8 : BitVec 8).toNat → decode w = .illegal (slice w 56 8))

/-- O8. The table of R93, on the normalised and masked message of a `MIDI` word. -/
def Obligations.MidiTable : Prop :=
  ∀ w : Word, w.op = 0x04#8 →
    (w.kind = 0x8#4 → decode w = .midiNoteOff w.d1 w.d2) ∧
    (w.kind = 0x9#4 → decode w = .midiNoteOn w.d1 w.d2) ∧
    (w.kind = 0xB#4 → w.d1 = 0x01#7 → decode w = .midiCcModwheel w.d2) ∧
    (w.kind = 0xB#4 → w.d1 = 0x40#7 → decode w = .midiCcSustain w.d2) ∧
    (w.kind = 0xB#4 → w.d1 = 0x47#7 → decode w = .midiCcResonance w.d2) ∧
    (w.kind = 0xB#4 → w.d1 = 0x4A#7 → decode w = .midiCcFilterUp w.d2) ∧
    (w.kind = 0xB#4 → w.d1 = 0x4B#7 → decode w = .midiCcFilterDown w.d2) ∧
    (w.kind = 0xB#4 → 0x78 ≤ w.d1.toNat → decode w = .midiCcAllOff w.d1 w.d2) ∧
    (w.kind = 0xD#4 → decode w = .midiPressure w.d1) ∧
    (w.kind = 0xE#4 → decode w = .midiPitchBend w.d1 w.d2) ∧
    (w.kind ≠ 0x8#4 → w.kind ≠ 0x9#4 → w.kind ≠ 0xD#4 → w.kind ≠ 0xE#4 →
      (w.kind = 0xB#4 → w.d1 ≠ 0x01#7 ∧ w.d1 ≠ 0x40#7 ∧ w.d1 ≠ 0x47#7 ∧ w.d1 ≠ 0x4A#7 ∧ w.d1 ≠ 0x4B#7 ∧ w.d1.toNat < 0x78) →
      decode w = .midiIgnored)

/-! ## Steps -/

/-- O9. A step executes the word that transfers (R28, R61, R62): the command port's word at `cp` or the parameter port's word at `pp`.
Which port comes next where the interleaving names an empty one, or has run out, is the model's choice (log entry 10). With no word on
either port the block idles (R284). -/
def Obligations.StepRunsTransferredWord : Prop :=
  ∀ (s : State) (w : Word) (rest : List HostAct),
    (s.sched = .cmd :: rest → s.cmdWords[s.cp]? = some w →
      step s = exec (decode w) { s with port := .cmd, sched := rest }) ∧
    (s.sched = .par :: rest → s.parWords[s.pp]? = some w →
      step s = exec (decode w) { s with port := .par, sched := rest }) ∧
    (s.sched = [] → s.cmdWords[s.cp]? = some w → step s = exec (decode w) { s with port := .cmd, sched := [] }) ∧
    (s.sched = .cmd :: rest → s.cmdWords[s.cp]? = none → s.parWords[s.pp]? = some w →
      step s = exec (decode w) { s with port := .par, sched := rest }) ∧
    (s.sched = .par :: rest → s.parWords[s.pp]? = none → s.cmdWords[s.cp]? = some w →
      step s = exec (decode w) { s with port := .cmd, sched := rest }) ∧
    (s.sched = [] → s.cmdWords[s.cp]? = none → s.parWords[s.pp]? = some w →
      step s = exec (decode w) { s with port := .par, sched := [] }) ∧
    (s.sched.head? ≠ some .rst → s.cmdWords[s.cp]? = none → s.parWords[s.pp]? = none →
      step s = .next { s with sched := s.sched.tail })

/-- O10. The "hardware reset" column of R54 and R290. What it leaves in the model's own fields (the port, the streams, the interleaving and
the parameters) is the model's choice (log entries 13 and 14). -/
def Obligations.HardwareReset : Prop :=
  (∀ p : Params, State.resetWith p =
    { voices := Vector.replicate 16
        { note := 0, velocity := 0#7, frequency := F.zero, cutoff := F.zero, filterMod := F.zero,
          panLeft := SIN p.num piOver4, panRight := SIN p.num piOver4,
          oscA := { freq := F.zero, phase := F.zero, inc := F.zero, amp := F.zero },
          oscB := { freq := F.zero, phase := F.zero, inc := F.zero, amp := F.zero },
          env := { level := F.zero, target := F.zero, coef := F.zero, a := F.zero, d := F.zero, s := F.zero, r := F.zero },
          fenv := { level := F.zero, target := F.zero, coef := F.zero, a := F.zero, d := F.zero, s := F.zero, r := F.zero },
          flt := { calls := [] } },
      lfsr := p.noiseSeed, pitchBend := f1, modWheel := F.zero, pressure := F.zero, filterCtl := F.zero, resonanceCtl := f1,
      filterZip := F.zero, vibratoMod := f1, lfo := F.zero, lfoStep := 0, sustain := false,
      outLevel := { cur := F.zero, tgt := F.zero, step := F.zero, cnt := 0 },
      oscMix := { cur := F.zero, tgt := F.zero, step := F.zero, cnt := 0 },
      sh := Vector.replicate 20 F.zero, cfg := Vector.replicate 20 F.zero, dirty := false, allocated := false, fs := none, nyq := none,
      fault := ⟨false, false, false, false, false, false⟩,
      cp := 0, pp := 0, obufL := [], obufR := [], port := .cmd, cmdWords := [], parWords := [], sched := [], params := p }) ∧
  State.reset = State.resetWith Params.default ∧
  (∀ (s : State) (rest : List HostAct), s.sched = .rst :: rest →
    step s = .next { State.resetWith s.params with cmdWords := s.cmdWords, parWords := s.parWords, sched := rest })

/-- O11. The port check of R191, before every other check, and the illegal opcode as a constructor. -/
def Obligations.PortCheck : Prop :=
  (∀ (s : State) (w : Word), s.port = .par → w.op ≠ 0x05#8 →
    exec (decode w) s = .next { s with fault := { s.fault with illegalCommand := true }, pp := s.pp + 1 }) ∧
  (∀ (s : State) (w : Word), s.port = .cmd → 0x06 ≤ w.op.toNat →
    exec (decode w) s = .next { s with fault := { s.fault with illegalCommand := true }, cp := s.cp + 1 }) ∧
  (∀ (s : State) (op : BitVec 8),
    (s.port = .cmd → exec (.illegal op) s = .next { s with fault := { s.fault with illegalCommand := true }, cp := s.cp + 1 }) ∧
    (s.port = .par → exec (.illegal op) s = .next { s with fault := { s.fault with illegalCommand := true }, pp := s.pp + 1 }))

/-- O12. Every command, retired or aborted, advances the pointer of its port by one and does nothing else to either pointer (R28). -/
def Obligations.EveryCommandAdvancesOnePointer : Prop :=
  ∀ (i : Instr) (s : State), ∃ t, exec i s = .next t ∧
    (s.port = .cmd → t.cp = s.cp + 1 ∧ t.pp = s.pp) ∧ (s.port = .par → t.cp = s.cp ∧ t.pp = s.pp + 1)

/-- O13. A run always ends (R300): after as many steps as the two ports have words left, each pointer is past its last word. That exactly
so many steps do, with no idle step between, rests on the model's choice to take the other port's word where the interleaving names an empty
port (log entry 10). -/
def Obligations.RunEnds : Prop :=
  ∀ s : State, HostAct.rst ∉ s.sched → s.cp ≤ s.cmdWords.length → s.pp ≤ s.parWords.length →
    ∃ t : State, Sys2Proof.core.run ((s.cmdWords.length - s.cp) + (s.parWords.length - s.pp)) s = .next t ∧
      t.Ended ∧ t.cmdWords = s.cmdWords ∧ t.parWords = s.parWords

/-- O14. Fault bits are sticky: a step that is no hardware reset clears none, and a hardware reset clears all (R32, R55 (7), R277). -/
def Obligations.FaultBitsAreSticky : Prop :=
  (∀ (s t : State) (k : FaultCode), step s = .next t → s.transfer ≠ .rst → s.fault.bit k = true → t.fault.bit k = true) ∧
  (∀ (s t : State) (k : FaultCode), step s = .next t → s.transfer = .rst → t.fault.bit k = false)

/-- O15. The fault bits are read by no rule (R277): what a command does to the rest of the state does not depend on them. -/
def Obligations.FaultBitsAreReadByNoRule : Prop :=
  ∀ (i : Instr) (s : State) (f : FaultBits), ∃ (t : State) (g : FaultBits),
    exec i s = .next t ∧ exec i { s with fault := f } = .next { t with fault := g }

/-- O16. Aborting faults are precise (R271, R276): a command that sets an aborting bit changes nothing else but its pointer. -/
def Obligations.AbortChangesOnlyItsBit : Prop :=
  ∀ (i : Instr) (s t : State) (k : FaultCode), exec i s = .next t → k.aborting = true → s.fault.bit k = false → t.fault.bit k = true →
    t = match s.port with
      | .cmd => { s with fault := s.fault.raise k, cp := s.cp + 1 }
      | .par => { s with fault := s.fault.raise k, pp := s.pp + 1 }

/-- O17. Who writes what: the commands that can change each piece of state (R20, R30, R31, R34, R36 to R48, R63), all others leaving it. -/
def Obligations.WhoWritesWhat : Prop :=
  ∀ (i : Instr) (s t : State), exec i s = .next t →
    (t.sh ≠ s.sh → ∃ idx value, i = .pwrite idx value) ∧
    (t.dirty ≠ s.dirty → (∃ idx value, i = .pwrite idx value) ∨ ∃ off cnt chan, i = .render off cnt chan) ∧
    (t.cfg ≠ s.cfg ∨ t.obufL ≠ s.obufL ∨ t.obufR ≠ s.obufR → ∃ off cnt chan, i = .render off cnt chan) ∧
    (t.fs ≠ s.fs ∨ t.nyq ≠ s.nyq ∨ t.allocated ≠ s.allocated → ∃ hint rate, i = .alloc hint rate) ∧
    (t.lfsr ≠ s.lfsr ∨ t.lfo ≠ s.lfo ∨ t.lfoStep ≠ s.lfoStep ∨ t.vibratoMod ≠ s.vibratoMod ∨ t.filterZip ≠ s.filterZip ∨
      t.outLevel ≠ s.outLevel ∨ t.oscMix ≠ s.oscMix → i = .reset ∨ ∃ off cnt chan, i = .render off cnt chan) ∧
    (t.pitchBend ≠ s.pitchBend → i = .reset ∨ ∃ d1 d2, i = .midiPitchBend d1 d2) ∧
    (t.modWheel ≠ s.modWheel → i = .reset ∨ ∃ v, i = .midiCcModwheel v) ∧
    (t.pressure ≠ s.pressure → i = .reset ∨ ∃ v, i = .midiPressure v) ∧
    (t.filterCtl ≠ s.filterCtl → i = .reset ∨ ∃ v, i = .midiCcFilterUp v ∨ i = .midiCcFilterDown v) ∧
    (t.resonanceCtl ≠ s.resonanceCtl → i = .reset ∨ ∃ v, i = .midiCcResonance v) ∧
    (t.sustain ≠ s.sustain → i = .reset ∨ (∃ v, i = .midiCcSustain v) ∨ ∃ ctl v, i = .midiCcAllOff ctl v) ∧
    (t.voices ≠ s.voices → i = .reset ∨ (∃ hint rate, i = .alloc hint rate) ∨ (∃ off cnt chan, i = .render off cnt chan) ∨
      (∃ n v, i = .midiNoteOff n v ∨ i = .midiNoteOn n v) ∨ (∃ v, i = .midiCcSustain v) ∨ ∃ ctl v, i = .midiCcAllOff ctl v) ∧
    t.port = s.port ∧ t.cmdWords = s.cmdWords ∧ t.parWords = s.parWords ∧ t.sched = s.sched ∧ t.params = s.params

/-! ## Invariants -/

/-- O18. The invariants hold after hardware reset, whatever the programs, for every block with parameters that meet `Params.Ok`: the ranges
of R7, `LFO_MAX` and `SMOOTH_N` within the widths of R14 (log entry 16), a `NOISE_TAPS` with its top bit set, for which R7 gives no range
(log entry 17), and `HARM_MAX + 1 < 2^24` (log entry 18); the three entries are the model's inferences. `State.reset` has the default
parameters (log entry 6). -/
def Obligations.InvariantsAtReset : Prop :=
  State.reset.Inv ∧ State.reset.InactiveClean ∧
  ∀ (p : Params) (cmdWords parWords : List Word) (sched : List HostAct), p.Ok →
    (State.start p cmdWords parWords sched).Inv ∧ (State.start p cmdWords parWords sched).InactiveClean

/-- O19. Every step keeps R55 (2) to (5), the values of `FS` and `NYQ`, and the output buffers, canonical (log entry 9) and inside
`OBUF_DEPTH`. `State.Inv` holds `Params.Ok` too, and no step writes the parameters: that `lfsr` stays nonzero rests on its condition that
`NOISE_TAPS` has its top bit set, which is the model's inference (log entry 17), as are its bounds on `HARM_MAX` (log entry 18) and on
`LFO_MAX` and `SMOOTH_N` (R14, log entry 16). -/
def Obligations.StepKeepsInvariant : Prop := ∀ s t : State, s.Inv → step s = .next t → t.Inv

/-- O20. The voice invariant of R27 as R301 keeps it: after every command an inactive voice has zero phases and zero envelope levels. -/
def Obligations.StepKeepsInactiveVoicesClean : Prop := ∀ s t : State, s.InactiveClean → step s = .next t → t.InactiveClean

/-! ## NOP, PWRITE, ALLOC, RESET -/

/-- O21. `NOP` leaves every register but `cp` (R190), and so does a `MIDI` word that decodes to `MIDI.IGNORED` (R262). -/
def Obligations.NopAndIgnoredRetire : Prop :=
  ∀ s : State, s.port = .cmd → exec .nop s = .next { s with cp := s.cp + 1 } ∧
    (s.allocated = true → exec .midiIgnored s = .next { s with cp := s.cp + 1 })

/-- O22. `PWRITE` on either port, whatever `ALLOCATED` is (R192). -/
def Obligations.PwriteResult : Prop :=
  ∀ (idx : BitVec 8) (value : F) (s : State),
    (∀ h : idx.toNat < 20,
      (s.port = .cmd → exec (.pwrite idx value) s
        = .next { s with sh := s.sh.set idx.toNat value h, dirty := true, cp := s.cp + 1 }) ∧
      (s.port = .par → exec (.pwrite idx value) s
        = .next { s with sh := s.sh.set idx.toNat value h, dirty := true, pp := s.pp + 1 })) ∧
    (20 ≤ idx.toNat →
      (s.port = .cmd → exec (.pwrite idx value) s = .next { s with fault := { s.fault with badParamIndex := true }, cp := s.cp + 1 }) ∧
      (s.port = .par → exec (.pwrite idx value) s = .next { s with fault := { s.fault with badParamIndex := true }, pp := s.pp + 1 }))

/-- O23. `ALLOC` (R196), whatever `hint` (R197): a rate that is finite and greater than zero is taken, every other aborts. -/
def Obligations.AllocResult : Prop :=
  ∀ (hint : BitVec 24) (rate : F) (s : State), s.port = .cmd →
    (F.gt rate F.zero = true ∧ F.lt rate F.inf = true → exec (.alloc hint rate) s = .next
      { s with
        fs := some rate
        nyq := some (F.div rate f2)
        voices := vmap (fun v => { v with flt := fltCall s.params.flt v.flt (.prepare rate) }) s.voices
        allocated := true
        cp := s.cp + 1 }) ∧
    (¬ (F.gt rate F.zero = true ∧ F.lt rate F.inf = true) → exec (.alloc hint rate) s = .next
      { s with fault := { s.fault with badSampleRate := true }, cp := s.cp + 1 })

/-- O24. The rates `ALLOC` takes are the positive normal patterns: a NaN, a zero of either sign, a subnormal pattern, a negative value and
an infinity all fail (R196). -/
def Obligations.AllocTakesPositiveNormalRates : Prop :=
  ∀ rate : F, (F.gt rate F.zero = true ∧ F.lt rate F.inf = true) ↔ (0x00800000 ≤ rate.toNat ∧ rate.toNat < 0x7F800000)

/-- O25. `RESET` (R198) with the voice reset of R180 written out: everything it changes, and nothing else. -/
def Obligations.ResetResult : Prop :=
  ∀ s : State, s.port = .cmd → exec .reset s = .next
    { s with
      voices := vmap (fun v =>
        { note := 0, velocity := 0#7, frequency := F.zero, cutoff := F.zero, filterMod := F.zero,
          panLeft := SIN s.params.num piOver4, panRight := SIN s.params.num piOver4,
          oscA := { freq := F.zero, phase := F.zero, inc := F.zero, amp := F.zero },
          oscB := { freq := F.zero, phase := F.zero, inc := F.zero, amp := F.zero },
          env := { v.env with level := F.zero, target := F.zero, coef := F.zero },
          fenv := { v.fenv with level := F.zero, target := F.zero, coef := F.zero },
          flt := fltCall s.params.flt v.flt .reset }) s.voices
      lfsr := s.params.noiseSeed
      pitchBend := f1
      sustain := false
      modWheel := F.zero
      pressure := F.zero
      filterCtl := F.zero
      filterZip := F.zero
      resonanceCtl := f1
      vibratoMod := f1
      lfo := F.zero
      lfoStep := 0
      outLevel := { s.outLevel with cur := s.outLevel.tgt, step := F.zero, cnt := 0 }
      oscMix := { s.oscMix with cur := s.oscMix.tgt, step := F.zero, cnt := 0 }
      cp := s.cp + 1 }

/-! ## RENDER -/

/-- O26. The abort checks of `RENDER`, in their order (R201): when both fail only `NotAllocated` is raised, and a `RENDER` that ends at
`OBUF_DEPTH` or has no frames is legal. -/
def Obligations.RenderAborts : Prop :=
  ∀ (off cnt : BitVec 24) (chan : BitVec 8) (s : State), s.port = .cmd →
    (s.allocated = false → exec (.render off cnt chan) s
      = .next { s with fault := { s.fault with notAllocated := true }, cp := s.cp + 1 }) ∧
    (s.allocated = true → s.params.obufDepth < off.toNat + cnt.toNat → exec (.render off cnt chan) s
      = .next { s with fault := { s.fault with obufRange := true }, cp := s.cp + 1 }) ∧
    (s.allocated = true → off.toNat + cnt.toNat ≤ s.params.obufDepth → ∃ t, exec (.render off cnt chan) s = .next t ∧
      (t.fault = s.fault ∨ t.fault = { s.fault with harmClip := true }))

/-- O27. A `RENDER` that passed its checks is the configuration latch, its frames and the end-of-block sweep, in that order (R200), with
the latch (R203) and the sweep (R213) written out, and the frames as one frame of O29 after another, at rising frame index (R202, R73). -/
def Obligations.RenderIsLatchFramesSweep : Prop :=
  (∀ (chan : BitVec 8) (k n : Nat) (s : State),
    frames chan k 0 s = s ∧ frames chan k (n + 1) s = frames chan (k + 1) n (frame chan k s)) ∧
  ∀ (off cnt : BitVec 24) (chan : BitVec 8) (s u : State), s.port = .cmd → s.allocated = true →
    off.toNat + cnt.toNat ≤ s.params.obufDepth →
    u = frames chan off.toNat cnt.toNat
      (if s.dirty = true then
        { s with
          dirty := false
          cfg := s.sh
          outLevel := smSetTarget s.params.smoothN s.outLevel (s.sh.get 14)
          oscMix := smSetTarget s.params.smoothN s.oscMix (s.sh.get 12) }
      else s) →
    exec (.render off cnt chan) s = .next
      { u with
        voices := vmap (fun v => if F.gt v.env.level silence = true then v else voiceReset s.params v) u.voices
        cp := s.cp + 1 }

/-- O28. The frame of `RENDER`: what it advances once per frame, what it leaves alone, and the bytes it stores (R67, R71, R115, R205, R210,
R211 to R214). -/
def Obligations.RenderFrame : Prop :=
  ∀ (off cnt : BitVec 24) (chan : BitVec 8) (s : State), s.port = .cmd → s.allocated = true →
    off.toNat + cnt.toNat ≤ s.params.obufDepth → ∃ t, exec (.render off cnt chan) s = .next t ∧
      t.sh = s.sh ∧ t.cfg = (if s.dirty = true then s.sh else s.cfg) ∧ t.dirty = false ∧ t.allocated = s.allocated ∧ t.fs = s.fs ∧
      t.nyq = s.nyq ∧ t.pitchBend = s.pitchBend ∧ t.modWheel = s.modWheel ∧ t.pressure = s.pressure ∧ t.filterCtl = s.filterCtl ∧
      t.resonanceCtl = s.resonanceCtl ∧ t.sustain = s.sustain ∧ t.params = s.params ∧ t.cp = s.cp + 1 ∧ t.pp = s.pp ∧
      t.lfsr = (noiseAdvance s.params)^[cnt.toNat] s.lfsr ∧
      t.outLevel = smNext^[cnt.toNat]
        (if s.dirty = true then smSetTarget s.params.smoothN s.outLevel (s.sh.get 14) else s.outLevel) ∧
      t.oscMix = smNext^[cnt.toNat] (if s.dirty = true then smSetTarget s.params.smoothN s.oscMix (s.sh.get 12) else s.oscMix) ∧
      (∀ a, a < 4 * off.toNat ∨ 4 * (off.toNat + cnt.toNat) ≤ a →
        readByte a t.obufL = readByte a s.obufL ∧ readByte a t.obufR = readByte a s.obufR) ∧
      (chan = 1#8 → t.obufR = s.obufR) ∧
      (∀ k, off.toNat ≤ k → k < off.toNat + cnt.toNat →
        (readElem k t.obufL).isSome = true ∧ (chan ≠ 1#8 → (readElem k t.obufR).isSome = true)) ∧
      (∀ i, (s.voice i).active = false → t.voice i = voiceReset s.params (s.voice i)) ∧
      (cnt = 0#24 → t.obufL = s.obufL ∧ t.obufR = s.obufR ∧ t.lfoStep = s.lfoStep ∧ t.lfo = s.lfo ∧ t.vibratoMod = s.vibratoMod ∧
        t.filterZip = s.filterZip ∧ t.fault = s.fault)

/-- O29. One frame (R202): the tick, the noise draw, the mix, the voices in index order into both accumulators, the level and the stores,
and `HarmClip` when an active voice clips (R207, R209 to R212, R142). `nyqVal` is the register `NYQ` (R142, R273). A stored element is its
four bytes, little-endian, which read back as the element, and stores no other byte (R67). -/
def Obligations.FrameResult : Prop :=
  (∀ (k : Nat) (v : F) (m : Memory), readElem k (writeElem k v m) = some v ∧
    (∀ j, j < 4 → readByte (4 * k + j) (writeElem k v m) = some (slice v (8 * j) 8)) ∧
    (∀ a, a < 4 * k ∨ 4 * k + 4 ≤ a → readByte a (writeElem k v m) = readByte a m)) ∧
  (∀ (s : State) (r : F), s.nyq = some r → s.nyqVal = r) ∧
  ∀ (chan : BitVec 8) (k : Nat) (s a : State) (l : BitVec 32) (n : F) (mix g : Smoother) (acc : F × F) (outL outR : F),
    a = (if s.lfoStep - 1 ≤ 0 then lfoTick { s with lfoStep := s.params.lfoMax } else { s with lfoStep := s.lfoStep - 1 }) →
    l = (lfsrStep s.params.noiseTaps)^[s.params.noiseSteps] s.lfsr →
    n = F.mul (noiseValue l) (s.cfg.get 13) →
    mix = smNext s.oscMix →
    acc = a.voices.toList.foldl (fun acc v =>
      if F.gt v.env.level silence = true then
        (F.add acc.1 (F.mul (voiceRender s.params s.nyqVal n mix.cur v).sample v.panLeft),
          F.add acc.2 (F.mul (voiceRender s.params s.nyqVal n mix.cur v).sample v.panRight))
      else acc) (F.zero, F.zero) →
    g = smNext s.outLevel →
    outL = F.mul acc.1 g.cur →
    outR = F.mul acc.2 g.cur →
    (frame chan k s).obufL
      = (if chan = 1#8 then writeElem k (F.mul (F.add outL outR) f0_5) s.obufL else writeElem k outL s.obufL) ∧
    (frame chan k s).obufR = (if chan = 1#8 then s.obufR else writeElem k outR s.obufR) ∧
    (frame chan k s).voices = vmap (fun v =>
      if F.gt v.env.level silence = true then (voiceRender s.params s.nyqVal n mix.cur v).voice else v) a.voices ∧
    (frame chan k s).lfsr = l ∧ (frame chan k s).oscMix = mix ∧ (frame chan k s).outLevel = g ∧
    (frame chan k s).lfoStep = a.lfoStep ∧ (frame chan k s).lfo = a.lfo ∧ (frame chan k s).vibratoMod = a.vibratoMod ∧
    (frame chan k s).filterZip = a.filterZip ∧
    (frame chan k s).fault = (if a.voices.toList.any (fun v =>
        F.gt v.env.level silence && (voiceRender s.params s.nyqVal n mix.cur v).clip) = true
      then { s.fault with harmClip := true } else s.fault)

/-- O30. After any `RENDER` retires, every inactive voice is in the `VoiceReset` state (R55 (6), R213). -/
def Obligations.InactiveVoicesAreResetAfterRender : Prop :=
  ∀ (off cnt : BitVec 24) (chan : BitVec 8) (s t : State), s.port = .cmd → s.allocated = true →
    off.toNat + cnt.toNat ≤ s.params.obufDepth → exec (.render off cnt chan) s = .next t →
    ∀ i, (t.voice i).active = false → (t.voice i).IsReset s.params

/-- O31. Splitting a block (R214 (e)): with no voice inactive at the split, two `RENDER`s leave the state of one, one command later. -/
def Obligations.SplitRender : Prop :=
  ∀ (off a b : BitVec 24) (chan : BitVec 8) (s s1 s2 : State), s.port = .cmd → s.allocated = true →
    off.toNat + a.toNat + b.toNat ≤ s.params.obufDepth → off.toNat + a.toNat < 2 ^ 24 → a.toNat + b.toNat < 2 ^ 24 →
    exec (.render off a chan) s = .next s1 → s1.AllActive →
    exec (.render off (a + b) chan) s = .next s2 →
    exec (.render (off + a) b chan) s1 = .next { s2 with cp := s2.cp + 1 }

/-- O32. Silence after `RESET` (R199): `RESET` leaves no voice active, nothing but a note-on makes one active, and a `RENDER` then stores
`+0 * g` in every frame: a zero of the sign of `g` when `g` is finite, else a NaN. The noise generator still advances. -/
def Obligations.SilenceAfterReset : Prop :=
  (∀ s t : State, s.port = .cmd → exec .reset s = .next t → t.AllInactive) ∧
  (∀ (i : Instr) (s t : State), s.AllInactive → (∀ n v, i = .midiNoteOn n v → v = 0#7) → exec i s = .next t → t.AllInactive) ∧
  (∀ (off cnt : BitVec 24) (chan : BitVec 8) (s t : State), s.port = .cmd → s.allocated = true →
    off.toNat + cnt.toNat ≤ s.params.obufDepth → s.AllInactive → exec (.render off cnt chan) s = .next t →
    t.lfsr = (noiseAdvance s.params)^[cnt.toNat] s.lfsr ∧
    ∀ (j : Nat) (z : F), j < cnt.toNat → z = F.mul F.zero (smNext^[j + 1] (latch s).outLevel).cur →
      (chan ≠ 1#8 → readElem (off.toNat + j) t.obufL = some z ∧ readElem (off.toNat + j) t.obufR = some z) ∧
      (chan = 1#8 → readElem (off.toNat + j) t.obufL = some (F.mul (F.add z z) f0_5))) ∧
  (∀ g : F, (g.isFinite = true → F.mul F.zero g = F.zeroOf g.neg? ∧
      F.mul (F.add (F.mul F.zero g) (F.mul F.zero g)) f0_5 = F.zeroOf g.neg?) ∧
    (g.isFinite = false → F.mul F.zero g = F.nan))

/-- O33. No voice operation of a block reads or writes another voice (R170): what a `RENDER` makes of one slot does not depend on the
others. -/
def Obligations.VoicesDoNotInteract : Prop :=
  ∀ (chan : BitVec 8) (k n : Nat) (s : State) (vs : Vector Voice numVoices) (i : Fin numVoices), vs.get i = s.voice i →
    (sweep (frames chan k n { s with voices := vs })).voice i = (sweep (frames chan k n s)).voice i

/-! ## MIDI -/

/-- O34. Every kind of `MIDI` word aborts with `NotAllocated` while `ALLOCATED` is 0 (R230, R273). -/
def Obligations.MidiNeedsAllocation : Prop :=
  ∀ (i : Instr) (s : State), i.isMidi = true → s.port = .cmd → s.allocated = false →
    exec i s = .next { s with fault := { s.fault with notAllocated := true }, cp := s.cp + 1 }

/-- O35. Note-off (R248, by R231 and, with velocity 0, by R232): every voice that holds the note, by the pedal. -/
def Obligations.NoteOffResult : Prop :=
  ∀ (n vel : BitVec 7) (s t : State), s.port = .cmd → s.allocated = true →
    t = { s with
      voices := vmap (fun v =>
        if v.note = (n.toNat : Int) then
          (if s.sustain = true then { v with note := -1 }
          else { v with
            note := 0
            env := { v.env with target := F.zero, coef := v.env.r }
            fenv := { v.fenv with target := F.zero, coef := v.fenv.r } })
        else v) s.voices
      cp := s.cp + 1 } →
    exec (.midiNoteOff n vel) s = .next t ∧ exec (.midiNoteOn n 0#7) s = .next t

/-- O36. Note-on (R240, with R174, R178 and R244 to R246): the voice it takes, field by field, and nothing else; `fsVal` is the register
`FS` (R136, R273). -/
def Obligations.NoteOnResult : Prop :=
  ∀ (n vel : BitVec 7) (s : State) (i : Fin numVoices) (f ang fa fb : F), s.port = .cmd → s.allocated = true → vel ≠ 0#7 →
    i = findVoice s (n.toNat : Int) →
    f = F.mul a4Hz (POW2 s.params.num (F.div (F.add (F.ofInt ((n.toNat : Int) - 69)) (s.cfg.get 11)) semis)) →
    ang = F.mul piOver4 (F.add f1 (F.clamp (F.div (F.ofInt ((n.toNat : Int) - 60)) panDiv) panLimitNeg panLimit)) →
    fa = F.mul (F.mul f s.pitchBend) s.vibratoMod →
    fb = F.mul fa (s.cfg.get 10) →
    (∀ r, s.fs = some r → s.fsVal = r) ∧ exec (.midiNoteOn n vel) s = .next
      { s with
        voices := s.voices.set i.val
          { note := n.toNat
            velocity := vel
            frequency := f
            cutoff := F.mul (F.div f pi) (EXP s.params.num (F.mul (s.cfg.get 19) (F.ofInt ((vel.toNat : Int) - 64))))
            filterMod := (s.voice i).filterMod
            panLeft := COS s.params.num ang
            panRight := SIN s.params.num ang
            oscA := { freq := fa, phase := (s.voice i).oscA.phase, inc := F.div fa s.fsVal,
                      amp := s.params.ampOfVel.get ⟨vel.toNat, vel.isLt⟩ }
            oscB := { freq := fb, phase := (s.voice i).oscB.phase, inc := F.div fb s.fsVal, amp := (s.voice i).oscB.amp }
            env := { level := F.add (s.voice i).env.level attackBump, target := attackTarget, coef := s.cfg.get 0, a := s.cfg.get 0,
                     d := s.cfg.get 1, s := s.cfg.get 2, r := s.cfg.get 3 }
            fenv := { level := F.add (s.voice i).fenv.level attackBump, target := attackTarget, coef := s.cfg.get 4, a := s.cfg.get 4,
                      d := s.cfg.get 5, s := s.cfg.get 6, r := s.cfg.get 7 }
            flt := (s.voice i).flt } i.isLt
        cp := s.cp + 1 }

/-- O37. A note-on always takes a voice, which is then active with the note's number, and leaves every other voice (R240, R122). The
premise on inactive voices is the invariant of O20. -/
def Obligations.NoteOnAlwaysSounds : Prop :=
  ∀ (n vel : BitVec 7) (s : State), s.port = .cmd → s.allocated = true → s.InactiveClean → vel ≠ 0#7 →
    ∃ (t : State) (i : Fin numVoices), exec (.midiNoteOn n vel) s = .next t ∧ (t.voice i).note = (n.toNat : Int) ∧
      (t.voice i).active = true ∧ ∀ j, j ≠ i → t.voice j = s.voice j

/-- O38. `FindVoice` (R241 to R243): the lowest voice that is inactive or holds the note; else, among voices not in attack (R127: in
attack is a target of 2.0 or more), the lowest of those with the least score `velocity * level`; voice 0 where no voice is eligible with
a score below infinity. -/
def Obligations.FindVoiceRule : Prop :=
  ∀ (s : State) (n : Int) (score : Fin numVoices → F), (∀ i, score i = F.mul (F.ofNat (s.voice i).velocity.toNat) (s.voice i).env.level) →
    (∀ i, ((s.voice i).active = false ∨ (s.voice i).note = n) →
      (∀ j, j < i → (s.voice j).active = true ∧ (s.voice j).note ≠ n) → findVoice s n = i) ∧
    ((∀ i, (s.voice i).active = true ∧ (s.voice i).note ≠ n) →
      ((∃ i, F.ge (s.voice i).env.target 0x40000000#32 = false ∧ F.lt (score i) F.inf = true) →
        F.ge (s.voice (findVoice s n)).env.target 0x40000000#32 = false ∧ F.lt (score (findVoice s n)) F.inf = true ∧
        (∀ j, F.ge (s.voice j).env.target 0x40000000#32 = false → F.lt (score j) (score (findVoice s n)) = false) ∧
        (∀ j, j < findVoice s n → F.ge (s.voice j).env.target 0x40000000#32 = false → F.le (score j) (score (findVoice s n)) = false)) ∧
      ((∀ i, F.ge (s.voice i).env.target 0x40000000#32 = false → F.lt (score i) F.inf = false) → findVoice s n = 0))

/-- O39. The controllers that store a scalar and nothing else: the modulation wheel (R254), resonance (R256), the filter buttons (R257,
R258) and channel pressure (R260), with the examples of those rules under the default constants. -/
def Obligations.ControllersStoreTheirCurves : Prop :=
  (∀ (v : BitVec 7) (s : State), s.port = .cmd → s.allocated = true →
    exec (.midiCcModwheel v) s
      = .next { s with modWheel := F.mul s.params.modwheelK (F.ofNat (v.toNat * v.toNat)), cp := s.cp + 1 } ∧
    exec (.midiCcResonance v) s
      = .next { s with resonanceCtl := F.div 0x431A0000#32 (F.ofInt (154 - (v.toNat : Int))), cp := s.cp + 1 } ∧
    exec (.midiCcFilterUp v) s = .next { s with filterCtl := F.mul s.params.fctlUpK (F.ofNat v.toNat), cp := s.cp + 1 } ∧
    exec (.midiCcFilterDown v) s
      = .next { s with filterCtl := F.neg (F.mul s.params.fctlDnK (F.ofNat v.toNat)), cp := s.cp + 1 } ∧
    exec (.midiPressure v) s
      = .next { s with pressure := F.mul s.params.pressureK (F.ofNat (v.toNat * v.toNat)), cp := s.cp + 1 }) ∧
  F.mul Params.default.modwheelK (F.ofNat (127 * 127)) = 0x3DA52934#32 ∧ F.mul Params.default.modwheelK (F.ofNat 0) = F.zero ∧
  F.div 0x431A0000#32 (F.ofInt 154) = f1 ∧ F.div 0x431A0000#32 (F.ofInt 90) = 0x3FDB05B0#32 ∧
  F.div 0x431A0000#32 (F.ofInt 27) = 0x40B684BE#32 ∧
  F.mul Params.default.fctlUpK (F.ofNat 127) = 0x40228F5C#32 ∧
  F.neg (F.mul Params.default.fctlDnK (F.ofNat 127)) = 0xC073D70A#32 ∧ F.neg (F.mul Params.default.fctlDnK (F.ofNat 0)) = F.negZero ∧
  F.mul Params.default.pressureK (F.ofNat (64 * 64)) = 0x3ED1B717#32 ∧
  F.mul Params.default.pressureK (F.ofNat (127 * 127)) = 0x3FCE7382#32

/-- O40. Pitch bend (R261): `EXP(PB_K * F(bend - 8192))` with `bend = d1 + 128 * d2`; the centre gives 1.0 for every finite `PB_K` (log
entry 24); the two examples are under the reference numerics (log entry 4). And the named properties of R12 that the rules lean on, for
both numerics: `NUM.exp0`, `NUM.sin0` and `NUM.pow2int` (`toUnits` counts in units of 2^-149). -/
def Obligations.PitchBendResult : Prop :=
  (∀ (d1 d2 : BitVec 7) (s : State), s.port = .cmd → s.allocated = true →
    exec (.midiPitchBend d1 d2) s = .next
      { s with
        pitchBend := EXP s.params.num (F.mul s.params.pbK (F.ofInt (((d1.toNat + 128 * d2.toNat : Nat) : Int) - 8192)))
        cp := s.cp + 1 }) ∧
  (∀ (num : NumSel) (k : F), k.isFinite = true → EXP num (F.mul k (F.ofInt (8192 - 8192))) = f1) ∧
  (∀ num : NumSel, EXP num F.zero = f1 ∧ EXP num F.negZero = f1 ∧ SIN num F.zero = F.zero ∧
    (SIN num F.negZero = F.zero ∨ SIN num F.negZero = F.negZero) ∧
    ∀ k : Int, -126 ≤ k → k ≤ 127 →
      (POW2 num (F.ofInt k)).isFinite = true ∧ (POW2 num (F.ofInt k)).toUnits = 2 ^ (k + 149).toNat) ∧
  EXP .reference (F.mul Params.default.pbK (F.ofInt (16383 - 8192))) = 0x3F8FAC48#32 ∧
  EXP .reference (F.mul Params.default.pbK (F.ofInt (0 - 8192))) = 0x3F6411FE#32

/-- O41. The sustain controller (R255): the release sweep runs on every value below 64, on the pedal-held voices alone. -/
def Obligations.SustainResult : Prop :=
  ∀ (v : BitVec 7) (s : State), s.port = .cmd → s.allocated = true →
    (64 ≤ v.toNat → exec (.midiCcSustain v) s = .next { s with sustain := true, cp := s.cp + 1 }) ∧
    (v.toNat < 64 → exec (.midiCcSustain v) s = .next
      { s with
        sustain := false
        voices := vmap (fun w =>
          if w.note = -1 then
            { w with
              note := 0
              env := { w.env with target := F.zero, coef := w.env.r }
              fenv := { w.fenv with target := F.zero, coef := w.fenv.r } }
          else w) s.voices
        cp := s.cp + 1 })

/-- O42. The all-notes-off family (R259): every voice reset and the pedal up, whatever the controller number and value. -/
def Obligations.AllNotesOffResult : Prop :=
  ∀ (ctl v : BitVec 7) (s : State), s.port = .cmd → s.allocated = true →
    exec (.midiCcAllOff ctl v) s = .next
      { s with voices := vmap (voiceReset s.params) s.voices, sustain := false, cp := s.cp + 1 }

/-- O43. A note-off under the pedal does not release the voice, and the pedal's release then does (R248, R255, property T5). -/
def Obligations.PedalHoldsAndReleases : Prop :=
  ∀ (n vel v : BitVec 7) (s : State) (i : Fin numVoices), s.port = .cmd → s.allocated = true → s.sustain = true → v.toNat < 64 →
    (s.voice i).note = (n.toNat : Int) →
    ∃ t u : State, exec (.midiNoteOff n vel) s = .next t ∧ t.voice i = { s.voice i with note := -1 } ∧
      exec (.midiCcSustain v) t = .next u ∧ (u.voice i).note = 0 ∧
      (u.voice i).env = { (s.voice i).env with target := F.zero, coef := (s.voice i).env.r } ∧
      (u.voice i).fenv = { (s.voice i).fenv with target := F.zero, coef := (s.voice i).fenv.r } ∧ u.sustain = false

/-! ## The two ports -/

/-- O44. Whole commands of the two ports interleave (R74): a `PWRITE` on the parameter port commutes with every command that is no `RENDER`
and no `PWRITE` of the same index, and after its latch a block neither reads nor writes the shadow bank and `DIRTY`. -/
def Obligations.ParameterWritesCommute : Prop :=
  (∀ (i : Instr) (idx : BitVec 8) (value : F) (s t u : State), (∀ off cnt chan, i ≠ .render off cnt chan) →
    (∀ value', i ≠ .pwrite idx value') → exec (.pwrite idx value) { s with port := .par } = .next t → exec i { t with port := .cmd } = .next u →
    ∃ v, exec i { s with port := .cmd } = .next v ∧ exec (.pwrite idx value) { v with port := .par } = .next { u with port := .par }) ∧
  (∀ (chan : BitVec 8) (k n : Nat) (s : State) (sh : Vector F numCfg) (d : Bool),
    sweep (frames chan k n { s with sh := sh, dirty := d }) = { sweep (frames chan k n s) with sh := sh, dirty := d })

/-- O45. The boot sequence's last two commands (R291): after a `LATCH` with `DIRTY` set and a `RESET`, the active bank holds the host's
values, both smoothers stand at their targets with no ramp pending, and `DIRTY` is 0. -/
def Obligations.BootSequence : Prop :=
  ∀ s : State, s.port = .cmd → s.allocated = true → s.dirty = true →
    ∃ t u, exec (.render 0#24 0#24 2#8) s = .next t ∧ exec .reset t = .next u ∧
      u.cfg = s.sh ∧ u.sh = s.sh ∧ u.dirty = false ∧ u.allocated = true ∧ u.fs = s.fs ∧ u.nyq = s.nyq ∧ u.fault = s.fault ∧
      u.outLevel = { cur := s.sh.get 14, tgt := s.sh.get 14, step := F.zero, cnt := 0 } ∧
      u.oscMix = { cur := s.sh.get 12, tgt := s.sh.get 12, step := F.zero, cnt := 0 } ∧
      u.lfsr = s.params.noiseSeed ∧ u.lfoStep = 0 ∧ u.AllInactive ∧ u.obufL = s.obufL ∧ u.obufR = s.obufR

/-! ## The smoothers and the LFO -/

/-- O46. A ramp (R204, R205): it takes `SMOOTH_N` frames, ends exactly on its target whatever the rounding, and stays; with `SMOOTH_N = 0`
there is none. The step is `(t - cur) / F(SMOOTH_N)`, where `F(SMOOTH_N)` from 2^24 on is the model's choice (log entry 26). -/
def Obligations.RampEndsOnItsTarget : Prop :=
  (∀ (sm : Smoother) (t : F), smSetTarget 0 sm t = { cur := t, tgt := t, step := F.zero, cnt := 0 }) ∧
  (∀ (n : Nat) (sm : Smoother) (t : F), 1 ≤ n →
    (smSetTarget n sm t).cur = sm.cur ∧ (smSetTarget n sm t).step = F.div (F.sub t sm.cur) (F.ofNat n) ∧
    (∀ j, j < n → (smNext^[j] (smSetTarget n sm t)).cnt = n - j) ∧
    (∀ j, j + 1 < n → (smNext^[j + 1] (smSetTarget n sm t)).cur
      = F.add (smNext^[j] (smSetTarget n sm t)).cur (smSetTarget n sm t).step) ∧
    (∀ m, n ≤ m → (smNext^[m] (smSetTarget n sm t)).cur = t ∧ (smNext^[m] (smSetTarget n sm t)).cnt = 0))

/-- O47. From a reset counter a tick falls on frames 0, `LFO_MAX`, 2 `LFO_MAX`, … and on no other (R207): frame `n` ticks exactly when the
counter it finds steps to 0 or below. -/
def Obligations.TickEveryLfoMaxFrames : Prop :=
  ∀ (chan : BitVec 8) (k n : Nat) (s : State), s.lfoStep = 0 → 1 ≤ s.params.lfoMax →
    ((frames chan k n s).lfoStep - 1 ≤ 0 ↔ n % s.params.lfoMax = 0)

/-- O48. A tick (R208), with `UpdatePitch` (R178) and `VoiceUpdateLFO` (R176) written out for the active voices; `fsVal` is the register
`FS` (R136, R273). -/
def Obligations.LfoTickResult : Prop :=
  ∀ (s : State) (lfo sine vib zip : F),
    lfo = (if F.gt (F.add s.lfo (s.cfg.get 8)) pi = true then F.sub (F.add s.lfo (s.cfg.get 8)) twoPi else F.add s.lfo (s.cfg.get 8)) →
    sine = SIN s.params.num lfo →
    vib = F.add f1 (F.mul sine (F.add s.modWheel (s.cfg.get 9))) →
    zip = F.add s.filterZip (F.mul fzipCoef (F.sub
      (F.add (F.add (s.cfg.get 15) s.filterCtl) (F.mul (F.add (s.cfg.get 16) s.pressure) sine)) s.filterZip)) →
    (∀ r, s.fs = some r → s.fsVal = r) ∧ lfoTick s = { s with
      lfo := lfo
      vibratoMod := vib
      filterZip := zip
      voices := vmap (fun v =>
        if F.gt v.env.level silence = true then
          { v with
            filterMod := zip
            oscA := { v.oscA with
              freq := F.mul (F.mul v.frequency s.pitchBend) vib
              inc := F.div (F.mul (F.mul v.frequency s.pitchBend) vib) s.fsVal }
            oscB := { v.oscB with
              freq := F.mul (F.mul (F.mul v.frequency s.pitchBend) vib) (s.cfg.get 10)
              inc := F.div (F.mul (F.mul (F.mul v.frequency s.pitchBend) vib) (s.cfg.get 10)) s.fsVal }
            fenv := envNext v.fenv
            flt := fltCall s.params.flt v.flt (.update
              (F.clamp (F.div (F.mul v.cutoff (EXP s.params.num (F.add zip (F.mul (s.cfg.get 17) (envNext v.fenv).level)))) s.pitchBend)
                cutoffMin cutoffMax)
              (F.clamp (F.div (F.mul (s.cfg.get 18) s.resonanceCtl) resDiv) F.zero f1)) }
        else v) s.voices }

/-- O49. What a tick passes to the filter primitive (R158, R163): one `update` call with a cutoff in [20, 20000] Hz and a resonance in
[0, 1], or a NaN, to each active voice's instance, and nothing to an inactive one's; with the state a call leaves (R156 by the call history,
log entry 5, and R164's fixture) and the request and answer it is on the filter port (R165). -/
def Obligations.FilterUpdatesAreClamped : Prop :=
  (∀ (s : State) (i : Fin numVoices),
    ((s.voice i).active = true → ∃ cutoff res,
      ((lfoTick s).voice i).flt = fltCall s.params.flt (s.voice i).flt (.update cutoff res) ∧
      (cutoff.isNaN = true ∨ F.within 0x41A00000#32 cutoff 0x469C4000#32) ∧ (res.isNaN = true ∨ F.within F.zero res f1)) ∧
    ((s.voice i).active = false → (lfoTick s).voice i = s.voice i)) ∧
  (∀ (st : FState) (c : FltCall) (x : F), fltCall .external st c = { calls := c :: st.calls } ∧ fltCall .bypass st c = st ∧
    fltOut .bypass st x = x) ∧
  (∀ (i : Fin numVoices) (flt : FltSel) (st : FState) (rate cutoff res x : F), (fltRequest i .reset).voice.toNat = i.val ∧
    (fltRequest i (.prepare rate) = { op := 0#2, voice := (fltRequest i .reset).voice, a := some rate, b := none } ∧
      fltY flt st (.prepare rate) = none) ∧
    (fltRequest i (.update cutoff res) = { op := 1#2, voice := (fltRequest i .reset).voice, a := some cutoff, b := some res } ∧
      fltY flt st (.update cutoff res) = none) ∧
    (fltRequest i (.process x) = { op := 2#2, voice := (fltRequest i .reset).voice, a := some x, b := none } ∧
      fltY flt st (.process x) = some (fltOut flt st x)) ∧
    (fltRequest i .reset = { op := 3#2, voice := (fltRequest i .reset).voice, a := none, b := none } ∧ fltY flt st .reset = none))

/-- O50. With an increment in [0, TWO_PI] the wrap keeps the LFO phase in (-PI, PI] (R44, R208). -/
def Obligations.LfoPhaseStaysInRange : Prop :=
  ∀ lfo inc : F, F.lt (F.neg pi) lfo = true → F.le lfo pi = true → F.within F.zero inc twoPi →
    F.lt (F.neg pi) (lfoPhase lfo inc) = true ∧ F.le (lfoPhase lfo inc) pi = true

/-! ## Noise -/

/-- O51. One noise draw (R113): `NOISE_STEPS` shifts, then exactly `(u - 2^23) / 2^23` for `u` the low 24 bits (`toUnits` counts in units of
2^-149), which lies in [-1, 1 - 2^-23]; with the rule's example. -/
def Obligations.NoiseDraw : Prop :=
  (∀ s : State, noiseNext s = { s with lfsr := (lfsrStep s.params.noiseTaps)^[s.params.noiseSteps] s.lfsr }) ∧
  (∀ x : BitVec 32, (noiseValue x).isFinite = true ∧
    (noiseValue x).toUnits = (((slice x 0 24 : BitVec 24).toNat : Int) - 8388608) * 2 ^ 126 ∧
    F.within 0xBF800000#32 (noiseValue x) 0x3F7FFFFE#32) ∧
  (lfsrStep 0x80200003#32)^[24] 0x000056CE#32 = 0x5B679E51#32 ∧ noiseValue 0x5B679E51#32 = 0xBE430D78#32

/-- O52. One shift (R112) for every feedback mask: right by one, and the mask XORed in when the bit shifted out was 1. With the mask's top
bit set (log entry 17) 0 is a fixed point, no two registers shift to the same one, and so 0 is reached from 0 alone; with the rule's
example. -/
def Obligations.LfsrShift : Prop :=
  (∀ taps x : BitVec 32, (x.getLsbD 0 = true → lfsrStep taps x = (x >>> 1) ^^^ taps) ∧
    (x.getLsbD 0 = false → lfsrStep taps x = x >>> 1)) ∧
  (∀ taps : BitVec 32, taps.msb = true → lfsrStep taps 0#32 = 0#32 ∧
    (∀ x y, lfsrStep taps x = lfsrStep taps y → x = y) ∧ (∀ x, lfsrStep taps x = 0#32 → x = 0#32)) ∧
  lfsrStep 0x80200003#32 0x000056CE#32 = 0x00002B67#32 ∧ lfsrStep 0x80200003#32 0x00002B67#32 = 0x802015B0#32 ∧
  lfsrStep 0x80200003#32 0x802015B0#32 = 0x40100AD8#32

/-! ## Envelopes -/

/-- O53. One envelope step (R121): the update, then the test on the sum with the target from before, with the rule's example. -/
def Obligations.EnvelopeStep : Prop :=
  (∀ (e : Env) (l : F), l = F.add (F.mul e.coef (F.sub e.level e.target)) e.target →
    (F.gt (F.add l e.target) 0x40400000#32 = true → envNext e = { e with level := l, target := e.s, coef := e.d }) ∧
    (F.gt (F.add l e.target) 0x40400000#32 = false → envNext e = { e with level := l })) ∧
  (∀ e : Env, e.level = 0x3951B717#32 → e.target = 0x40000000#32 → e.coef = 0x3F000000#32 → e.s = 0x3F000000#32 → e.d = 0x3F000000#32 →
    (envNext e).level = 0x3F800347#32 ∧ (envNext e).target = 0x3F000000#32 ∧ (envNext e).coef = 0x3F000000#32)

/-- O54. A release falls monotonically to silence (R132): with a coefficient in [0, 1) and a level in [0, 3] no step raises the level or
ends the release, and after some step the envelope is inactive. -/
def Obligations.ReleaseFallsToSilence : Prop :=
  ∀ e : Env, e.target = F.zero → F.le F.zero e.coef = true → F.lt e.coef f1 = true → F.le F.zero e.level = true →
    F.le e.level decayThreshold = true →
    (F.le F.zero (envNext e).level = true ∧ F.le (envNext e).level e.level = true ∧ (envNext e).target = F.zero ∧
      (envNext e).coef = e.coef) ∧
    ∃ n, envIsActive (envNext^[n] e) = false

/-- O55. R132's claim on the attack as it stands, for every coefficient in [0, 1): from level 0 an attack reaches the step whose sum exceeds
3.0. EXPECTED TO FAIL under binary32: with the coefficient 1 - 2^-24 the level stalls at 1.0 (log entry 19). -/
def Obligations.EveryAttackEnds : Prop :=
  ∀ e : Env, e.level = F.zero → F.le F.zero e.a = true → F.lt e.a f1 = true →
    ∃ n, F.gt (F.add (envLevel (envNext^[n] (envAttack e))) (envNext^[n] (envAttack e)).target) decayThreshold = true

/-! ## Oscillators and the voice -/

/-- O56. The phase stays in [0, 1) while the increment is in [0, 1) (R46, R139). -/
def Obligations.PhaseStaysInRange : Prop :=
  ∀ phase inc : F, F.phaseRange phase → F.phaseRange inc → F.phaseRange (advancePhase phase inc)

/-- O57. R139's claim on the phase as it stands, for every increment in [0, 1]. EXPECTED TO FAIL under binary32: from the phase 1 - 2^-24 an
increment of exactly 1.0 leaves the phase 1.0 (log entry 19). -/
def Obligations.PhaseStaysInRangeAtUnitIncrement : Prop :=
  ∀ phase inc : F, F.phaseRange phase → F.within F.zero inc f1 → F.phaseRange (advancePhase phase inc)

/-- O58. The three strategies (R140 to R142, R144), each under its own name (R171, R172): all advance the phase identically, by R139, and
change no other field; the naive and poly-BLEP strategies raise no `HarmClip` (R271); and their samples, with the four poly-BLEP examples
of R141 at increment 1/64. O59 gives the additive sample and its `HarmClip`. -/
def Obligations.StrategiesAdvanceAlike : Prop :=
  (∀ (p : Params) (nyq : F) (o : Osc), oscRender p nyq .naive o = oscNaive o ∧ oscRender p nyq .blep o = oscBlep o ∧
    oscRender p nyq .additive o = oscAdditive p nyq o) ∧
  (∀ (p : Params) (nyq : F) (b : Strategy) (o : Osc), (oscRender p nyq b o).osc = { o with
      phase := if F.ge (F.add o.phase o.inc) f1 = true then F.sub (F.add o.phase o.inc) f1 else F.add o.phase o.inc }) ∧
  (∀ o : Osc, (oscNaive o).clip = false ∧ (oscBlep o).clip = false) ∧
  (∀ o : Osc, (oscNaive o).sample = F.mul o.amp (F.sub (F.mul f2 o.phase) f1)) ∧
  (∀ (o : Osc) (u c : F),
    ((F.lt o.phase o.inc = true ∧ u = F.div o.phase o.inc ∧ c = F.sub (F.sub (F.add u u) (F.mul u u)) f1) ∨
      (F.lt o.phase o.inc = false ∧ F.gt o.phase (F.sub f1 o.inc) = true ∧ u = F.div (F.sub o.phase f1) o.inc ∧
        c = F.add (F.add (F.mul u u) (F.add u u)) f1) ∨
      (F.lt o.phase o.inc = false ∧ F.gt o.phase (F.sub f1 o.inc) = false ∧ c = F.zero)) →
    (oscBlep o).sample = F.mul o.amp (F.sub (F.sub (F.mul f2 o.phase) f1) c)) ∧
  (oscBlep ⟨F.zero, F.zero, 0x3C800000#32, f1⟩).sample = F.zero ∧
  (oscBlep ⟨F.zero, 0x3B800000#32, 0x3C800000#32, f1⟩).sample = 0xBEDC0000#32 ∧
  (oscBlep ⟨F.zero, 0x3C800000#32, 0x3C800000#32, f1⟩).sample = 0xBF780000#32 ∧
  (oscBlep ⟨F.zero, 0x3F7D0000#32, 0x3C800000#32, f1⟩).sample = 0x3F6A0000#32

/-- O59. The additive sample (R142): the harmonics 1 to `n` below Nyquist, cut at `HARM_MAX`, each term
`(TWO_OVER_PI / F(i)) * SIN((TWO_PI * phase) * F(i))`, added when `i` is odd and subtracted when it is even, in ascending order from `+0`,
times the amplitude. And `HarmClip` records that the bound, not Nyquist, ended the loop: it is raised exactly when every harmonic from 1 to
`HARM_MAX + 1` is below Nyquist. -/
def Obligations.HarmClipMeansBound : Prop :=
  ∀ (p : Params) (nyq : F) (o : Osc),
    (∃ n, n ≤ p.harmMax ∧ (∀ i, 1 ≤ i → i ≤ n → F.lt (F.mul (F.ofNat i) o.freq) nyq = true) ∧
      (n = p.harmMax ∨ F.lt (F.mul (F.ofNat (n + 1)) o.freq) nyq = false) ∧
      (oscAdditive p nyq o).sample = F.mul o.amp ((List.range' 1 n).foldl (fun acc i =>
        if i % 2 = 1 then
          F.add acc (F.mul (F.div 0x3F22F983#32 (F.ofNat i)) (SIN p.num (F.mul (F.mul 0x40C90FDB#32 o.phase) (F.ofNat i))))
        else
          F.sub acc (F.mul (F.div 0x3F22F983#32 (F.ofNat i)) (SIN p.num (F.mul (F.mul 0x40C90FDB#32 o.phase) (F.ofNat i)))))
        F.zero)) ∧
    ((oscAdditive p nyq o).clip = true ↔
      ∀ i, 1 ≤ i → i ≤ p.harmMax + 1 → F.lt (F.mul (F.ofNat i) o.freq) nyq = true)

/-- O60. The voice's sample (R172), by the strategy of the note frequency (R171): the two oscillators and the noise scaled by
`velocity / 127`, through the filter instance, times the envelope's next value. -/
def Obligations.VoiceRenderResult : Prop :=
  ∀ (p : Params) (nyq noise mix : F) (v : Voice) (b : Strategy) (oB : Osc) (ra rb : OscOut) (x : F),
    b = (if F.lt v.frequency 0x42200000#32 = true then .naive else if F.lt v.frequency 0x447A0000#32 = true then .blep else .additive) →
    oB = { v.oscB with amp := F.mul v.oscA.amp mix } →
    ra = oscRender p nyq b v.oscA → rb = oscRender p nyq b oB →
    x = F.add (F.add ra.sample rb.sample) (F.mul noise (F.div (F.ofNat v.velocity.toNat) 0x42FE0000#32)) →
    (voiceRender p nyq noise mix v).sample = F.mul (fltOut p.flt v.flt x) (envNext v.env).level ∧
    (voiceRender p nyq noise mix v).voice = { v with
      oscA := ra.osc, oscB := rb.osc, flt := fltCall p.flt v.flt (.process x), env := envNext v.env } ∧
    (voiceRender p nyq noise mix v).clip = (ra.clip || rb.clip)
end

