-- ==== Sys2Proof/Laws/State.lean ====
section
/-! SUPPORT. One lemma for each field of State under each named update, so that no proof unfolds a record update. -/

namespace Sys2Proof.Machine

/-! ## The rate registers as a rule reads them (R273), and the strategies by name (R171, R172). -/

/-- A set `FS` is what a rule reads. -/
theorem State.fsVal_of_fs {s : State} {r : F} (h : s.fs = some r) : s.fsVal = r := by simp [State.fsVal, h]
/-- A set `NYQ` is what a rule reads. -/
theorem State.nyqVal_of_nyq {s : State} {r : F} (h : s.nyq = some r) : s.nyqVal = r := by simp [State.nyqVal, h]
@[simp] theorem oscRender_naive (p : Params) (nyq : F) (o : Osc) : oscRender p nyq .naive o = oscNaive o := rfl
@[simp] theorem oscRender_blep (p : Params) (nyq : F) (o : Osc) : oscRender p nyq .blep o = oscBlep o := rfl
@[simp] theorem oscRender_additive (p : Params) (nyq : F) (o : Osc) : oscRender p nyq .additive o = oscAdditive p nyq o := rfl

/-! ## `State.raise`: `State.raise` writes `fault` alone. -/

@[simp] theorem State.raise_voices (s : State) (k : FaultCode) : (s.raise k).voices = s.voices := rfl
@[simp] theorem State.raise_lfsr (s : State) (k : FaultCode) : (s.raise k).lfsr = s.lfsr := rfl
@[simp] theorem State.raise_pitchBend (s : State) (k : FaultCode) : (s.raise k).pitchBend = s.pitchBend := rfl
@[simp] theorem State.raise_modWheel (s : State) (k : FaultCode) : (s.raise k).modWheel = s.modWheel := rfl
@[simp] theorem State.raise_pressure (s : State) (k : FaultCode) : (s.raise k).pressure = s.pressure := rfl
@[simp] theorem State.raise_filterCtl (s : State) (k : FaultCode) : (s.raise k).filterCtl = s.filterCtl := rfl
@[simp] theorem State.raise_resonanceCtl (s : State) (k : FaultCode) : (s.raise k).resonanceCtl = s.resonanceCtl := rfl
@[simp] theorem State.raise_filterZip (s : State) (k : FaultCode) : (s.raise k).filterZip = s.filterZip := rfl
@[simp] theorem State.raise_vibratoMod (s : State) (k : FaultCode) : (s.raise k).vibratoMod = s.vibratoMod := rfl
@[simp] theorem State.raise_lfo (s : State) (k : FaultCode) : (s.raise k).lfo = s.lfo := rfl
@[simp] theorem State.raise_lfoStep (s : State) (k : FaultCode) : (s.raise k).lfoStep = s.lfoStep := rfl
@[simp] theorem State.raise_sustain (s : State) (k : FaultCode) : (s.raise k).sustain = s.sustain := rfl
@[simp] theorem State.raise_outLevel (s : State) (k : FaultCode) : (s.raise k).outLevel = s.outLevel := rfl
@[simp] theorem State.raise_oscMix (s : State) (k : FaultCode) : (s.raise k).oscMix = s.oscMix := rfl
@[simp] theorem State.raise_sh (s : State) (k : FaultCode) : (s.raise k).sh = s.sh := rfl
@[simp] theorem State.raise_cfg (s : State) (k : FaultCode) : (s.raise k).cfg = s.cfg := rfl
@[simp] theorem State.raise_dirty (s : State) (k : FaultCode) : (s.raise k).dirty = s.dirty := rfl
@[simp] theorem State.raise_allocated (s : State) (k : FaultCode) : (s.raise k).allocated = s.allocated := rfl
@[simp] theorem State.raise_fs (s : State) (k : FaultCode) : (s.raise k).fs = s.fs := rfl
@[simp] theorem State.raise_nyq (s : State) (k : FaultCode) : (s.raise k).nyq = s.nyq := rfl
@[simp] theorem State.raise_fault (s : State) (k : FaultCode) : (s.raise k).fault = s.fault.raise k := rfl
@[simp] theorem State.raise_cp (s : State) (k : FaultCode) : (s.raise k).cp = s.cp := rfl
@[simp] theorem State.raise_pp (s : State) (k : FaultCode) : (s.raise k).pp = s.pp := rfl
@[simp] theorem State.raise_obufL (s : State) (k : FaultCode) : (s.raise k).obufL = s.obufL := rfl
@[simp] theorem State.raise_obufR (s : State) (k : FaultCode) : (s.raise k).obufR = s.obufR := rfl
@[simp] theorem State.raise_port (s : State) (k : FaultCode) : (s.raise k).port = s.port := rfl
@[simp] theorem State.raise_cmdWords (s : State) (k : FaultCode) : (s.raise k).cmdWords = s.cmdWords := rfl
@[simp] theorem State.raise_parWords (s : State) (k : FaultCode) : (s.raise k).parWords = s.parWords := rfl
@[simp] theorem State.raise_sched (s : State) (k : FaultCode) : (s.raise k).sched = s.sched := rfl
@[simp] theorem State.raise_params (s : State) (k : FaultCode) : (s.raise k).params = s.params := rfl

/-! ## `State.mapVoices`: `State.mapVoices` writes `voices` alone. -/

@[simp] theorem State.mapVoices_voices (s : State) (f : Voice → Voice) : (s.mapVoices f).voices = vmap f s.voices := rfl
@[simp] theorem State.mapVoices_lfsr (s : State) (f : Voice → Voice) : (s.mapVoices f).lfsr = s.lfsr := rfl
@[simp] theorem State.mapVoices_pitchBend (s : State) (f : Voice → Voice) : (s.mapVoices f).pitchBend = s.pitchBend := rfl
@[simp] theorem State.mapVoices_modWheel (s : State) (f : Voice → Voice) : (s.mapVoices f).modWheel = s.modWheel := rfl
@[simp] theorem State.mapVoices_pressure (s : State) (f : Voice → Voice) : (s.mapVoices f).pressure = s.pressure := rfl
@[simp] theorem State.mapVoices_filterCtl (s : State) (f : Voice → Voice) : (s.mapVoices f).filterCtl = s.filterCtl := rfl
@[simp] theorem State.mapVoices_resonanceCtl (s : State) (f : Voice → Voice) : (s.mapVoices f).resonanceCtl = s.resonanceCtl := rfl
@[simp] theorem State.mapVoices_filterZip (s : State) (f : Voice → Voice) : (s.mapVoices f).filterZip = s.filterZip := rfl
@[simp] theorem State.mapVoices_vibratoMod (s : State) (f : Voice → Voice) : (s.mapVoices f).vibratoMod = s.vibratoMod := rfl
@[simp] theorem State.mapVoices_lfo (s : State) (f : Voice → Voice) : (s.mapVoices f).lfo = s.lfo := rfl
@[simp] theorem State.mapVoices_lfoStep (s : State) (f : Voice → Voice) : (s.mapVoices f).lfoStep = s.lfoStep := rfl
@[simp] theorem State.mapVoices_sustain (s : State) (f : Voice → Voice) : (s.mapVoices f).sustain = s.sustain := rfl
@[simp] theorem State.mapVoices_outLevel (s : State) (f : Voice → Voice) : (s.mapVoices f).outLevel = s.outLevel := rfl
@[simp] theorem State.mapVoices_oscMix (s : State) (f : Voice → Voice) : (s.mapVoices f).oscMix = s.oscMix := rfl
@[simp] theorem State.mapVoices_sh (s : State) (f : Voice → Voice) : (s.mapVoices f).sh = s.sh := rfl
@[simp] theorem State.mapVoices_cfg (s : State) (f : Voice → Voice) : (s.mapVoices f).cfg = s.cfg := rfl
@[simp] theorem State.mapVoices_dirty (s : State) (f : Voice → Voice) : (s.mapVoices f).dirty = s.dirty := rfl
@[simp] theorem State.mapVoices_allocated (s : State) (f : Voice → Voice) : (s.mapVoices f).allocated = s.allocated := rfl
@[simp] theorem State.mapVoices_fs (s : State) (f : Voice → Voice) : (s.mapVoices f).fs = s.fs := rfl
@[simp] theorem State.mapVoices_nyq (s : State) (f : Voice → Voice) : (s.mapVoices f).nyq = s.nyq := rfl
@[simp] theorem State.mapVoices_fault (s : State) (f : Voice → Voice) : (s.mapVoices f).fault = s.fault := rfl
@[simp] theorem State.mapVoices_cp (s : State) (f : Voice → Voice) : (s.mapVoices f).cp = s.cp := rfl
@[simp] theorem State.mapVoices_pp (s : State) (f : Voice → Voice) : (s.mapVoices f).pp = s.pp := rfl
@[simp] theorem State.mapVoices_obufL (s : State) (f : Voice → Voice) : (s.mapVoices f).obufL = s.obufL := rfl
@[simp] theorem State.mapVoices_obufR (s : State) (f : Voice → Voice) : (s.mapVoices f).obufR = s.obufR := rfl
@[simp] theorem State.mapVoices_port (s : State) (f : Voice → Voice) : (s.mapVoices f).port = s.port := rfl
@[simp] theorem State.mapVoices_cmdWords (s : State) (f : Voice → Voice) : (s.mapVoices f).cmdWords = s.cmdWords := rfl
@[simp] theorem State.mapVoices_parWords (s : State) (f : Voice → Voice) : (s.mapVoices f).parWords = s.parWords := rfl
@[simp] theorem State.mapVoices_sched (s : State) (f : Voice → Voice) : (s.mapVoices f).sched = s.sched := rfl
@[simp] theorem State.mapVoices_params (s : State) (f : Voice → Voice) : (s.mapVoices f).params = s.params := rfl

/-! ## `State.setVoice`: `State.setVoice` writes `voices` alone. -/

@[simp] theorem State.setVoice_voices (s : State) (i : Fin numVoices) (v : Voice) : (s.setVoice i v).voices = s.voices.set i.val v i.isLt := rfl
@[simp] theorem State.setVoice_lfsr (s : State) (i : Fin numVoices) (v : Voice) : (s.setVoice i v).lfsr = s.lfsr := rfl
@[simp] theorem State.setVoice_pitchBend (s : State) (i : Fin numVoices) (v : Voice) : (s.setVoice i v).pitchBend = s.pitchBend := rfl
@[simp] theorem State.setVoice_modWheel (s : State) (i : Fin numVoices) (v : Voice) : (s.setVoice i v).modWheel = s.modWheel := rfl
@[simp] theorem State.setVoice_pressure (s : State) (i : Fin numVoices) (v : Voice) : (s.setVoice i v).pressure = s.pressure := rfl
@[simp] theorem State.setVoice_filterCtl (s : State) (i : Fin numVoices) (v : Voice) : (s.setVoice i v).filterCtl = s.filterCtl := rfl
@[simp] theorem State.setVoice_resonanceCtl (s : State) (i : Fin numVoices) (v : Voice) : (s.setVoice i v).resonanceCtl = s.resonanceCtl := rfl
@[simp] theorem State.setVoice_filterZip (s : State) (i : Fin numVoices) (v : Voice) : (s.setVoice i v).filterZip = s.filterZip := rfl
@[simp] theorem State.setVoice_vibratoMod (s : State) (i : Fin numVoices) (v : Voice) : (s.setVoice i v).vibratoMod = s.vibratoMod := rfl
@[simp] theorem State.setVoice_lfo (s : State) (i : Fin numVoices) (v : Voice) : (s.setVoice i v).lfo = s.lfo := rfl
@[simp] theorem State.setVoice_lfoStep (s : State) (i : Fin numVoices) (v : Voice) : (s.setVoice i v).lfoStep = s.lfoStep := rfl
@[simp] theorem State.setVoice_sustain (s : State) (i : Fin numVoices) (v : Voice) : (s.setVoice i v).sustain = s.sustain := rfl
@[simp] theorem State.setVoice_outLevel (s : State) (i : Fin numVoices) (v : Voice) : (s.setVoice i v).outLevel = s.outLevel := rfl
@[simp] theorem State.setVoice_oscMix (s : State) (i : Fin numVoices) (v : Voice) : (s.setVoice i v).oscMix = s.oscMix := rfl
@[simp] theorem State.setVoice_sh (s : State) (i : Fin numVoices) (v : Voice) : (s.setVoice i v).sh = s.sh := rfl
@[simp] theorem State.setVoice_cfg (s : State) (i : Fin numVoices) (v : Voice) : (s.setVoice i v).cfg = s.cfg := rfl
@[simp] theorem State.setVoice_dirty (s : State) (i : Fin numVoices) (v : Voice) : (s.setVoice i v).dirty = s.dirty := rfl
@[simp] theorem State.setVoice_allocated (s : State) (i : Fin numVoices) (v : Voice) : (s.setVoice i v).allocated = s.allocated := rfl
@[simp] theorem State.setVoice_fs (s : State) (i : Fin numVoices) (v : Voice) : (s.setVoice i v).fs = s.fs := rfl
@[simp] theorem State.setVoice_nyq (s : State) (i : Fin numVoices) (v : Voice) : (s.setVoice i v).nyq = s.nyq := rfl
@[simp] theorem State.setVoice_fault (s : State) (i : Fin numVoices) (v : Voice) : (s.setVoice i v).fault = s.fault := rfl
@[simp] theorem State.setVoice_cp (s : State) (i : Fin numVoices) (v : Voice) : (s.setVoice i v).cp = s.cp := rfl
@[simp] theorem State.setVoice_pp (s : State) (i : Fin numVoices) (v : Voice) : (s.setVoice i v).pp = s.pp := rfl
@[simp] theorem State.setVoice_obufL (s : State) (i : Fin numVoices) (v : Voice) : (s.setVoice i v).obufL = s.obufL := rfl
@[simp] theorem State.setVoice_obufR (s : State) (i : Fin numVoices) (v : Voice) : (s.setVoice i v).obufR = s.obufR := rfl
@[simp] theorem State.setVoice_port (s : State) (i : Fin numVoices) (v : Voice) : (s.setVoice i v).port = s.port := rfl
@[simp] theorem State.setVoice_cmdWords (s : State) (i : Fin numVoices) (v : Voice) : (s.setVoice i v).cmdWords = s.cmdWords := rfl
@[simp] theorem State.setVoice_parWords (s : State) (i : Fin numVoices) (v : Voice) : (s.setVoice i v).parWords = s.parWords := rfl
@[simp] theorem State.setVoice_sched (s : State) (i : Fin numVoices) (v : Voice) : (s.setVoice i v).sched = s.sched := rfl
@[simp] theorem State.setVoice_params (s : State) (i : Fin numVoices) (v : Voice) : (s.setVoice i v).params = s.params := rfl

/-! ## `State.storeL`: `State.storeL` writes `obufL` alone. -/

@[simp] theorem State.storeL_voices (s : State) (k : Nat) (v : F) : (s.storeL k v).voices = s.voices := rfl
@[simp] theorem State.storeL_lfsr (s : State) (k : Nat) (v : F) : (s.storeL k v).lfsr = s.lfsr := rfl
@[simp] theorem State.storeL_pitchBend (s : State) (k : Nat) (v : F) : (s.storeL k v).pitchBend = s.pitchBend := rfl
@[simp] theorem State.storeL_modWheel (s : State) (k : Nat) (v : F) : (s.storeL k v).modWheel = s.modWheel := rfl
@[simp] theorem State.storeL_pressure (s : State) (k : Nat) (v : F) : (s.storeL k v).pressure = s.pressure := rfl
@[simp] theorem State.storeL_filterCtl (s : State) (k : Nat) (v : F) : (s.storeL k v).filterCtl = s.filterCtl := rfl
@[simp] theorem State.storeL_resonanceCtl (s : State) (k : Nat) (v : F) : (s.storeL k v).resonanceCtl = s.resonanceCtl := rfl
@[simp] theorem State.storeL_filterZip (s : State) (k : Nat) (v : F) : (s.storeL k v).filterZip = s.filterZip := rfl
@[simp] theorem State.storeL_vibratoMod (s : State) (k : Nat) (v : F) : (s.storeL k v).vibratoMod = s.vibratoMod := rfl
@[simp] theorem State.storeL_lfo (s : State) (k : Nat) (v : F) : (s.storeL k v).lfo = s.lfo := rfl
@[simp] theorem State.storeL_lfoStep (s : State) (k : Nat) (v : F) : (s.storeL k v).lfoStep = s.lfoStep := rfl
@[simp] theorem State.storeL_sustain (s : State) (k : Nat) (v : F) : (s.storeL k v).sustain = s.sustain := rfl
@[simp] theorem State.storeL_outLevel (s : State) (k : Nat) (v : F) : (s.storeL k v).outLevel = s.outLevel := rfl
@[simp] theorem State.storeL_oscMix (s : State) (k : Nat) (v : F) : (s.storeL k v).oscMix = s.oscMix := rfl
@[simp] theorem State.storeL_sh (s : State) (k : Nat) (v : F) : (s.storeL k v).sh = s.sh := rfl
@[simp] theorem State.storeL_cfg (s : State) (k : Nat) (v : F) : (s.storeL k v).cfg = s.cfg := rfl
@[simp] theorem State.storeL_dirty (s : State) (k : Nat) (v : F) : (s.storeL k v).dirty = s.dirty := rfl
@[simp] theorem State.storeL_allocated (s : State) (k : Nat) (v : F) : (s.storeL k v).allocated = s.allocated := rfl
@[simp] theorem State.storeL_fs (s : State) (k : Nat) (v : F) : (s.storeL k v).fs = s.fs := rfl
@[simp] theorem State.storeL_nyq (s : State) (k : Nat) (v : F) : (s.storeL k v).nyq = s.nyq := rfl
@[simp] theorem State.storeL_fault (s : State) (k : Nat) (v : F) : (s.storeL k v).fault = s.fault := rfl
@[simp] theorem State.storeL_cp (s : State) (k : Nat) (v : F) : (s.storeL k v).cp = s.cp := rfl
@[simp] theorem State.storeL_pp (s : State) (k : Nat) (v : F) : (s.storeL k v).pp = s.pp := rfl
@[simp] theorem State.storeL_obufL (s : State) (k : Nat) (v : F) : (s.storeL k v).obufL = writeElem k v s.obufL := rfl
@[simp] theorem State.storeL_obufR (s : State) (k : Nat) (v : F) : (s.storeL k v).obufR = s.obufR := rfl
@[simp] theorem State.storeL_port (s : State) (k : Nat) (v : F) : (s.storeL k v).port = s.port := rfl
@[simp] theorem State.storeL_cmdWords (s : State) (k : Nat) (v : F) : (s.storeL k v).cmdWords = s.cmdWords := rfl
@[simp] theorem State.storeL_parWords (s : State) (k : Nat) (v : F) : (s.storeL k v).parWords = s.parWords := rfl
@[simp] theorem State.storeL_sched (s : State) (k : Nat) (v : F) : (s.storeL k v).sched = s.sched := rfl
@[simp] theorem State.storeL_params (s : State) (k : Nat) (v : F) : (s.storeL k v).params = s.params := rfl

/-! ## `State.storeR`: `State.storeR` writes `obufR` alone. -/

@[simp] theorem State.storeR_voices (s : State) (k : Nat) (v : F) : (s.storeR k v).voices = s.voices := rfl
@[simp] theorem State.storeR_lfsr (s : State) (k : Nat) (v : F) : (s.storeR k v).lfsr = s.lfsr := rfl
@[simp] theorem State.storeR_pitchBend (s : State) (k : Nat) (v : F) : (s.storeR k v).pitchBend = s.pitchBend := rfl
@[simp] theorem State.storeR_modWheel (s : State) (k : Nat) (v : F) : (s.storeR k v).modWheel = s.modWheel := rfl
@[simp] theorem State.storeR_pressure (s : State) (k : Nat) (v : F) : (s.storeR k v).pressure = s.pressure := rfl
@[simp] theorem State.storeR_filterCtl (s : State) (k : Nat) (v : F) : (s.storeR k v).filterCtl = s.filterCtl := rfl
@[simp] theorem State.storeR_resonanceCtl (s : State) (k : Nat) (v : F) : (s.storeR k v).resonanceCtl = s.resonanceCtl := rfl
@[simp] theorem State.storeR_filterZip (s : State) (k : Nat) (v : F) : (s.storeR k v).filterZip = s.filterZip := rfl
@[simp] theorem State.storeR_vibratoMod (s : State) (k : Nat) (v : F) : (s.storeR k v).vibratoMod = s.vibratoMod := rfl
@[simp] theorem State.storeR_lfo (s : State) (k : Nat) (v : F) : (s.storeR k v).lfo = s.lfo := rfl
@[simp] theorem State.storeR_lfoStep (s : State) (k : Nat) (v : F) : (s.storeR k v).lfoStep = s.lfoStep := rfl
@[simp] theorem State.storeR_sustain (s : State) (k : Nat) (v : F) : (s.storeR k v).sustain = s.sustain := rfl
@[simp] theorem State.storeR_outLevel (s : State) (k : Nat) (v : F) : (s.storeR k v).outLevel = s.outLevel := rfl
@[simp] theorem State.storeR_oscMix (s : State) (k : Nat) (v : F) : (s.storeR k v).oscMix = s.oscMix := rfl
@[simp] theorem State.storeR_sh (s : State) (k : Nat) (v : F) : (s.storeR k v).sh = s.sh := rfl
@[simp] theorem State.storeR_cfg (s : State) (k : Nat) (v : F) : (s.storeR k v).cfg = s.cfg := rfl
@[simp] theorem State.storeR_dirty (s : State) (k : Nat) (v : F) : (s.storeR k v).dirty = s.dirty := rfl
@[simp] theorem State.storeR_allocated (s : State) (k : Nat) (v : F) : (s.storeR k v).allocated = s.allocated := rfl
@[simp] theorem State.storeR_fs (s : State) (k : Nat) (v : F) : (s.storeR k v).fs = s.fs := rfl
@[simp] theorem State.storeR_nyq (s : State) (k : Nat) (v : F) : (s.storeR k v).nyq = s.nyq := rfl
@[simp] theorem State.storeR_fault (s : State) (k : Nat) (v : F) : (s.storeR k v).fault = s.fault := rfl
@[simp] theorem State.storeR_cp (s : State) (k : Nat) (v : F) : (s.storeR k v).cp = s.cp := rfl
@[simp] theorem State.storeR_pp (s : State) (k : Nat) (v : F) : (s.storeR k v).pp = s.pp := rfl
@[simp] theorem State.storeR_obufL (s : State) (k : Nat) (v : F) : (s.storeR k v).obufL = s.obufL := rfl
@[simp] theorem State.storeR_obufR (s : State) (k : Nat) (v : F) : (s.storeR k v).obufR = writeElem k v s.obufR := rfl
@[simp] theorem State.storeR_port (s : State) (k : Nat) (v : F) : (s.storeR k v).port = s.port := rfl
@[simp] theorem State.storeR_cmdWords (s : State) (k : Nat) (v : F) : (s.storeR k v).cmdWords = s.cmdWords := rfl
@[simp] theorem State.storeR_parWords (s : State) (k : Nat) (v : F) : (s.storeR k v).parWords = s.parWords := rfl
@[simp] theorem State.storeR_sched (s : State) (k : Nat) (v : F) : (s.storeR k v).sched = s.sched := rfl
@[simp] theorem State.storeR_params (s : State) (k : Nat) (v : F) : (s.storeR k v).params = s.params := rfl

/-! ## `State.accept`: `State.accept` writes `port` and `sched`. -/

@[simp] theorem State.accept_voices (s : State) (p : Port) : (s.accept p).voices = s.voices := rfl
@[simp] theorem State.accept_lfsr (s : State) (p : Port) : (s.accept p).lfsr = s.lfsr := rfl
@[simp] theorem State.accept_pitchBend (s : State) (p : Port) : (s.accept p).pitchBend = s.pitchBend := rfl
@[simp] theorem State.accept_modWheel (s : State) (p : Port) : (s.accept p).modWheel = s.modWheel := rfl
@[simp] theorem State.accept_pressure (s : State) (p : Port) : (s.accept p).pressure = s.pressure := rfl
@[simp] theorem State.accept_filterCtl (s : State) (p : Port) : (s.accept p).filterCtl = s.filterCtl := rfl
@[simp] theorem State.accept_resonanceCtl (s : State) (p : Port) : (s.accept p).resonanceCtl = s.resonanceCtl := rfl
@[simp] theorem State.accept_filterZip (s : State) (p : Port) : (s.accept p).filterZip = s.filterZip := rfl
@[simp] theorem State.accept_vibratoMod (s : State) (p : Port) : (s.accept p).vibratoMod = s.vibratoMod := rfl
@[simp] theorem State.accept_lfo (s : State) (p : Port) : (s.accept p).lfo = s.lfo := rfl
@[simp] theorem State.accept_lfoStep (s : State) (p : Port) : (s.accept p).lfoStep = s.lfoStep := rfl
@[simp] theorem State.accept_sustain (s : State) (p : Port) : (s.accept p).sustain = s.sustain := rfl
@[simp] theorem State.accept_outLevel (s : State) (p : Port) : (s.accept p).outLevel = s.outLevel := rfl
@[simp] theorem State.accept_oscMix (s : State) (p : Port) : (s.accept p).oscMix = s.oscMix := rfl
@[simp] theorem State.accept_sh (s : State) (p : Port) : (s.accept p).sh = s.sh := rfl
@[simp] theorem State.accept_cfg (s : State) (p : Port) : (s.accept p).cfg = s.cfg := rfl
@[simp] theorem State.accept_dirty (s : State) (p : Port) : (s.accept p).dirty = s.dirty := rfl
@[simp] theorem State.accept_allocated (s : State) (p : Port) : (s.accept p).allocated = s.allocated := rfl
@[simp] theorem State.accept_fs (s : State) (p : Port) : (s.accept p).fs = s.fs := rfl
@[simp] theorem State.accept_nyq (s : State) (p : Port) : (s.accept p).nyq = s.nyq := rfl
@[simp] theorem State.accept_fault (s : State) (p : Port) : (s.accept p).fault = s.fault := rfl
@[simp] theorem State.accept_cp (s : State) (p : Port) : (s.accept p).cp = s.cp := rfl
@[simp] theorem State.accept_pp (s : State) (p : Port) : (s.accept p).pp = s.pp := rfl
@[simp] theorem State.accept_obufL (s : State) (p : Port) : (s.accept p).obufL = s.obufL := rfl
@[simp] theorem State.accept_obufR (s : State) (p : Port) : (s.accept p).obufR = s.obufR := rfl
@[simp] theorem State.accept_port (s : State) (p : Port) : (s.accept p).port = p := rfl
@[simp] theorem State.accept_cmdWords (s : State) (p : Port) : (s.accept p).cmdWords = s.cmdWords := rfl
@[simp] theorem State.accept_parWords (s : State) (p : Port) : (s.accept p).parWords = s.parWords := rfl
@[simp] theorem State.accept_sched (s : State) (p : Port) : (s.accept p).sched = s.sched.tail := rfl
@[simp] theorem State.accept_params (s : State) (p : Port) : (s.accept p).params = s.params := rfl

/-! ## `State.idle`: `State.idle` writes `sched` alone. -/

@[simp] theorem State.idle_voices (s : State) : s.idle.voices = s.voices := rfl
@[simp] theorem State.idle_lfsr (s : State) : s.idle.lfsr = s.lfsr := rfl
@[simp] theorem State.idle_pitchBend (s : State) : s.idle.pitchBend = s.pitchBend := rfl
@[simp] theorem State.idle_modWheel (s : State) : s.idle.modWheel = s.modWheel := rfl
@[simp] theorem State.idle_pressure (s : State) : s.idle.pressure = s.pressure := rfl
@[simp] theorem State.idle_filterCtl (s : State) : s.idle.filterCtl = s.filterCtl := rfl
@[simp] theorem State.idle_resonanceCtl (s : State) : s.idle.resonanceCtl = s.resonanceCtl := rfl
@[simp] theorem State.idle_filterZip (s : State) : s.idle.filterZip = s.filterZip := rfl
@[simp] theorem State.idle_vibratoMod (s : State) : s.idle.vibratoMod = s.vibratoMod := rfl
@[simp] theorem State.idle_lfo (s : State) : s.idle.lfo = s.lfo := rfl
@[simp] theorem State.idle_lfoStep (s : State) : s.idle.lfoStep = s.lfoStep := rfl
@[simp] theorem State.idle_sustain (s : State) : s.idle.sustain = s.sustain := rfl
@[simp] theorem State.idle_outLevel (s : State) : s.idle.outLevel = s.outLevel := rfl
@[simp] theorem State.idle_oscMix (s : State) : s.idle.oscMix = s.oscMix := rfl
@[simp] theorem State.idle_sh (s : State) : s.idle.sh = s.sh := rfl
@[simp] theorem State.idle_cfg (s : State) : s.idle.cfg = s.cfg := rfl
@[simp] theorem State.idle_dirty (s : State) : s.idle.dirty = s.dirty := rfl
@[simp] theorem State.idle_allocated (s : State) : s.idle.allocated = s.allocated := rfl
@[simp] theorem State.idle_fs (s : State) : s.idle.fs = s.fs := rfl
@[simp] theorem State.idle_nyq (s : State) : s.idle.nyq = s.nyq := rfl
@[simp] theorem State.idle_fault (s : State) : s.idle.fault = s.fault := rfl
@[simp] theorem State.idle_cp (s : State) : s.idle.cp = s.cp := rfl
@[simp] theorem State.idle_pp (s : State) : s.idle.pp = s.pp := rfl
@[simp] theorem State.idle_obufL (s : State) : s.idle.obufL = s.obufL := rfl
@[simp] theorem State.idle_obufR (s : State) : s.idle.obufR = s.obufR := rfl
@[simp] theorem State.idle_port (s : State) : s.idle.port = s.port := rfl
@[simp] theorem State.idle_cmdWords (s : State) : s.idle.cmdWords = s.cmdWords := rfl
@[simp] theorem State.idle_parWords (s : State) : s.idle.parWords = s.parWords := rfl
@[simp] theorem State.idle_sched (s : State) : s.idle.sched = s.sched.tail := rfl
@[simp] theorem State.idle_params (s : State) : s.idle.params = s.params := rfl

/-! ## `noiseNext`: `noiseNext` writes `lfsr` alone. -/

@[simp] theorem noiseNext_voices (s : State) : (noiseNext s).voices = s.voices := rfl
@[simp] theorem noiseNext_lfsr (s : State) : (noiseNext s).lfsr = noiseAdvance s.params s.lfsr := rfl
@[simp] theorem noiseNext_pitchBend (s : State) : (noiseNext s).pitchBend = s.pitchBend := rfl
@[simp] theorem noiseNext_modWheel (s : State) : (noiseNext s).modWheel = s.modWheel := rfl
@[simp] theorem noiseNext_pressure (s : State) : (noiseNext s).pressure = s.pressure := rfl
@[simp] theorem noiseNext_filterCtl (s : State) : (noiseNext s).filterCtl = s.filterCtl := rfl
@[simp] theorem noiseNext_resonanceCtl (s : State) : (noiseNext s).resonanceCtl = s.resonanceCtl := rfl
@[simp] theorem noiseNext_filterZip (s : State) : (noiseNext s).filterZip = s.filterZip := rfl
@[simp] theorem noiseNext_vibratoMod (s : State) : (noiseNext s).vibratoMod = s.vibratoMod := rfl
@[simp] theorem noiseNext_lfo (s : State) : (noiseNext s).lfo = s.lfo := rfl
@[simp] theorem noiseNext_lfoStep (s : State) : (noiseNext s).lfoStep = s.lfoStep := rfl
@[simp] theorem noiseNext_sustain (s : State) : (noiseNext s).sustain = s.sustain := rfl
@[simp] theorem noiseNext_outLevel (s : State) : (noiseNext s).outLevel = s.outLevel := rfl
@[simp] theorem noiseNext_oscMix (s : State) : (noiseNext s).oscMix = s.oscMix := rfl
@[simp] theorem noiseNext_sh (s : State) : (noiseNext s).sh = s.sh := rfl
@[simp] theorem noiseNext_cfg (s : State) : (noiseNext s).cfg = s.cfg := rfl
@[simp] theorem noiseNext_dirty (s : State) : (noiseNext s).dirty = s.dirty := rfl
@[simp] theorem noiseNext_allocated (s : State) : (noiseNext s).allocated = s.allocated := rfl
@[simp] theorem noiseNext_fs (s : State) : (noiseNext s).fs = s.fs := rfl
@[simp] theorem noiseNext_nyq (s : State) : (noiseNext s).nyq = s.nyq := rfl
@[simp] theorem noiseNext_fault (s : State) : (noiseNext s).fault = s.fault := rfl
@[simp] theorem noiseNext_cp (s : State) : (noiseNext s).cp = s.cp := rfl
@[simp] theorem noiseNext_pp (s : State) : (noiseNext s).pp = s.pp := rfl
@[simp] theorem noiseNext_obufL (s : State) : (noiseNext s).obufL = s.obufL := rfl
@[simp] theorem noiseNext_obufR (s : State) : (noiseNext s).obufR = s.obufR := rfl
@[simp] theorem noiseNext_port (s : State) : (noiseNext s).port = s.port := rfl
@[simp] theorem noiseNext_cmdWords (s : State) : (noiseNext s).cmdWords = s.cmdWords := rfl
@[simp] theorem noiseNext_parWords (s : State) : (noiseNext s).parWords = s.parWords := rfl
@[simp] theorem noiseNext_sched (s : State) : (noiseNext s).sched = s.sched := rfl
@[simp] theorem noiseNext_params (s : State) : (noiseNext s).params = s.params := rfl

/-! ## `lfoScalars`: `lfoScalars` writes `lfo`, `vibratoMod` and `filterZip`. -/

@[simp] theorem lfoScalars_voices (s : State) : (lfoScalars s).voices = s.voices := rfl
@[simp] theorem lfoScalars_lfsr (s : State) : (lfoScalars s).lfsr = s.lfsr := rfl
@[simp] theorem lfoScalars_pitchBend (s : State) : (lfoScalars s).pitchBend = s.pitchBend := rfl
@[simp] theorem lfoScalars_modWheel (s : State) : (lfoScalars s).modWheel = s.modWheel := rfl
@[simp] theorem lfoScalars_pressure (s : State) : (lfoScalars s).pressure = s.pressure := rfl
@[simp] theorem lfoScalars_filterCtl (s : State) : (lfoScalars s).filterCtl = s.filterCtl := rfl
@[simp] theorem lfoScalars_resonanceCtl (s : State) : (lfoScalars s).resonanceCtl = s.resonanceCtl := rfl
@[simp] theorem lfoScalars_lfoStep (s : State) : (lfoScalars s).lfoStep = s.lfoStep := rfl
@[simp] theorem lfoScalars_sustain (s : State) : (lfoScalars s).sustain = s.sustain := rfl
@[simp] theorem lfoScalars_outLevel (s : State) : (lfoScalars s).outLevel = s.outLevel := rfl
@[simp] theorem lfoScalars_oscMix (s : State) : (lfoScalars s).oscMix = s.oscMix := rfl
@[simp] theorem lfoScalars_sh (s : State) : (lfoScalars s).sh = s.sh := rfl
@[simp] theorem lfoScalars_cfg (s : State) : (lfoScalars s).cfg = s.cfg := rfl
@[simp] theorem lfoScalars_dirty (s : State) : (lfoScalars s).dirty = s.dirty := rfl
@[simp] theorem lfoScalars_allocated (s : State) : (lfoScalars s).allocated = s.allocated := rfl
@[simp] theorem lfoScalars_fs (s : State) : (lfoScalars s).fs = s.fs := rfl
@[simp] theorem lfoScalars_nyq (s : State) : (lfoScalars s).nyq = s.nyq := rfl
@[simp] theorem lfoScalars_fault (s : State) : (lfoScalars s).fault = s.fault := rfl
@[simp] theorem lfoScalars_cp (s : State) : (lfoScalars s).cp = s.cp := rfl
@[simp] theorem lfoScalars_pp (s : State) : (lfoScalars s).pp = s.pp := rfl
@[simp] theorem lfoScalars_obufL (s : State) : (lfoScalars s).obufL = s.obufL := rfl
@[simp] theorem lfoScalars_obufR (s : State) : (lfoScalars s).obufR = s.obufR := rfl
@[simp] theorem lfoScalars_port (s : State) : (lfoScalars s).port = s.port := rfl
@[simp] theorem lfoScalars_cmdWords (s : State) : (lfoScalars s).cmdWords = s.cmdWords := rfl
@[simp] theorem lfoScalars_parWords (s : State) : (lfoScalars s).parWords = s.parWords := rfl
@[simp] theorem lfoScalars_sched (s : State) : (lfoScalars s).sched = s.sched := rfl
@[simp] theorem lfoScalars_params (s : State) : (lfoScalars s).params = s.params := rfl

/-! ## `lfoTick`: `lfoTick` writes `lfo`, `vibratoMod`, `filterZip` and `voices`. -/

@[simp] theorem lfoTick_lfsr (s : State) : (lfoTick s).lfsr = s.lfsr := rfl
@[simp] theorem lfoTick_pitchBend (s : State) : (lfoTick s).pitchBend = s.pitchBend := rfl
@[simp] theorem lfoTick_modWheel (s : State) : (lfoTick s).modWheel = s.modWheel := rfl
@[simp] theorem lfoTick_pressure (s : State) : (lfoTick s).pressure = s.pressure := rfl
@[simp] theorem lfoTick_filterCtl (s : State) : (lfoTick s).filterCtl = s.filterCtl := rfl
@[simp] theorem lfoTick_resonanceCtl (s : State) : (lfoTick s).resonanceCtl = s.resonanceCtl := rfl
@[simp] theorem lfoTick_lfoStep (s : State) : (lfoTick s).lfoStep = s.lfoStep := rfl
@[simp] theorem lfoTick_sustain (s : State) : (lfoTick s).sustain = s.sustain := rfl
@[simp] theorem lfoTick_outLevel (s : State) : (lfoTick s).outLevel = s.outLevel := rfl
@[simp] theorem lfoTick_oscMix (s : State) : (lfoTick s).oscMix = s.oscMix := rfl
@[simp] theorem lfoTick_sh (s : State) : (lfoTick s).sh = s.sh := rfl
@[simp] theorem lfoTick_cfg (s : State) : (lfoTick s).cfg = s.cfg := rfl
@[simp] theorem lfoTick_dirty (s : State) : (lfoTick s).dirty = s.dirty := rfl
@[simp] theorem lfoTick_allocated (s : State) : (lfoTick s).allocated = s.allocated := rfl
@[simp] theorem lfoTick_fs (s : State) : (lfoTick s).fs = s.fs := rfl
@[simp] theorem lfoTick_nyq (s : State) : (lfoTick s).nyq = s.nyq := rfl
@[simp] theorem lfoTick_fault (s : State) : (lfoTick s).fault = s.fault := rfl
@[simp] theorem lfoTick_cp (s : State) : (lfoTick s).cp = s.cp := rfl
@[simp] theorem lfoTick_pp (s : State) : (lfoTick s).pp = s.pp := rfl
@[simp] theorem lfoTick_obufL (s : State) : (lfoTick s).obufL = s.obufL := rfl
@[simp] theorem lfoTick_obufR (s : State) : (lfoTick s).obufR = s.obufR := rfl
@[simp] theorem lfoTick_port (s : State) : (lfoTick s).port = s.port := rfl
@[simp] theorem lfoTick_cmdWords (s : State) : (lfoTick s).cmdWords = s.cmdWords := rfl
@[simp] theorem lfoTick_parWords (s : State) : (lfoTick s).parWords = s.parWords := rfl
@[simp] theorem lfoTick_sched (s : State) : (lfoTick s).sched = s.sched := rfl
@[simp] theorem lfoTick_params (s : State) : (lfoTick s).params = s.params := rfl

/-! ## `writeShadow`: `writeShadow` writes `sh` and `dirty`. -/

@[simp] theorem writeShadow_voices (i : Fin numCfg) (v : F) (s : State) : (writeShadow i v s).voices = s.voices := rfl
@[simp] theorem writeShadow_lfsr (i : Fin numCfg) (v : F) (s : State) : (writeShadow i v s).lfsr = s.lfsr := rfl
@[simp] theorem writeShadow_pitchBend (i : Fin numCfg) (v : F) (s : State) : (writeShadow i v s).pitchBend = s.pitchBend := rfl
@[simp] theorem writeShadow_modWheel (i : Fin numCfg) (v : F) (s : State) : (writeShadow i v s).modWheel = s.modWheel := rfl
@[simp] theorem writeShadow_pressure (i : Fin numCfg) (v : F) (s : State) : (writeShadow i v s).pressure = s.pressure := rfl
@[simp] theorem writeShadow_filterCtl (i : Fin numCfg) (v : F) (s : State) : (writeShadow i v s).filterCtl = s.filterCtl := rfl
@[simp] theorem writeShadow_resonanceCtl (i : Fin numCfg) (v : F) (s : State) : (writeShadow i v s).resonanceCtl = s.resonanceCtl := rfl
@[simp] theorem writeShadow_filterZip (i : Fin numCfg) (v : F) (s : State) : (writeShadow i v s).filterZip = s.filterZip := rfl
@[simp] theorem writeShadow_vibratoMod (i : Fin numCfg) (v : F) (s : State) : (writeShadow i v s).vibratoMod = s.vibratoMod := rfl
@[simp] theorem writeShadow_lfo (i : Fin numCfg) (v : F) (s : State) : (writeShadow i v s).lfo = s.lfo := rfl
@[simp] theorem writeShadow_lfoStep (i : Fin numCfg) (v : F) (s : State) : (writeShadow i v s).lfoStep = s.lfoStep := rfl
@[simp] theorem writeShadow_sustain (i : Fin numCfg) (v : F) (s : State) : (writeShadow i v s).sustain = s.sustain := rfl
@[simp] theorem writeShadow_outLevel (i : Fin numCfg) (v : F) (s : State) : (writeShadow i v s).outLevel = s.outLevel := rfl
@[simp] theorem writeShadow_oscMix (i : Fin numCfg) (v : F) (s : State) : (writeShadow i v s).oscMix = s.oscMix := rfl
@[simp] theorem writeShadow_sh (i : Fin numCfg) (v : F) (s : State) : (writeShadow i v s).sh = s.sh.set i.val v i.isLt := rfl
@[simp] theorem writeShadow_cfg (i : Fin numCfg) (v : F) (s : State) : (writeShadow i v s).cfg = s.cfg := rfl
@[simp] theorem writeShadow_dirty (i : Fin numCfg) (v : F) (s : State) : (writeShadow i v s).dirty = true := rfl
@[simp] theorem writeShadow_allocated (i : Fin numCfg) (v : F) (s : State) : (writeShadow i v s).allocated = s.allocated := rfl
@[simp] theorem writeShadow_fs (i : Fin numCfg) (v : F) (s : State) : (writeShadow i v s).fs = s.fs := rfl
@[simp] theorem writeShadow_nyq (i : Fin numCfg) (v : F) (s : State) : (writeShadow i v s).nyq = s.nyq := rfl
@[simp] theorem writeShadow_fault (i : Fin numCfg) (v : F) (s : State) : (writeShadow i v s).fault = s.fault := rfl
@[simp] theorem writeShadow_cp (i : Fin numCfg) (v : F) (s : State) : (writeShadow i v s).cp = s.cp := rfl
@[simp] theorem writeShadow_pp (i : Fin numCfg) (v : F) (s : State) : (writeShadow i v s).pp = s.pp := rfl
@[simp] theorem writeShadow_obufL (i : Fin numCfg) (v : F) (s : State) : (writeShadow i v s).obufL = s.obufL := rfl
@[simp] theorem writeShadow_obufR (i : Fin numCfg) (v : F) (s : State) : (writeShadow i v s).obufR = s.obufR := rfl
@[simp] theorem writeShadow_port (i : Fin numCfg) (v : F) (s : State) : (writeShadow i v s).port = s.port := rfl
@[simp] theorem writeShadow_cmdWords (i : Fin numCfg) (v : F) (s : State) : (writeShadow i v s).cmdWords = s.cmdWords := rfl
@[simp] theorem writeShadow_parWords (i : Fin numCfg) (v : F) (s : State) : (writeShadow i v s).parWords = s.parWords := rfl
@[simp] theorem writeShadow_sched (i : Fin numCfg) (v : F) (s : State) : (writeShadow i v s).sched = s.sched := rfl
@[simp] theorem writeShadow_params (i : Fin numCfg) (v : F) (s : State) : (writeShadow i v s).params = s.params := rfl

/-! ## `allocate`: `allocate` writes `voices`, `fs`, `nyq` and `allocated`. -/

@[simp] theorem allocate_voices (r : F) (s : State) : (allocate r s).voices = vmap (voicePrepare s.params r) s.voices := rfl
@[simp] theorem allocate_lfsr (r : F) (s : State) : (allocate r s).lfsr = s.lfsr := rfl
@[simp] theorem allocate_pitchBend (r : F) (s : State) : (allocate r s).pitchBend = s.pitchBend := rfl
@[simp] theorem allocate_modWheel (r : F) (s : State) : (allocate r s).modWheel = s.modWheel := rfl
@[simp] theorem allocate_pressure (r : F) (s : State) : (allocate r s).pressure = s.pressure := rfl
@[simp] theorem allocate_filterCtl (r : F) (s : State) : (allocate r s).filterCtl = s.filterCtl := rfl
@[simp] theorem allocate_resonanceCtl (r : F) (s : State) : (allocate r s).resonanceCtl = s.resonanceCtl := rfl
@[simp] theorem allocate_filterZip (r : F) (s : State) : (allocate r s).filterZip = s.filterZip := rfl
@[simp] theorem allocate_vibratoMod (r : F) (s : State) : (allocate r s).vibratoMod = s.vibratoMod := rfl
@[simp] theorem allocate_lfo (r : F) (s : State) : (allocate r s).lfo = s.lfo := rfl
@[simp] theorem allocate_lfoStep (r : F) (s : State) : (allocate r s).lfoStep = s.lfoStep := rfl
@[simp] theorem allocate_sustain (r : F) (s : State) : (allocate r s).sustain = s.sustain := rfl
@[simp] theorem allocate_outLevel (r : F) (s : State) : (allocate r s).outLevel = s.outLevel := rfl
@[simp] theorem allocate_oscMix (r : F) (s : State) : (allocate r s).oscMix = s.oscMix := rfl
@[simp] theorem allocate_sh (r : F) (s : State) : (allocate r s).sh = s.sh := rfl
@[simp] theorem allocate_cfg (r : F) (s : State) : (allocate r s).cfg = s.cfg := rfl
@[simp] theorem allocate_dirty (r : F) (s : State) : (allocate r s).dirty = s.dirty := rfl
@[simp] theorem allocate_allocated (r : F) (s : State) : (allocate r s).allocated = true := rfl
@[simp] theorem allocate_fs (r : F) (s : State) : (allocate r s).fs = some r := rfl
@[simp] theorem allocate_nyq (r : F) (s : State) : (allocate r s).nyq = some (F.div r f2) := rfl
@[simp] theorem allocate_fault (r : F) (s : State) : (allocate r s).fault = s.fault := rfl
@[simp] theorem allocate_cp (r : F) (s : State) : (allocate r s).cp = s.cp := rfl
@[simp] theorem allocate_pp (r : F) (s : State) : (allocate r s).pp = s.pp := rfl
@[simp] theorem allocate_obufL (r : F) (s : State) : (allocate r s).obufL = s.obufL := rfl
@[simp] theorem allocate_obufR (r : F) (s : State) : (allocate r s).obufR = s.obufR := rfl
@[simp] theorem allocate_port (r : F) (s : State) : (allocate r s).port = s.port := rfl
@[simp] theorem allocate_cmdWords (r : F) (s : State) : (allocate r s).cmdWords = s.cmdWords := rfl
@[simp] theorem allocate_parWords (r : F) (s : State) : (allocate r s).parWords = s.parWords := rfl
@[simp] theorem allocate_sched (r : F) (s : State) : (allocate r s).sched = s.sched := rfl
@[simp] theorem allocate_params (r : F) (s : State) : (allocate r s).params = s.params := rfl

/-! ## `sweep`: `sweep` writes `voices` alone. -/

@[simp] theorem sweep_voices (s : State) : (sweep s).voices = vmap (voiceSweep s.params) s.voices := rfl
@[simp] theorem sweep_lfsr (s : State) : (sweep s).lfsr = s.lfsr := rfl
@[simp] theorem sweep_pitchBend (s : State) : (sweep s).pitchBend = s.pitchBend := rfl
@[simp] theorem sweep_modWheel (s : State) : (sweep s).modWheel = s.modWheel := rfl
@[simp] theorem sweep_pressure (s : State) : (sweep s).pressure = s.pressure := rfl
@[simp] theorem sweep_filterCtl (s : State) : (sweep s).filterCtl = s.filterCtl := rfl
@[simp] theorem sweep_resonanceCtl (s : State) : (sweep s).resonanceCtl = s.resonanceCtl := rfl
@[simp] theorem sweep_filterZip (s : State) : (sweep s).filterZip = s.filterZip := rfl
@[simp] theorem sweep_vibratoMod (s : State) : (sweep s).vibratoMod = s.vibratoMod := rfl
@[simp] theorem sweep_lfo (s : State) : (sweep s).lfo = s.lfo := rfl
@[simp] theorem sweep_lfoStep (s : State) : (sweep s).lfoStep = s.lfoStep := rfl
@[simp] theorem sweep_sustain (s : State) : (sweep s).sustain = s.sustain := rfl
@[simp] theorem sweep_outLevel (s : State) : (sweep s).outLevel = s.outLevel := rfl
@[simp] theorem sweep_oscMix (s : State) : (sweep s).oscMix = s.oscMix := rfl
@[simp] theorem sweep_sh (s : State) : (sweep s).sh = s.sh := rfl
@[simp] theorem sweep_cfg (s : State) : (sweep s).cfg = s.cfg := rfl
@[simp] theorem sweep_dirty (s : State) : (sweep s).dirty = s.dirty := rfl
@[simp] theorem sweep_allocated (s : State) : (sweep s).allocated = s.allocated := rfl
@[simp] theorem sweep_fs (s : State) : (sweep s).fs = s.fs := rfl
@[simp] theorem sweep_nyq (s : State) : (sweep s).nyq = s.nyq := rfl
@[simp] theorem sweep_fault (s : State) : (sweep s).fault = s.fault := rfl
@[simp] theorem sweep_cp (s : State) : (sweep s).cp = s.cp := rfl
@[simp] theorem sweep_pp (s : State) : (sweep s).pp = s.pp := rfl
@[simp] theorem sweep_obufL (s : State) : (sweep s).obufL = s.obufL := rfl
@[simp] theorem sweep_obufR (s : State) : (sweep s).obufR = s.obufR := rfl
@[simp] theorem sweep_port (s : State) : (sweep s).port = s.port := rfl
@[simp] theorem sweep_cmdWords (s : State) : (sweep s).cmdWords = s.cmdWords := rfl
@[simp] theorem sweep_parWords (s : State) : (sweep s).parWords = s.parWords := rfl
@[simp] theorem sweep_sched (s : State) : (sweep s).sched = s.sched := rfl
@[simp] theorem sweep_params (s : State) : (sweep s).params = s.params := rfl

/-! ## `resetSynth`: `resetSynth` on every field (R54, the RESET column). -/

@[simp] theorem resetSynth_voices (s : State) : (resetSynth s).voices = vmap (voiceReset s.params) s.voices := rfl
@[simp] theorem resetSynth_lfsr (s : State) : (resetSynth s).lfsr = s.params.noiseSeed := rfl
@[simp] theorem resetSynth_pitchBend (s : State) : (resetSynth s).pitchBend = f1 := rfl
@[simp] theorem resetSynth_modWheel (s : State) : (resetSynth s).modWheel = F.zero := rfl
@[simp] theorem resetSynth_pressure (s : State) : (resetSynth s).pressure = F.zero := rfl
@[simp] theorem resetSynth_filterCtl (s : State) : (resetSynth s).filterCtl = F.zero := rfl
@[simp] theorem resetSynth_resonanceCtl (s : State) : (resetSynth s).resonanceCtl = f1 := rfl
@[simp] theorem resetSynth_filterZip (s : State) : (resetSynth s).filterZip = F.zero := rfl
@[simp] theorem resetSynth_vibratoMod (s : State) : (resetSynth s).vibratoMod = f1 := rfl
@[simp] theorem resetSynth_lfo (s : State) : (resetSynth s).lfo = F.zero := rfl
@[simp] theorem resetSynth_lfoStep (s : State) : (resetSynth s).lfoStep = 0 := rfl
@[simp] theorem resetSynth_sustain (s : State) : (resetSynth s).sustain = false := rfl
@[simp] theorem resetSynth_outLevel (s : State) : (resetSynth s).outLevel = smSnap s.outLevel := rfl
@[simp] theorem resetSynth_oscMix (s : State) : (resetSynth s).oscMix = smSnap s.oscMix := rfl
@[simp] theorem resetSynth_sh (s : State) : (resetSynth s).sh = s.sh := rfl
@[simp] theorem resetSynth_cfg (s : State) : (resetSynth s).cfg = s.cfg := rfl
@[simp] theorem resetSynth_dirty (s : State) : (resetSynth s).dirty = s.dirty := rfl
@[simp] theorem resetSynth_allocated (s : State) : (resetSynth s).allocated = s.allocated := rfl
@[simp] theorem resetSynth_fs (s : State) : (resetSynth s).fs = s.fs := rfl
@[simp] theorem resetSynth_nyq (s : State) : (resetSynth s).nyq = s.nyq := rfl
@[simp] theorem resetSynth_fault (s : State) : (resetSynth s).fault = s.fault := rfl
@[simp] theorem resetSynth_cp (s : State) : (resetSynth s).cp = s.cp := rfl
@[simp] theorem resetSynth_pp (s : State) : (resetSynth s).pp = s.pp := rfl
@[simp] theorem resetSynth_obufL (s : State) : (resetSynth s).obufL = s.obufL := rfl
@[simp] theorem resetSynth_obufR (s : State) : (resetSynth s).obufR = s.obufR := rfl
@[simp] theorem resetSynth_port (s : State) : (resetSynth s).port = s.port := rfl
@[simp] theorem resetSynth_cmdWords (s : State) : (resetSynth s).cmdWords = s.cmdWords := rfl
@[simp] theorem resetSynth_parWords (s : State) : (resetSynth s).parWords = s.parWords := rfl
@[simp] theorem resetSynth_sched (s : State) : (resetSynth s).sched = s.sched := rfl
@[simp] theorem resetSynth_params (s : State) : (resetSynth s).params = s.params := rfl

/-! ## `noteOn`: `noteOn` writes `voices` alone. -/

@[simp] theorem noteOn_lfsr (n vel : BitVec 7) (s : State) : (noteOn n vel s).lfsr = s.lfsr := rfl
@[simp] theorem noteOn_pitchBend (n vel : BitVec 7) (s : State) : (noteOn n vel s).pitchBend = s.pitchBend := rfl
@[simp] theorem noteOn_modWheel (n vel : BitVec 7) (s : State) : (noteOn n vel s).modWheel = s.modWheel := rfl
@[simp] theorem noteOn_pressure (n vel : BitVec 7) (s : State) : (noteOn n vel s).pressure = s.pressure := rfl
@[simp] theorem noteOn_filterCtl (n vel : BitVec 7) (s : State) : (noteOn n vel s).filterCtl = s.filterCtl := rfl
@[simp] theorem noteOn_resonanceCtl (n vel : BitVec 7) (s : State) : (noteOn n vel s).resonanceCtl = s.resonanceCtl := rfl
@[simp] theorem noteOn_filterZip (n vel : BitVec 7) (s : State) : (noteOn n vel s).filterZip = s.filterZip := rfl
@[simp] theorem noteOn_vibratoMod (n vel : BitVec 7) (s : State) : (noteOn n vel s).vibratoMod = s.vibratoMod := rfl
@[simp] theorem noteOn_lfo (n vel : BitVec 7) (s : State) : (noteOn n vel s).lfo = s.lfo := rfl
@[simp] theorem noteOn_lfoStep (n vel : BitVec 7) (s : State) : (noteOn n vel s).lfoStep = s.lfoStep := rfl
@[simp] theorem noteOn_sustain (n vel : BitVec 7) (s : State) : (noteOn n vel s).sustain = s.sustain := rfl
@[simp] theorem noteOn_outLevel (n vel : BitVec 7) (s : State) : (noteOn n vel s).outLevel = s.outLevel := rfl
@[simp] theorem noteOn_oscMix (n vel : BitVec 7) (s : State) : (noteOn n vel s).oscMix = s.oscMix := rfl
@[simp] theorem noteOn_sh (n vel : BitVec 7) (s : State) : (noteOn n vel s).sh = s.sh := rfl
@[simp] theorem noteOn_cfg (n vel : BitVec 7) (s : State) : (noteOn n vel s).cfg = s.cfg := rfl
@[simp] theorem noteOn_dirty (n vel : BitVec 7) (s : State) : (noteOn n vel s).dirty = s.dirty := rfl
@[simp] theorem noteOn_allocated (n vel : BitVec 7) (s : State) : (noteOn n vel s).allocated = s.allocated := rfl
@[simp] theorem noteOn_fs (n vel : BitVec 7) (s : State) : (noteOn n vel s).fs = s.fs := rfl
@[simp] theorem noteOn_nyq (n vel : BitVec 7) (s : State) : (noteOn n vel s).nyq = s.nyq := rfl
@[simp] theorem noteOn_fault (n vel : BitVec 7) (s : State) : (noteOn n vel s).fault = s.fault := rfl
@[simp] theorem noteOn_cp (n vel : BitVec 7) (s : State) : (noteOn n vel s).cp = s.cp := rfl
@[simp] theorem noteOn_pp (n vel : BitVec 7) (s : State) : (noteOn n vel s).pp = s.pp := rfl
@[simp] theorem noteOn_obufL (n vel : BitVec 7) (s : State) : (noteOn n vel s).obufL = s.obufL := rfl
@[simp] theorem noteOn_obufR (n vel : BitVec 7) (s : State) : (noteOn n vel s).obufR = s.obufR := rfl
@[simp] theorem noteOn_port (n vel : BitVec 7) (s : State) : (noteOn n vel s).port = s.port := rfl
@[simp] theorem noteOn_cmdWords (n vel : BitVec 7) (s : State) : (noteOn n vel s).cmdWords = s.cmdWords := rfl
@[simp] theorem noteOn_parWords (n vel : BitVec 7) (s : State) : (noteOn n vel s).parWords = s.parWords := rfl
@[simp] theorem noteOn_sched (n vel : BitVec 7) (s : State) : (noteOn n vel s).sched = s.sched := rfl
@[simp] theorem noteOn_params (n vel : BitVec 7) (s : State) : (noteOn n vel s).params = s.params := rfl

/-! ## `noteOff`: `noteOff` writes `voices` alone. -/

@[simp] theorem noteOff_voices (n : BitVec 7) (s : State) : (noteOff n s).voices = vmap (voiceNoteOff s.sustain n.toNat) s.voices := rfl
@[simp] theorem noteOff_lfsr (n : BitVec 7) (s : State) : (noteOff n s).lfsr = s.lfsr := rfl
@[simp] theorem noteOff_pitchBend (n : BitVec 7) (s : State) : (noteOff n s).pitchBend = s.pitchBend := rfl
@[simp] theorem noteOff_modWheel (n : BitVec 7) (s : State) : (noteOff n s).modWheel = s.modWheel := rfl
@[simp] theorem noteOff_pressure (n : BitVec 7) (s : State) : (noteOff n s).pressure = s.pressure := rfl
@[simp] theorem noteOff_filterCtl (n : BitVec 7) (s : State) : (noteOff n s).filterCtl = s.filterCtl := rfl
@[simp] theorem noteOff_resonanceCtl (n : BitVec 7) (s : State) : (noteOff n s).resonanceCtl = s.resonanceCtl := rfl
@[simp] theorem noteOff_filterZip (n : BitVec 7) (s : State) : (noteOff n s).filterZip = s.filterZip := rfl
@[simp] theorem noteOff_vibratoMod (n : BitVec 7) (s : State) : (noteOff n s).vibratoMod = s.vibratoMod := rfl
@[simp] theorem noteOff_lfo (n : BitVec 7) (s : State) : (noteOff n s).lfo = s.lfo := rfl
@[simp] theorem noteOff_lfoStep (n : BitVec 7) (s : State) : (noteOff n s).lfoStep = s.lfoStep := rfl
@[simp] theorem noteOff_sustain (n : BitVec 7) (s : State) : (noteOff n s).sustain = s.sustain := rfl
@[simp] theorem noteOff_outLevel (n : BitVec 7) (s : State) : (noteOff n s).outLevel = s.outLevel := rfl
@[simp] theorem noteOff_oscMix (n : BitVec 7) (s : State) : (noteOff n s).oscMix = s.oscMix := rfl
@[simp] theorem noteOff_sh (n : BitVec 7) (s : State) : (noteOff n s).sh = s.sh := rfl
@[simp] theorem noteOff_cfg (n : BitVec 7) (s : State) : (noteOff n s).cfg = s.cfg := rfl
@[simp] theorem noteOff_dirty (n : BitVec 7) (s : State) : (noteOff n s).dirty = s.dirty := rfl
@[simp] theorem noteOff_allocated (n : BitVec 7) (s : State) : (noteOff n s).allocated = s.allocated := rfl
@[simp] theorem noteOff_fs (n : BitVec 7) (s : State) : (noteOff n s).fs = s.fs := rfl
@[simp] theorem noteOff_nyq (n : BitVec 7) (s : State) : (noteOff n s).nyq = s.nyq := rfl
@[simp] theorem noteOff_fault (n : BitVec 7) (s : State) : (noteOff n s).fault = s.fault := rfl
@[simp] theorem noteOff_cp (n : BitVec 7) (s : State) : (noteOff n s).cp = s.cp := rfl
@[simp] theorem noteOff_pp (n : BitVec 7) (s : State) : (noteOff n s).pp = s.pp := rfl
@[simp] theorem noteOff_obufL (n : BitVec 7) (s : State) : (noteOff n s).obufL = s.obufL := rfl
@[simp] theorem noteOff_obufR (n : BitVec 7) (s : State) : (noteOff n s).obufR = s.obufR := rfl
@[simp] theorem noteOff_port (n : BitVec 7) (s : State) : (noteOff n s).port = s.port := rfl
@[simp] theorem noteOff_cmdWords (n : BitVec 7) (s : State) : (noteOff n s).cmdWords = s.cmdWords := rfl
@[simp] theorem noteOff_parWords (n : BitVec 7) (s : State) : (noteOff n s).parWords = s.parWords := rfl
@[simp] theorem noteOff_sched (n : BitVec 7) (s : State) : (noteOff n s).sched = s.sched := rfl
@[simp] theorem noteOff_params (n : BitVec 7) (s : State) : (noteOff n s).params = s.params := rfl

/-! ## `allNotesOff`: `allNotesOff` writes `voices` and `sustain`. -/

@[simp] theorem allNotesOff_voices (s : State) : (allNotesOff s).voices = vmap (voiceReset s.params) s.voices := rfl
@[simp] theorem allNotesOff_lfsr (s : State) : (allNotesOff s).lfsr = s.lfsr := rfl
@[simp] theorem allNotesOff_pitchBend (s : State) : (allNotesOff s).pitchBend = s.pitchBend := rfl
@[simp] theorem allNotesOff_modWheel (s : State) : (allNotesOff s).modWheel = s.modWheel := rfl
@[simp] theorem allNotesOff_pressure (s : State) : (allNotesOff s).pressure = s.pressure := rfl
@[simp] theorem allNotesOff_filterCtl (s : State) : (allNotesOff s).filterCtl = s.filterCtl := rfl
@[simp] theorem allNotesOff_resonanceCtl (s : State) : (allNotesOff s).resonanceCtl = s.resonanceCtl := rfl
@[simp] theorem allNotesOff_filterZip (s : State) : (allNotesOff s).filterZip = s.filterZip := rfl
@[simp] theorem allNotesOff_vibratoMod (s : State) : (allNotesOff s).vibratoMod = s.vibratoMod := rfl
@[simp] theorem allNotesOff_lfo (s : State) : (allNotesOff s).lfo = s.lfo := rfl
@[simp] theorem allNotesOff_lfoStep (s : State) : (allNotesOff s).lfoStep = s.lfoStep := rfl
@[simp] theorem allNotesOff_sustain (s : State) : (allNotesOff s).sustain = false := rfl
@[simp] theorem allNotesOff_outLevel (s : State) : (allNotesOff s).outLevel = s.outLevel := rfl
@[simp] theorem allNotesOff_oscMix (s : State) : (allNotesOff s).oscMix = s.oscMix := rfl
@[simp] theorem allNotesOff_sh (s : State) : (allNotesOff s).sh = s.sh := rfl
@[simp] theorem allNotesOff_cfg (s : State) : (allNotesOff s).cfg = s.cfg := rfl
@[simp] theorem allNotesOff_dirty (s : State) : (allNotesOff s).dirty = s.dirty := rfl
@[simp] theorem allNotesOff_allocated (s : State) : (allNotesOff s).allocated = s.allocated := rfl
@[simp] theorem allNotesOff_fs (s : State) : (allNotesOff s).fs = s.fs := rfl
@[simp] theorem allNotesOff_nyq (s : State) : (allNotesOff s).nyq = s.nyq := rfl
@[simp] theorem allNotesOff_fault (s : State) : (allNotesOff s).fault = s.fault := rfl
@[simp] theorem allNotesOff_cp (s : State) : (allNotesOff s).cp = s.cp := rfl
@[simp] theorem allNotesOff_pp (s : State) : (allNotesOff s).pp = s.pp := rfl
@[simp] theorem allNotesOff_obufL (s : State) : (allNotesOff s).obufL = s.obufL := rfl
@[simp] theorem allNotesOff_obufR (s : State) : (allNotesOff s).obufR = s.obufR := rfl
@[simp] theorem allNotesOff_port (s : State) : (allNotesOff s).port = s.port := rfl
@[simp] theorem allNotesOff_cmdWords (s : State) : (allNotesOff s).cmdWords = s.cmdWords := rfl
@[simp] theorem allNotesOff_parWords (s : State) : (allNotesOff s).parWords = s.parWords := rfl
@[simp] theorem allNotesOff_sched (s : State) : (allNotesOff s).sched = s.sched := rfl
@[simp] theorem allNotesOff_params (s : State) : (allNotesOff s).params = s.params := rfl

/-! ## `State.advance`: `State.advance` writes `cp` or `pp`. -/

@[simp] theorem State.advance_voices (s : State) : s.advance.voices = s.voices := by cases s; rename_i p _ _ _ _; cases p <;> rfl
@[simp] theorem State.advance_lfsr (s : State) : s.advance.lfsr = s.lfsr := by cases s; rename_i p _ _ _ _; cases p <;> rfl
@[simp] theorem State.advance_pitchBend (s : State) : s.advance.pitchBend = s.pitchBend := by cases s; rename_i p _ _ _ _; cases p <;> rfl
@[simp] theorem State.advance_modWheel (s : State) : s.advance.modWheel = s.modWheel := by cases s; rename_i p _ _ _ _; cases p <;> rfl
@[simp] theorem State.advance_pressure (s : State) : s.advance.pressure = s.pressure := by cases s; rename_i p _ _ _ _; cases p <;> rfl
@[simp] theorem State.advance_filterCtl (s : State) : s.advance.filterCtl = s.filterCtl := by cases s; rename_i p _ _ _ _; cases p <;> rfl
@[simp] theorem State.advance_resonanceCtl (s : State) : s.advance.resonanceCtl = s.resonanceCtl := by cases s; rename_i p _ _ _ _; cases p <;> rfl
@[simp] theorem State.advance_filterZip (s : State) : s.advance.filterZip = s.filterZip := by cases s; rename_i p _ _ _ _; cases p <;> rfl
@[simp] theorem State.advance_vibratoMod (s : State) : s.advance.vibratoMod = s.vibratoMod := by cases s; rename_i p _ _ _ _; cases p <;> rfl
@[simp] theorem State.advance_lfo (s : State) : s.advance.lfo = s.lfo := by cases s; rename_i p _ _ _ _; cases p <;> rfl
@[simp] theorem State.advance_lfoStep (s : State) : s.advance.lfoStep = s.lfoStep := by cases s; rename_i p _ _ _ _; cases p <;> rfl
@[simp] theorem State.advance_sustain (s : State) : s.advance.sustain = s.sustain := by cases s; rename_i p _ _ _ _; cases p <;> rfl
@[simp] theorem State.advance_outLevel (s : State) : s.advance.outLevel = s.outLevel := by cases s; rename_i p _ _ _ _; cases p <;> rfl
@[simp] theorem State.advance_oscMix (s : State) : s.advance.oscMix = s.oscMix := by cases s; rename_i p _ _ _ _; cases p <;> rfl
@[simp] theorem State.advance_sh (s : State) : s.advance.sh = s.sh := by cases s; rename_i p _ _ _ _; cases p <;> rfl
@[simp] theorem State.advance_cfg (s : State) : s.advance.cfg = s.cfg := by cases s; rename_i p _ _ _ _; cases p <;> rfl
@[simp] theorem State.advance_dirty (s : State) : s.advance.dirty = s.dirty := by cases s; rename_i p _ _ _ _; cases p <;> rfl
@[simp] theorem State.advance_allocated (s : State) : s.advance.allocated = s.allocated := by cases s; rename_i p _ _ _ _; cases p <;> rfl
@[simp] theorem State.advance_fs (s : State) : s.advance.fs = s.fs := by cases s; rename_i p _ _ _ _; cases p <;> rfl
@[simp] theorem State.advance_nyq (s : State) : s.advance.nyq = s.nyq := by cases s; rename_i p _ _ _ _; cases p <;> rfl
@[simp] theorem State.advance_fault (s : State) : s.advance.fault = s.fault := by cases s; rename_i p _ _ _ _; cases p <;> rfl
@[simp] theorem State.advance_obufL (s : State) : s.advance.obufL = s.obufL := by cases s; rename_i p _ _ _ _; cases p <;> rfl
@[simp] theorem State.advance_obufR (s : State) : s.advance.obufR = s.obufR := by cases s; rename_i p _ _ _ _; cases p <;> rfl
@[simp] theorem State.advance_port (s : State) : s.advance.port = s.port := by cases s; rename_i p _ _ _ _; cases p <;> rfl
@[simp] theorem State.advance_cmdWords (s : State) : s.advance.cmdWords = s.cmdWords := by cases s; rename_i p _ _ _ _; cases p <;> rfl
@[simp] theorem State.advance_parWords (s : State) : s.advance.parWords = s.parWords := by cases s; rename_i p _ _ _ _; cases p <;> rfl
@[simp] theorem State.advance_sched (s : State) : s.advance.sched = s.sched := by cases s; rename_i p _ _ _ _; cases p <;> rfl
@[simp] theorem State.advance_params (s : State) : s.advance.params = s.params := by cases s; rename_i p _ _ _ _; cases p <;> rfl

/-! ## `latch`: `latch` on every field (R203). -/

@[simp] theorem latch_voices (s : State) : (latch s).voices = s.voices := by unfold latch; split <;> simp_all
@[simp] theorem latch_lfsr (s : State) : (latch s).lfsr = s.lfsr := by unfold latch; split <;> simp_all
@[simp] theorem latch_pitchBend (s : State) : (latch s).pitchBend = s.pitchBend := by unfold latch; split <;> simp_all
@[simp] theorem latch_modWheel (s : State) : (latch s).modWheel = s.modWheel := by unfold latch; split <;> simp_all
@[simp] theorem latch_pressure (s : State) : (latch s).pressure = s.pressure := by unfold latch; split <;> simp_all
@[simp] theorem latch_filterCtl (s : State) : (latch s).filterCtl = s.filterCtl := by unfold latch; split <;> simp_all
@[simp] theorem latch_resonanceCtl (s : State) : (latch s).resonanceCtl = s.resonanceCtl := by unfold latch; split <;> simp_all
@[simp] theorem latch_filterZip (s : State) : (latch s).filterZip = s.filterZip := by unfold latch; split <;> simp_all
@[simp] theorem latch_vibratoMod (s : State) : (latch s).vibratoMod = s.vibratoMod := by unfold latch; split <;> simp_all
@[simp] theorem latch_lfo (s : State) : (latch s).lfo = s.lfo := by unfold latch; split <;> simp_all
@[simp] theorem latch_lfoStep (s : State) : (latch s).lfoStep = s.lfoStep := by unfold latch; split <;> simp_all
@[simp] theorem latch_sustain (s : State) : (latch s).sustain = s.sustain := by unfold latch; split <;> simp_all
@[simp] theorem latch_outLevel (s : State) : (latch s).outLevel = if s.dirty then smSetTarget s.params.smoothN s.outLevel (s.shReg .outputLevel) else s.outLevel := by unfold latch; split <;> simp_all
@[simp] theorem latch_oscMix (s : State) : (latch s).oscMix = if s.dirty then smSetTarget s.params.smoothN s.oscMix (s.shReg .oscMix) else s.oscMix := by unfold latch; split <;> simp_all
@[simp] theorem latch_sh (s : State) : (latch s).sh = s.sh := by unfold latch; split <;> simp_all
@[simp] theorem latch_cfg (s : State) : (latch s).cfg = if s.dirty then s.sh else s.cfg := by unfold latch; split <;> simp_all
@[simp] theorem latch_dirty (s : State) : (latch s).dirty = false := by unfold latch; split <;> simp_all
@[simp] theorem latch_allocated (s : State) : (latch s).allocated = s.allocated := by unfold latch; split <;> simp_all
@[simp] theorem latch_fs (s : State) : (latch s).fs = s.fs := by unfold latch; split <;> simp_all
@[simp] theorem latch_nyq (s : State) : (latch s).nyq = s.nyq := by unfold latch; split <;> simp_all
@[simp] theorem latch_fault (s : State) : (latch s).fault = s.fault := by unfold latch; split <;> simp_all
@[simp] theorem latch_cp (s : State) : (latch s).cp = s.cp := by unfold latch; split <;> simp_all
@[simp] theorem latch_pp (s : State) : (latch s).pp = s.pp := by unfold latch; split <;> simp_all
@[simp] theorem latch_obufL (s : State) : (latch s).obufL = s.obufL := by unfold latch; split <;> simp_all
@[simp] theorem latch_obufR (s : State) : (latch s).obufR = s.obufR := by unfold latch; split <;> simp_all
@[simp] theorem latch_port (s : State) : (latch s).port = s.port := by unfold latch; split <;> simp_all
@[simp] theorem latch_cmdWords (s : State) : (latch s).cmdWords = s.cmdWords := by unfold latch; split <;> simp_all
@[simp] theorem latch_parWords (s : State) : (latch s).parWords = s.parWords := by unfold latch; split <;> simp_all
@[simp] theorem latch_sched (s : State) : (latch s).sched = s.sched := by unfold latch; split <;> simp_all
@[simp] theorem latch_params (s : State) : (latch s).params = s.params := by unfold latch; split <;> simp_all

/-! ## `lfoDecimate`: `lfoDecimate` writes the LFO's registers and `voices` (R207). -/

@[simp] theorem lfoDecimate_lfsr (s : State) : (lfoDecimate s).lfsr = s.lfsr := by unfold lfoDecimate; split <;> rfl
@[simp] theorem lfoDecimate_pitchBend (s : State) : (lfoDecimate s).pitchBend = s.pitchBend := by unfold lfoDecimate; split <;> rfl
@[simp] theorem lfoDecimate_modWheel (s : State) : (lfoDecimate s).modWheel = s.modWheel := by unfold lfoDecimate; split <;> rfl
@[simp] theorem lfoDecimate_pressure (s : State) : (lfoDecimate s).pressure = s.pressure := by unfold lfoDecimate; split <;> rfl
@[simp] theorem lfoDecimate_filterCtl (s : State) : (lfoDecimate s).filterCtl = s.filterCtl := by unfold lfoDecimate; split <;> rfl
@[simp] theorem lfoDecimate_resonanceCtl (s : State) : (lfoDecimate s).resonanceCtl = s.resonanceCtl := by unfold lfoDecimate; split <;> rfl
@[simp] theorem lfoDecimate_lfoStep (s : State) : (lfoDecimate s).lfoStep = if s.lfoStep - 1 ≤ 0 then (s.params.lfoMax : Int) else s.lfoStep - 1 := by unfold lfoDecimate; split <;> rfl
@[simp] theorem lfoDecimate_sustain (s : State) : (lfoDecimate s).sustain = s.sustain := by unfold lfoDecimate; split <;> rfl
@[simp] theorem lfoDecimate_outLevel (s : State) : (lfoDecimate s).outLevel = s.outLevel := by unfold lfoDecimate; split <;> rfl
@[simp] theorem lfoDecimate_oscMix (s : State) : (lfoDecimate s).oscMix = s.oscMix := by unfold lfoDecimate; split <;> rfl
@[simp] theorem lfoDecimate_sh (s : State) : (lfoDecimate s).sh = s.sh := by unfold lfoDecimate; split <;> rfl
@[simp] theorem lfoDecimate_cfg (s : State) : (lfoDecimate s).cfg = s.cfg := by unfold lfoDecimate; split <;> rfl
@[simp] theorem lfoDecimate_dirty (s : State) : (lfoDecimate s).dirty = s.dirty := by unfold lfoDecimate; split <;> rfl
@[simp] theorem lfoDecimate_allocated (s : State) : (lfoDecimate s).allocated = s.allocated := by unfold lfoDecimate; split <;> rfl
@[simp] theorem lfoDecimate_fs (s : State) : (lfoDecimate s).fs = s.fs := by unfold lfoDecimate; split <;> rfl
@[simp] theorem lfoDecimate_nyq (s : State) : (lfoDecimate s).nyq = s.nyq := by unfold lfoDecimate; split <;> rfl
@[simp] theorem lfoDecimate_fault (s : State) : (lfoDecimate s).fault = s.fault := by unfold lfoDecimate; split <;> rfl
@[simp] theorem lfoDecimate_cp (s : State) : (lfoDecimate s).cp = s.cp := by unfold lfoDecimate; split <;> rfl
@[simp] theorem lfoDecimate_pp (s : State) : (lfoDecimate s).pp = s.pp := by unfold lfoDecimate; split <;> rfl
@[simp] theorem lfoDecimate_obufL (s : State) : (lfoDecimate s).obufL = s.obufL := by unfold lfoDecimate; split <;> rfl
@[simp] theorem lfoDecimate_obufR (s : State) : (lfoDecimate s).obufR = s.obufR := by unfold lfoDecimate; split <;> rfl
@[simp] theorem lfoDecimate_port (s : State) : (lfoDecimate s).port = s.port := by unfold lfoDecimate; split <;> rfl
@[simp] theorem lfoDecimate_cmdWords (s : State) : (lfoDecimate s).cmdWords = s.cmdWords := by unfold lfoDecimate; split <;> rfl
@[simp] theorem lfoDecimate_parWords (s : State) : (lfoDecimate s).parWords = s.parWords := by unfold lfoDecimate; split <;> rfl
@[simp] theorem lfoDecimate_sched (s : State) : (lfoDecimate s).sched = s.sched := by unfold lfoDecimate; split <;> rfl
@[simp] theorem lfoDecimate_params (s : State) : (lfoDecimate s).params = s.params := by unfold lfoDecimate; split <;> rfl

/-! ## `frameInputs`: `frameInputs` on every field (R202 (1) to (3)). -/

@[simp] theorem frameInputs_voices (s : State) : (frameInputs s).voices = (lfoDecimate s).voices := by simp [frameInputs]
@[simp] theorem frameInputs_lfsr (s : State) : (frameInputs s).lfsr = noiseAdvance s.params s.lfsr := by simp [frameInputs]
@[simp] theorem frameInputs_pitchBend (s : State) : (frameInputs s).pitchBend = s.pitchBend := by simp [frameInputs]
@[simp] theorem frameInputs_modWheel (s : State) : (frameInputs s).modWheel = s.modWheel := by simp [frameInputs]
@[simp] theorem frameInputs_pressure (s : State) : (frameInputs s).pressure = s.pressure := by simp [frameInputs]
@[simp] theorem frameInputs_filterCtl (s : State) : (frameInputs s).filterCtl = s.filterCtl := by simp [frameInputs]
@[simp] theorem frameInputs_resonanceCtl (s : State) : (frameInputs s).resonanceCtl = s.resonanceCtl := by simp [frameInputs]
@[simp] theorem frameInputs_filterZip (s : State) : (frameInputs s).filterZip = (lfoDecimate s).filterZip := by simp [frameInputs]
@[simp] theorem frameInputs_vibratoMod (s : State) : (frameInputs s).vibratoMod = (lfoDecimate s).vibratoMod := by simp [frameInputs]
@[simp] theorem frameInputs_lfo (s : State) : (frameInputs s).lfo = (lfoDecimate s).lfo := by simp [frameInputs]
@[simp] theorem frameInputs_lfoStep (s : State) : (frameInputs s).lfoStep = (lfoDecimate s).lfoStep := by simp [frameInputs]
@[simp] theorem frameInputs_sustain (s : State) : (frameInputs s).sustain = s.sustain := by simp [frameInputs]
@[simp] theorem frameInputs_outLevel (s : State) : (frameInputs s).outLevel = s.outLevel := by simp [frameInputs]
@[simp] theorem frameInputs_oscMix (s : State) : (frameInputs s).oscMix = smNext s.oscMix := by simp [frameInputs]
@[simp] theorem frameInputs_sh (s : State) : (frameInputs s).sh = s.sh := by simp [frameInputs]
@[simp] theorem frameInputs_cfg (s : State) : (frameInputs s).cfg = s.cfg := by simp [frameInputs]
@[simp] theorem frameInputs_dirty (s : State) : (frameInputs s).dirty = s.dirty := by simp [frameInputs]
@[simp] theorem frameInputs_allocated (s : State) : (frameInputs s).allocated = s.allocated := by simp [frameInputs]
@[simp] theorem frameInputs_fs (s : State) : (frameInputs s).fs = s.fs := by simp [frameInputs]
@[simp] theorem frameInputs_nyq (s : State) : (frameInputs s).nyq = s.nyq := by simp [frameInputs]
@[simp] theorem frameInputs_fault (s : State) : (frameInputs s).fault = s.fault := by simp [frameInputs]
@[simp] theorem frameInputs_cp (s : State) : (frameInputs s).cp = s.cp := by simp [frameInputs]
@[simp] theorem frameInputs_pp (s : State) : (frameInputs s).pp = s.pp := by simp [frameInputs]
@[simp] theorem frameInputs_obufL (s : State) : (frameInputs s).obufL = s.obufL := by simp [frameInputs]
@[simp] theorem frameInputs_obufR (s : State) : (frameInputs s).obufR = s.obufR := by simp [frameInputs]
@[simp] theorem frameInputs_port (s : State) : (frameInputs s).port = s.port := by simp [frameInputs]
@[simp] theorem frameInputs_cmdWords (s : State) : (frameInputs s).cmdWords = s.cmdWords := by simp [frameInputs]
@[simp] theorem frameInputs_parWords (s : State) : (frameInputs s).parWords = s.parWords := by simp [frameInputs]
@[simp] theorem frameInputs_sched (s : State) : (frameInputs s).sched = s.sched := by simp [frameInputs]
@[simp] theorem frameInputs_params (s : State) : (frameInputs s).params = s.params := by simp [frameInputs]

/-! ## `renderVoices`: `renderVoices` writes `voices` and `fault`. -/

@[simp] theorem renderVoices_voices (s : State) (noise mix : F) : (renderVoices s noise mix).voices = vmap (voiceFrame s noise mix) s.voices := by unfold renderVoices; split <;> rfl
@[simp] theorem renderVoices_lfsr (s : State) (noise mix : F) : (renderVoices s noise mix).lfsr = s.lfsr := by unfold renderVoices; split <;> rfl
@[simp] theorem renderVoices_pitchBend (s : State) (noise mix : F) : (renderVoices s noise mix).pitchBend = s.pitchBend := by unfold renderVoices; split <;> rfl
@[simp] theorem renderVoices_modWheel (s : State) (noise mix : F) : (renderVoices s noise mix).modWheel = s.modWheel := by unfold renderVoices; split <;> rfl
@[simp] theorem renderVoices_pressure (s : State) (noise mix : F) : (renderVoices s noise mix).pressure = s.pressure := by unfold renderVoices; split <;> rfl
@[simp] theorem renderVoices_filterCtl (s : State) (noise mix : F) : (renderVoices s noise mix).filterCtl = s.filterCtl := by unfold renderVoices; split <;> rfl
@[simp] theorem renderVoices_resonanceCtl (s : State) (noise mix : F) : (renderVoices s noise mix).resonanceCtl = s.resonanceCtl := by unfold renderVoices; split <;> rfl
@[simp] theorem renderVoices_filterZip (s : State) (noise mix : F) : (renderVoices s noise mix).filterZip = s.filterZip := by unfold renderVoices; split <;> rfl
@[simp] theorem renderVoices_vibratoMod (s : State) (noise mix : F) : (renderVoices s noise mix).vibratoMod = s.vibratoMod := by unfold renderVoices; split <;> rfl
@[simp] theorem renderVoices_lfo (s : State) (noise mix : F) : (renderVoices s noise mix).lfo = s.lfo := by unfold renderVoices; split <;> rfl
@[simp] theorem renderVoices_lfoStep (s : State) (noise mix : F) : (renderVoices s noise mix).lfoStep = s.lfoStep := by unfold renderVoices; split <;> rfl
@[simp] theorem renderVoices_sustain (s : State) (noise mix : F) : (renderVoices s noise mix).sustain = s.sustain := by unfold renderVoices; split <;> rfl
@[simp] theorem renderVoices_outLevel (s : State) (noise mix : F) : (renderVoices s noise mix).outLevel = s.outLevel := by unfold renderVoices; split <;> rfl
@[simp] theorem renderVoices_oscMix (s : State) (noise mix : F) : (renderVoices s noise mix).oscMix = s.oscMix := by unfold renderVoices; split <;> rfl
@[simp] theorem renderVoices_sh (s : State) (noise mix : F) : (renderVoices s noise mix).sh = s.sh := by unfold renderVoices; split <;> rfl
@[simp] theorem renderVoices_cfg (s : State) (noise mix : F) : (renderVoices s noise mix).cfg = s.cfg := by unfold renderVoices; split <;> rfl
@[simp] theorem renderVoices_dirty (s : State) (noise mix : F) : (renderVoices s noise mix).dirty = s.dirty := by unfold renderVoices; split <;> rfl
@[simp] theorem renderVoices_allocated (s : State) (noise mix : F) : (renderVoices s noise mix).allocated = s.allocated := by unfold renderVoices; split <;> rfl
@[simp] theorem renderVoices_fs (s : State) (noise mix : F) : (renderVoices s noise mix).fs = s.fs := by unfold renderVoices; split <;> rfl
@[simp] theorem renderVoices_nyq (s : State) (noise mix : F) : (renderVoices s noise mix).nyq = s.nyq := by unfold renderVoices; split <;> rfl
@[simp] theorem renderVoices_cp (s : State) (noise mix : F) : (renderVoices s noise mix).cp = s.cp := by unfold renderVoices; split <;> rfl
@[simp] theorem renderVoices_pp (s : State) (noise mix : F) : (renderVoices s noise mix).pp = s.pp := by unfold renderVoices; split <;> rfl
@[simp] theorem renderVoices_obufL (s : State) (noise mix : F) : (renderVoices s noise mix).obufL = s.obufL := by unfold renderVoices; split <;> rfl
@[simp] theorem renderVoices_obufR (s : State) (noise mix : F) : (renderVoices s noise mix).obufR = s.obufR := by unfold renderVoices; split <;> rfl
@[simp] theorem renderVoices_port (s : State) (noise mix : F) : (renderVoices s noise mix).port = s.port := by unfold renderVoices; split <;> rfl
@[simp] theorem renderVoices_cmdWords (s : State) (noise mix : F) : (renderVoices s noise mix).cmdWords = s.cmdWords := by unfold renderVoices; split <;> rfl
@[simp] theorem renderVoices_parWords (s : State) (noise mix : F) : (renderVoices s noise mix).parWords = s.parWords := by unfold renderVoices; split <;> rfl
@[simp] theorem renderVoices_sched (s : State) (noise mix : F) : (renderVoices s noise mix).sched = s.sched := by unfold renderVoices; split <;> rfl
@[simp] theorem renderVoices_params (s : State) (noise mix : F) : (renderVoices s noise mix).params = s.params := by unfold renderVoices; split <;> rfl

/-! ## `storeFrame`: `storeFrame` writes the output buffers. -/

@[simp] theorem storeFrame_voices (chan : BitVec 8) (k : Nat) (l r : F) (s : State) : (storeFrame chan k l r s).voices = s.voices := by unfold storeFrame; split <;> rfl
@[simp] theorem storeFrame_lfsr (chan : BitVec 8) (k : Nat) (l r : F) (s : State) : (storeFrame chan k l r s).lfsr = s.lfsr := by unfold storeFrame; split <;> rfl
@[simp] theorem storeFrame_pitchBend (chan : BitVec 8) (k : Nat) (l r : F) (s : State) : (storeFrame chan k l r s).pitchBend = s.pitchBend := by unfold storeFrame; split <;> rfl
@[simp] theorem storeFrame_modWheel (chan : BitVec 8) (k : Nat) (l r : F) (s : State) : (storeFrame chan k l r s).modWheel = s.modWheel := by unfold storeFrame; split <;> rfl
@[simp] theorem storeFrame_pressure (chan : BitVec 8) (k : Nat) (l r : F) (s : State) : (storeFrame chan k l r s).pressure = s.pressure := by unfold storeFrame; split <;> rfl
@[simp] theorem storeFrame_filterCtl (chan : BitVec 8) (k : Nat) (l r : F) (s : State) : (storeFrame chan k l r s).filterCtl = s.filterCtl := by unfold storeFrame; split <;> rfl
@[simp] theorem storeFrame_resonanceCtl (chan : BitVec 8) (k : Nat) (l r : F) (s : State) : (storeFrame chan k l r s).resonanceCtl = s.resonanceCtl := by unfold storeFrame; split <;> rfl
@[simp] theorem storeFrame_filterZip (chan : BitVec 8) (k : Nat) (l r : F) (s : State) : (storeFrame chan k l r s).filterZip = s.filterZip := by unfold storeFrame; split <;> rfl
@[simp] theorem storeFrame_vibratoMod (chan : BitVec 8) (k : Nat) (l r : F) (s : State) : (storeFrame chan k l r s).vibratoMod = s.vibratoMod := by unfold storeFrame; split <;> rfl
@[simp] theorem storeFrame_lfo (chan : BitVec 8) (k : Nat) (l r : F) (s : State) : (storeFrame chan k l r s).lfo = s.lfo := by unfold storeFrame; split <;> rfl
@[simp] theorem storeFrame_lfoStep (chan : BitVec 8) (k : Nat) (l r : F) (s : State) : (storeFrame chan k l r s).lfoStep = s.lfoStep := by unfold storeFrame; split <;> rfl
@[simp] theorem storeFrame_sustain (chan : BitVec 8) (k : Nat) (l r : F) (s : State) : (storeFrame chan k l r s).sustain = s.sustain := by unfold storeFrame; split <;> rfl
@[simp] theorem storeFrame_outLevel (chan : BitVec 8) (k : Nat) (l r : F) (s : State) : (storeFrame chan k l r s).outLevel = s.outLevel := by unfold storeFrame; split <;> rfl
@[simp] theorem storeFrame_oscMix (chan : BitVec 8) (k : Nat) (l r : F) (s : State) : (storeFrame chan k l r s).oscMix = s.oscMix := by unfold storeFrame; split <;> rfl
@[simp] theorem storeFrame_sh (chan : BitVec 8) (k : Nat) (l r : F) (s : State) : (storeFrame chan k l r s).sh = s.sh := by unfold storeFrame; split <;> rfl
@[simp] theorem storeFrame_cfg (chan : BitVec 8) (k : Nat) (l r : F) (s : State) : (storeFrame chan k l r s).cfg = s.cfg := by unfold storeFrame; split <;> rfl
@[simp] theorem storeFrame_dirty (chan : BitVec 8) (k : Nat) (l r : F) (s : State) : (storeFrame chan k l r s).dirty = s.dirty := by unfold storeFrame; split <;> rfl
@[simp] theorem storeFrame_allocated (chan : BitVec 8) (k : Nat) (l r : F) (s : State) : (storeFrame chan k l r s).allocated = s.allocated := by unfold storeFrame; split <;> rfl
@[simp] theorem storeFrame_fs (chan : BitVec 8) (k : Nat) (l r : F) (s : State) : (storeFrame chan k l r s).fs = s.fs := by unfold storeFrame; split <;> rfl
@[simp] theorem storeFrame_nyq (chan : BitVec 8) (k : Nat) (l r : F) (s : State) : (storeFrame chan k l r s).nyq = s.nyq := by unfold storeFrame; split <;> rfl
@[simp] theorem storeFrame_fault (chan : BitVec 8) (k : Nat) (l r : F) (s : State) : (storeFrame chan k l r s).fault = s.fault := by unfold storeFrame; split <;> rfl
@[simp] theorem storeFrame_cp (chan : BitVec 8) (k : Nat) (l r : F) (s : State) : (storeFrame chan k l r s).cp = s.cp := by unfold storeFrame; split <;> rfl
@[simp] theorem storeFrame_pp (chan : BitVec 8) (k : Nat) (l r : F) (s : State) : (storeFrame chan k l r s).pp = s.pp := by unfold storeFrame; split <;> rfl
@[simp] theorem storeFrame_port (chan : BitVec 8) (k : Nat) (l r : F) (s : State) : (storeFrame chan k l r s).port = s.port := by unfold storeFrame; split <;> rfl
@[simp] theorem storeFrame_cmdWords (chan : BitVec 8) (k : Nat) (l r : F) (s : State) : (storeFrame chan k l r s).cmdWords = s.cmdWords := by unfold storeFrame; split <;> rfl
@[simp] theorem storeFrame_parWords (chan : BitVec 8) (k : Nat) (l r : F) (s : State) : (storeFrame chan k l r s).parWords = s.parWords := by unfold storeFrame; split <;> rfl
@[simp] theorem storeFrame_sched (chan : BitVec 8) (k : Nat) (l r : F) (s : State) : (storeFrame chan k l r s).sched = s.sched := by unfold storeFrame; split <;> rfl
@[simp] theorem storeFrame_params (chan : BitVec 8) (k : Nat) (l r : F) (s : State) : (storeFrame chan k l r s).params = s.params := by unfold storeFrame; split <;> rfl

/-! ## `frameOutputs`: `frameOutputs` on the fields it leaves and the ones that do not depend on `chan` (R202 (4) to (6)). -/

@[simp] theorem frameOutputs_voices (chan : BitVec 8) (k : Nat) (s : State) : (frameOutputs chan k s).voices = vmap (voiceFrame s (frameNoise s) s.oscMix.cur) s.voices := by simp [frameOutputs]
@[simp] theorem frameOutputs_lfsr (chan : BitVec 8) (k : Nat) (s : State) : (frameOutputs chan k s).lfsr = s.lfsr := by simp [frameOutputs]
@[simp] theorem frameOutputs_pitchBend (chan : BitVec 8) (k : Nat) (s : State) : (frameOutputs chan k s).pitchBend = s.pitchBend := by simp [frameOutputs]
@[simp] theorem frameOutputs_modWheel (chan : BitVec 8) (k : Nat) (s : State) : (frameOutputs chan k s).modWheel = s.modWheel := by simp [frameOutputs]
@[simp] theorem frameOutputs_pressure (chan : BitVec 8) (k : Nat) (s : State) : (frameOutputs chan k s).pressure = s.pressure := by simp [frameOutputs]
@[simp] theorem frameOutputs_filterCtl (chan : BitVec 8) (k : Nat) (s : State) : (frameOutputs chan k s).filterCtl = s.filterCtl := by simp [frameOutputs]
@[simp] theorem frameOutputs_resonanceCtl (chan : BitVec 8) (k : Nat) (s : State) : (frameOutputs chan k s).resonanceCtl = s.resonanceCtl := by simp [frameOutputs]
@[simp] theorem frameOutputs_filterZip (chan : BitVec 8) (k : Nat) (s : State) : (frameOutputs chan k s).filterZip = s.filterZip := by simp [frameOutputs]
@[simp] theorem frameOutputs_vibratoMod (chan : BitVec 8) (k : Nat) (s : State) : (frameOutputs chan k s).vibratoMod = s.vibratoMod := by simp [frameOutputs]
@[simp] theorem frameOutputs_lfo (chan : BitVec 8) (k : Nat) (s : State) : (frameOutputs chan k s).lfo = s.lfo := by simp [frameOutputs]
@[simp] theorem frameOutputs_lfoStep (chan : BitVec 8) (k : Nat) (s : State) : (frameOutputs chan k s).lfoStep = s.lfoStep := by simp [frameOutputs]
@[simp] theorem frameOutputs_sustain (chan : BitVec 8) (k : Nat) (s : State) : (frameOutputs chan k s).sustain = s.sustain := by simp [frameOutputs]
@[simp] theorem frameOutputs_outLevel (chan : BitVec 8) (k : Nat) (s : State) : (frameOutputs chan k s).outLevel = smNext s.outLevel := by simp [frameOutputs]
@[simp] theorem frameOutputs_oscMix (chan : BitVec 8) (k : Nat) (s : State) : (frameOutputs chan k s).oscMix = s.oscMix := by simp [frameOutputs]
@[simp] theorem frameOutputs_sh (chan : BitVec 8) (k : Nat) (s : State) : (frameOutputs chan k s).sh = s.sh := by simp [frameOutputs]
@[simp] theorem frameOutputs_cfg (chan : BitVec 8) (k : Nat) (s : State) : (frameOutputs chan k s).cfg = s.cfg := by simp [frameOutputs]
@[simp] theorem frameOutputs_dirty (chan : BitVec 8) (k : Nat) (s : State) : (frameOutputs chan k s).dirty = s.dirty := by simp [frameOutputs]
@[simp] theorem frameOutputs_allocated (chan : BitVec 8) (k : Nat) (s : State) : (frameOutputs chan k s).allocated = s.allocated := by simp [frameOutputs]
@[simp] theorem frameOutputs_fs (chan : BitVec 8) (k : Nat) (s : State) : (frameOutputs chan k s).fs = s.fs := by simp [frameOutputs]
@[simp] theorem frameOutputs_nyq (chan : BitVec 8) (k : Nat) (s : State) : (frameOutputs chan k s).nyq = s.nyq := by simp [frameOutputs]
@[simp] theorem frameOutputs_cp (chan : BitVec 8) (k : Nat) (s : State) : (frameOutputs chan k s).cp = s.cp := by simp [frameOutputs]
@[simp] theorem frameOutputs_pp (chan : BitVec 8) (k : Nat) (s : State) : (frameOutputs chan k s).pp = s.pp := by simp [frameOutputs]
@[simp] theorem frameOutputs_port (chan : BitVec 8) (k : Nat) (s : State) : (frameOutputs chan k s).port = s.port := by simp [frameOutputs]
@[simp] theorem frameOutputs_cmdWords (chan : BitVec 8) (k : Nat) (s : State) : (frameOutputs chan k s).cmdWords = s.cmdWords := by simp [frameOutputs]
@[simp] theorem frameOutputs_parWords (chan : BitVec 8) (k : Nat) (s : State) : (frameOutputs chan k s).parWords = s.parWords := by simp [frameOutputs]
@[simp] theorem frameOutputs_sched (chan : BitVec 8) (k : Nat) (s : State) : (frameOutputs chan k s).sched = s.sched := by simp [frameOutputs]
@[simp] theorem frameOutputs_params (chan : BitVec 8) (k : Nat) (s : State) : (frameOutputs chan k s).params = s.params := by simp [frameOutputs]

/-! ## `frame`: `frame` on the fields it leaves and its counters (R202). -/

@[simp] theorem frame_lfsr (chan : BitVec 8) (k : Nat) (s : State) : (frame chan k s).lfsr = noiseAdvance s.params s.lfsr := by simp [frame]
@[simp] theorem frame_pitchBend (chan : BitVec 8) (k : Nat) (s : State) : (frame chan k s).pitchBend = s.pitchBend := by simp [frame]
@[simp] theorem frame_modWheel (chan : BitVec 8) (k : Nat) (s : State) : (frame chan k s).modWheel = s.modWheel := by simp [frame]
@[simp] theorem frame_pressure (chan : BitVec 8) (k : Nat) (s : State) : (frame chan k s).pressure = s.pressure := by simp [frame]
@[simp] theorem frame_filterCtl (chan : BitVec 8) (k : Nat) (s : State) : (frame chan k s).filterCtl = s.filterCtl := by simp [frame]
@[simp] theorem frame_resonanceCtl (chan : BitVec 8) (k : Nat) (s : State) : (frame chan k s).resonanceCtl = s.resonanceCtl := by simp [frame]
@[simp] theorem frame_lfoStep (chan : BitVec 8) (k : Nat) (s : State) : (frame chan k s).lfoStep = if s.lfoStep - 1 ≤ 0 then (s.params.lfoMax : Int) else s.lfoStep - 1 := by simp [frame]
@[simp] theorem frame_sustain (chan : BitVec 8) (k : Nat) (s : State) : (frame chan k s).sustain = s.sustain := by simp [frame]
@[simp] theorem frame_outLevel (chan : BitVec 8) (k : Nat) (s : State) : (frame chan k s).outLevel = smNext s.outLevel := by simp [frame]
@[simp] theorem frame_oscMix (chan : BitVec 8) (k : Nat) (s : State) : (frame chan k s).oscMix = smNext s.oscMix := by simp [frame]
@[simp] theorem frame_sh (chan : BitVec 8) (k : Nat) (s : State) : (frame chan k s).sh = s.sh := by simp [frame]
@[simp] theorem frame_cfg (chan : BitVec 8) (k : Nat) (s : State) : (frame chan k s).cfg = s.cfg := by simp [frame]
@[simp] theorem frame_dirty (chan : BitVec 8) (k : Nat) (s : State) : (frame chan k s).dirty = s.dirty := by simp [frame]
@[simp] theorem frame_allocated (chan : BitVec 8) (k : Nat) (s : State) : (frame chan k s).allocated = s.allocated := by simp [frame]
@[simp] theorem frame_fs (chan : BitVec 8) (k : Nat) (s : State) : (frame chan k s).fs = s.fs := by simp [frame]
@[simp] theorem frame_nyq (chan : BitVec 8) (k : Nat) (s : State) : (frame chan k s).nyq = s.nyq := by simp [frame]
@[simp] theorem frame_cp (chan : BitVec 8) (k : Nat) (s : State) : (frame chan k s).cp = s.cp := by simp [frame]
@[simp] theorem frame_pp (chan : BitVec 8) (k : Nat) (s : State) : (frame chan k s).pp = s.pp := by simp [frame]
@[simp] theorem frame_port (chan : BitVec 8) (k : Nat) (s : State) : (frame chan k s).port = s.port := by simp [frame]
@[simp] theorem frame_cmdWords (chan : BitVec 8) (k : Nat) (s : State) : (frame chan k s).cmdWords = s.cmdWords := by simp [frame]
@[simp] theorem frame_parWords (chan : BitVec 8) (k : Nat) (s : State) : (frame chan k s).parWords = s.parWords := by simp [frame]
@[simp] theorem frame_sched (chan : BitVec 8) (k : Nat) (s : State) : (frame chan k s).sched = s.sched := by simp [frame]
@[simp] theorem frame_params (chan : BitVec 8) (k : Nat) (s : State) : (frame chan k s).params = s.params := by simp [frame]

end Sys2Proof.Machine
end

