-- ==== Sys2Proof/Laws/Voices.lean ====
section
/-! SUPPORT. The voice file: reading slots after the updates, and the list of slots. -/

namespace Sys2Proof

@[simp] theorem vmap_get {α β : Type} {n : Nat} (f : α → β) (v : Vector α n) (i : Fin n) : (vmap f v).get i = f (v.get i) := by
  cases v with
  | mk a h =>
    simp [vmap, Vector.get]
    rfl

@[simp] theorem vmap_toList {α β : Type} {n : Nat} (f : α → β) (v : Vector α n) : (vmap f v).toList = v.toList.map f := by
  simp [vmap, Vector.toList]

/-- Two vectors with equal elements are equal. -/
theorem vector_ext_get {α : Type} {n : Nat} {u v : Vector α n} (h : ∀ i, u.get i = v.get i) : u = v :=
  Vector.ext fun i hi => h ⟨i, hi⟩

theorem vmap_congr {α β : Type} {n : Nat} {f g : α → β} {v : Vector α n} (h : ∀ i, f (v.get i) = g (v.get i)) :
    vmap f v = vmap g v := vector_ext_get fun i => by simp [h i]

theorem vmap_vmap {α β γ : Type} {n : Nat} (g : β → γ) (f : α → β) (v : Vector α n) :
    vmap g (vmap f v) = vmap (fun x => g (f x)) v := vector_ext_get fun i => by simp

/-- Mapping a function that leaves every element as it is. -/
theorem vmap_same {α : Type} {n : Nat} {f : α → α} {v : Vector α n} (h : ∀ i, f (v.get i) = v.get i) : vmap f v = v :=
  vector_ext_get fun i => by simp [h i]

/-- The elements of a vector are the ones its indices read. -/
theorem mem_toList_iff_get {α : Type} {n : Nat} {v : Vector α n} {x : α} : x ∈ v.toList ↔ ∃ i, v.get i = x := by
  rw [Vector.mem_toList_iff, Vector.mem_iff_getElem]
  exact ⟨fun ⟨i, hi, h⟩ => ⟨⟨i, hi⟩, h⟩, fun ⟨i, h⟩ => ⟨i.val, i.isLt, h⟩⟩

end Sys2Proof

namespace Sys2Proof.Machine

@[simp] theorem voice_mapVoices (s : State) (f : Voice → Voice) (i : Fin numVoices) : (s.mapVoices f).voice i = f (s.voice i) := by
  simp [State.voice]

@[simp] theorem voice_setVoice_same (s : State) (i : Fin numVoices) (v : Voice) : (s.setVoice i v).voice i = v := by
  simp [State.voice, Vector.get_eq_getElem]

theorem voice_setVoice_other (s : State) {i j : Fin numVoices} (v : Voice) (h : j ≠ i) : (s.setVoice i v).voice j = s.voice j := by
  have hv : i.val ≠ j.val := fun e => h (Fin.ext e.symm)
  simp [State.voice, Vector.get_eq_getElem, Vector.getElem_set_ne, hv]

/-- A slot after one slot was written. -/
theorem voice_setVoice (s : State) (i j : Fin numVoices) (v : Voice) :
    (s.setVoice i v).voice j = if j = i then v else s.voice j := by
  by_cases h : j = i
  · subst h; simp
  · simp [h, voice_setVoice_other s v h]

/-- Every slot has its index in the scan order. -/
theorem mem_voiceIndices (i : Fin numVoices) : i ∈ voiceIndices := by
  revert i; decide

/-- The scan order is ascending. -/
theorem voiceIndices_sorted : voiceIndices.Pairwise (· < ·) := by decide

/-- The voices of a state, as elements of the list of slots. -/
theorem mem_voices {s : State} {v : Voice} : v ∈ s.voices.toList ↔ ∃ i, s.voice i = v := mem_toList_iff_get

/-- A slot read depends on `voices` alone. -/
theorem voice_congr {s t : State} (h : t.voices = s.voices) (i : Fin numVoices) : t.voice i = s.voice i := by
  simp [State.voice, h]

/-- A slot read after the voices were mapped. -/
theorem voice_of_vmap {s t : State} {f : Voice → Voice} (h : t.voices = vmap f s.voices) (i : Fin numVoices) :
    t.voice i = f (s.voice i) := by
  simp [State.voice, h]

/-! ## The filter instance -/

/-- What a call leaves of an open primitive (R156). -/
@[simp] theorem fltCall_external (st : FState) (c : FltCall) : fltCall .external st c = ⟨c :: st.calls⟩ := rfl
/-- What a call leaves of the fixture (R164). -/
@[simp] theorem fltCall_bypass (st : FState) (c : FltCall) : fltCall .bypass st c = st := rfl
@[simp] theorem fltOut_bypass (st : FState) (x : F) : fltOut .bypass st x = x := rfl

end Sys2Proof.Machine
end

