-- ==== Sys2Proof/Laws/Exec.lean ====
section
/-! SUPPORT. What `exec` and `step` can do, said once: the checks every command makes, the effect of each instruction that passes them,
and the word a step executes. -/

namespace Sys2Proof.Machine

/-! ## The shared checks -/

theorem commandPortOnly_cmd {s : State} {k : State → State} (h : s.port = .cmd) : commandPortOnly s k = k s := by
  simp [commandPortOnly, h]
theorem commandPortOnly_par {s : State} {k : State → State} (h : s.port = .par) : commandPortOnly s k = s.abort .illegalCommand := by
  simp [commandPortOnly, h]
theorem whenAllocated_set {s : State} {k : State → State} (h : s.allocated = true) : whenAllocated s k = k s := by
  simp [whenAllocated, h]
theorem whenAllocated_unset {s : State} {k : State → State} (h : s.allocated = false) :
    whenAllocated s k = s.abort .notAllocated := by
  simp [whenAllocated, h]

theorem State.advance_cmd {s : State} (h : s.port = .cmd) : s.advance = { s with cp := s.cp + 1 } := by
  simp [State.advance, h]
theorem State.advance_par {s : State} (h : s.port = .par) : s.advance = { s with pp := s.pp + 1 } := by
  simp [State.advance, h]

/-- A `MIDI` word that passes its checks (R230). -/
theorem midiCommand_run {s : State} {k : State → State} (hp : s.port = .cmd) (ha : s.allocated = true) :
    midiCommand s k = .next (k s).advance := by
  simp [midiCommand, commandPortOnly_cmd hp, whenAllocated_set ha]

/-! ## The effect of an instruction -/

/-- What an instruction that passes its checks does before its pointer advances. -/
inductive Effect : Instr → State → State → Prop where
  | nop (s) : Effect .nop s s
  | alloc {hint rate s} : rateOk rate = true → Effect (.alloc hint rate) s (allocate rate s)
  | reset (s) : Effect .reset s (resetSynth s)
  | render {off cnt chan s} : s.allocated = true → renderEnd off cnt ≤ s.params.obufDepth →
      Effect (.render off cnt chan) s (renderBlock off.toNat cnt.toNat chan s)
  | noteOff {n v s} : s.allocated = true → Effect (.midiNoteOff n v) s (noteOff n s)
  | noteOnZero {n s} : s.allocated = true → Effect (.midiNoteOn n 0#7) s (noteOff n s)
  | noteOn {n v s} : s.allocated = true → v ≠ 0#7 → Effect (.midiNoteOn n v) s (noteOn n v s)
  | modWheel {v s} : s.allocated = true → Effect (.midiCcModwheel v) s { s with modWheel := modWheelCurve s.params v }
  | sustain {v s} : s.allocated = true → Effect (.midiCcSustain v) s (sustainPedal v s)
  | resonance {v s} : s.allocated = true → Effect (.midiCcResonance v) s { s with resonanceCtl := resonanceCurve v }
  | filterUp {v s} : s.allocated = true → Effect (.midiCcFilterUp v) s { s with filterCtl := filterUpCurve s.params v }
  | filterDown {v s} : s.allocated = true → Effect (.midiCcFilterDown v) s { s with filterCtl := filterDownCurve s.params v }
  | allOff {c v s} : s.allocated = true → Effect (.midiCcAllOff c v) s (allNotesOff s)
  | pressure {v s} : s.allocated = true → Effect (.midiPressure v) s { s with pressure := pressureCurve s.params v }
  | pitchBend {a b s} : s.allocated = true →
      Effect (.midiPitchBend a b) s { s with pitchBend := bendCurve s.params (bendValue a b) }
  | ignored {s} : s.allocated = true → Effect .midiIgnored s s
  | pwrite {idx value s} (h : idx.toNat < numCfg) : Effect (.pwrite idx value) s (writeShadow ⟨idx.toNat, h⟩ value s)

/-- Every outcome of a command: it aborts with one fault bit, or its effect happens and its pointer advances. -/
theorem exec_cases (i : Instr) (s : State) :
    (∃ k, k.aborting = true ∧ exec i s = .next (s.abort k)) ∨
    (∃ u, Effect i s u ∧ exec i s = .next u.advance ∧ (s.port = .cmd ∨ ∃ idx value, i = .pwrite idx value)) := by
  have midi : ∀ k : State → State, (s.allocated = true → Effect i s (k s)) → exec i s = midiCommand s k →
      (∃ k, k.aborting = true ∧ exec i s = .next (s.abort k)) ∨
      (∃ u, Effect i s u ∧ exec i s = .next u.advance ∧ (s.port = .cmd ∨ ∃ idx value, i = .pwrite idx value)) := by
    intro k hk he
    cases hp : s.port with
    | par => exact .inl ⟨.illegalCommand, rfl, by rw [he, midiCommand, commandPortOnly_par hp]⟩
    | cmd =>
      cases ha : s.allocated with
      | false => exact .inl ⟨.notAllocated, rfl, by rw [he, midiCommand, commandPortOnly_cmd hp, whenAllocated_unset ha]⟩
      | true => exact .inr ⟨k s, hk ha, by rw [he, midiCommand_run hp ha], .inl rfl⟩
  cases i with
  | nop =>
    cases hp : s.port with
    | par => exact .inl ⟨.illegalCommand, rfl, by rw [exec, execNop, commandPortOnly_par hp]⟩
    | cmd => exact .inr ⟨s, .nop s, by rw [exec, execNop, commandPortOnly_cmd hp], .inl rfl⟩
  | alloc hint rate =>
    cases hp : s.port with
    | par => exact .inl ⟨.illegalCommand, rfl, by rw [exec, execAlloc, commandPortOnly_par hp]⟩
    | cmd =>
      cases hr : rateOk rate with
      | false => exact .inl ⟨.badSampleRate, rfl, by rw [exec, execAlloc, commandPortOnly_cmd hp]; simp [hr]⟩
      | true => exact .inr ⟨_, .alloc hr, by rw [exec, execAlloc, commandPortOnly_cmd hp]; simp [hr], .inl rfl⟩
  | reset =>
    cases hp : s.port with
    | par => exact .inl ⟨.illegalCommand, rfl, by rw [exec, execReset, commandPortOnly_par hp]⟩
    | cmd => exact .inr ⟨_, .reset s, by rw [exec, execReset, commandPortOnly_cmd hp], .inl rfl⟩
  | render off cnt chan =>
    cases hp : s.port with
    | par => exact .inl ⟨.illegalCommand, rfl, by rw [exec, execRender, commandPortOnly_par hp]⟩
    | cmd =>
      cases ha : s.allocated with
      | false => exact .inl ⟨.notAllocated, rfl, by rw [exec, execRender, commandPortOnly_cmd hp, whenAllocated_unset ha]⟩
      | true =>
        by_cases hb : s.params.obufDepth < renderEnd off cnt
        · exact .inl ⟨.obufRange, rfl, by rw [exec, execRender, commandPortOnly_cmd hp, whenAllocated_set ha, renderChecked, if_pos hb]⟩
        · exact .inr ⟨_, .render ha (Nat.le_of_not_lt hb), by
            rw [exec, execRender, commandPortOnly_cmd hp, whenAllocated_set ha, renderChecked, if_neg hb], .inl rfl⟩
  | midiNoteOff n v => exact midi _ .noteOff rfl
  | midiNoteOn n v =>
    by_cases hv : v = 0#7
    · subst hv; exact midi _ .noteOnZero (by rw [exec, execMidiNoteOn, if_pos rfl])
    · exact midi _ (fun ha => .noteOn ha hv) (by rw [exec, execMidiNoteOn, if_neg hv])
  | midiCcModwheel v => exact midi _ .modWheel rfl
  | midiCcSustain v => exact midi _ .sustain rfl
  | midiCcResonance v => exact midi _ .resonance rfl
  | midiCcFilterUp v => exact midi _ .filterUp rfl
  | midiCcFilterDown v => exact midi _ .filterDown rfl
  | midiCcAllOff c v => exact midi _ .allOff rfl
  | midiPressure v => exact midi _ .pressure rfl
  | midiPitchBend a b => exact midi _ .pitchBend rfl
  | midiIgnored => exact midi _ .ignored rfl
  | pwrite idx value =>
    by_cases h : idx.toNat < numCfg
    · exact .inr ⟨_, .pwrite h, by rw [exec, execPwrite, dif_pos h], .inr ⟨idx, value, rfl⟩⟩
    · exact .inl ⟨.badParamIndex, rfl, by rw [exec, execPwrite, dif_neg h]⟩
  | illegal op => exact .inl ⟨.illegalCommand, rfl, rfl⟩

/-- The same, for a next state. -/
theorem exec_next_cases {i : Instr} {s t : State} (h : exec i s = .next t) :
    (∃ k, k.aborting = true ∧ t = s.abort k) ∨
    (∃ u, Effect i s u ∧ t = u.advance ∧ (s.port = .cmd ∨ ∃ idx value, i = .pwrite idx value)) := by
  rcases exec_cases i s with ⟨k, hk, he⟩ | ⟨u, hu, he, hp⟩
  · rw [h] at he; injection he with he; exact .inl ⟨k, hk, he⟩
  · rw [h] at he; injection he with he; exact .inr ⟨u, hu, he, hp⟩

/-! ## Steps -/

/-- What a step can do (R61, R62, R290). -/
theorem step_cases {s t : State} (h : step s = .next t) :
    (s.transfer = .idle ∧ t = s.idle) ∨ (s.transfer = .rst ∧ t = hardwareReset s) ∨
    (∃ p w, s.transfer = .word p w ∧ exec (decode w) (s.accept p) = .next t) := by
  unfold step at h
  split at h
  · rename_i ht; injection h with h; exact .inl ⟨ht, h.symm⟩
  · rename_i ht; injection h with h; exact .inr (.inl ⟨ht, h.symm⟩)
  · rename_i p w ht; exact .inr (.inr ⟨p, w, ht, h⟩)

/-- The word placed at an index is read there. -/
theorem placeWord_get (w : Word) (l : List Word) (n : Nat) : (placeWord w l n)[n]? = some w := by
  induction n generalizing l with
  | zero => cases l <;> rfl
  | succ n ih => cases l <;> simp [placeWord, ih]

/-- The next step after `withFetchWord` executes exactly that word. -/
theorem step_withFetchWord (s : State) (nbits w : Nat) :
    step (s.withFetchWord nbits w) = exec (decode (tableWord nbits w)) ((s.withFetchWord nbits w).accept .cmd) := by
  have : (s.withFetchWord nbits w).transfer = .word .cmd (tableWord nbits w) := by
    simp [State.transfer, State.withFetchWord, State.firstPending, State.pending, placeWord_get]
  rw [step, this]

end Sys2Proof.Machine
end

