-- ==== Sys2Proof/Laws/Float.lean ====
section
/-! SUPPORT. Rounding is monotone and exact on the values of `F`, and what the basic operations do to the place of a value on the real
line (`F.key`), through exact sums and products in units of 2^-149. -/

namespace Sys2Proof

/-! ## Rounding -/

theorem rne_low (n d : Nat) : n / 2 ^ d ≤ rne n d := by unfold rne; split <;> omega
theorem rne_high (n d : Nat) : rne n d ≤ n / 2 ^ d + 1 := by unfold rne; split <;> omega

/-- Rounding at one position is monotone. -/
theorem rne_mono {n m : Nat} (d : Nat) (h : n ≤ m) : rne n d ≤ rne m d := by
  have hq : n / 2 ^ d ≤ m / 2 ^ d := Nat.div_le_div_right h
  rcases Nat.lt_or_eq_of_le hq with hq | hq
  · exact Nat.le_trans (rne_high n d) (Nat.le_trans hq (rne_low m d))
  · have hn := Nat.div_add_mod n (2 ^ d)
    have hm := Nat.div_add_mod m (2 ^ d)
    unfold rne
    rw [hq] at hn ⊢
    split
    · rw [if_pos (by omega)]
    · split <;> omega

/-- A multiple of the rounding step is exact. -/
theorem rne_exact (a d : Nat) : rne (a * 2 ^ d) d = a := by
  unfold rne
  rw [Nat.mul_mod_left, Nat.mul_div_cancel _ (Nat.two_pow_pos d)]
  have := Nat.two_pow_pos d
  rw [if_neg (by omega)]

theorem rne_lt {n d : Nat} (h : n < 2 ^ (d + 24)) : rne n d ≤ 2 ^ 24 := by
  have : n / 2 ^ d < 2 ^ 24 := by
    rw [Nat.div_lt_iff_lt_mul (Nat.two_pow_pos d), ← Nat.pow_add, Nat.add_comm]; exact h
  have := rne_high n d
  omega

theorem le_rne {n d : Nat} (h : 2 ^ (d + 23) ≤ n) : 2 ^ 23 ≤ rne n d := by
  refine Nat.le_trans ?_ (rne_low n d)
  rw [Nat.le_div_iff_mul_le (Nat.two_pow_pos d), ← Nat.pow_add, Nat.add_comm]
  exact h

/-- The rounding position of `roundBits`. -/
theorem lt_two_pow_pos (n k : Nat) : n < 2 ^ (max (Nat.log2 n - 23) k + 24) :=
  Nat.lt_of_lt_of_le Nat.lt_log2_self (Nat.pow_le_pow_right (by decide) (by omega))

theorem roundBits_le (n k : Nat) : roundBits n k ≤ 0x7F800000 := by
  unfold roundBits; dsimp only; split <;> omega

/-- A result is zero or no subnormal. -/
theorem roundBits_normal (n k : Nat) : roundBits n k = 0 ∨ 2 ^ 23 ≤ roundBits n k := by
  unfold roundBits; dsimp only; split
  · exact .inl rfl
  · exact .inr (by omega)

/-- `roundBits` at a rounding position. -/
theorem roundBits_at (n k d : Nat) (h : max (Nat.log2 n - 23) k = d) :
    roundBits n k = if rne n d < 2 ^ 23 then 0 else min ((d - k) * 2 ^ 23 + rne n d) 0x7F800000 := by
  subst h; rfl

theorem bits_lt {a b c : Nat} (h : a + 1 ≤ b) (hc : c ≤ 2 ^ 24) {r : Nat} (hr : 2 ^ 23 ≤ r) : a * 2 ^ 23 + c ≤ b * 2 ^ 23 + r := by
  omega

/-- Rounding is monotone. -/
theorem roundBits_mono {n m : Nat} (k : Nat) (h : n ≤ m) : roundBits n k ≤ roundBits m k := by
  have hl : Nat.log2 n ≤ Nat.log2 m := by
    rcases Nat.eq_zero_or_pos n with rfl | hn
    · rw [Nat.log2_zero]; exact Nat.zero_le _
    · exact (Nat.le_log2 (by omega)).2 (Nat.le_trans (Nat.log2_self_le (by omega)) h)
  have hn := lt_two_pow_pos n k
  obtain ⟨d, hdn⟩ : ∃ d, max (Nat.log2 n - 23) k = d := ⟨_, rfl⟩
  obtain ⟨e, hdm⟩ : ∃ e, max (Nat.log2 m - 23) k = e := ⟨_, rfl⟩
  rw [hdn] at hn
  rw [roundBits_at n k d hdn, roundBits_at m k e hdm]
  have hd : d ≤ e := by omega
  have hk : k ≤ d := by omega
  rcases Nat.lt_or_eq_of_le hd with hd | rfl
  · have hm : 2 ^ (e + 23) ≤ m := by
      refine Nat.le_trans (Nat.pow_le_pow_right (by decide) ?_) (Nat.log2_self_le (n := m) ?_)
      · omega
      · intro h0; rw [h0, Nat.log2_zero] at hdm; omega
    have hb := le_rne hm
    have hs := rne_lt hn
    rw [if_neg (Nat.not_lt.2 hb)]
    split
    · exact Nat.zero_le _
    · have hab := bits_lt (show d - k + 1 ≤ e - k by omega) hs hb
      exact (min_le_min hab (Nat.le_refl _))
  · have hr := rne_mono d h
    split
    · exact Nat.zero_le _
    · rename_i hc
      rw [if_neg (fun hx => hc (Nat.lt_of_le_of_lt hr hx))]
      exact min_le_min (Nat.add_le_add_left hr _) (Nat.le_refl _)

/-- A value with 24 significant bits is exact. -/
theorem roundBits_exact {a d k : Nat} (h1 : 2 ^ 23 ≤ a) (h2 : a < 2 ^ 24) (hk : k ≤ d) (h3 : (d - k) * 2 ^ 23 + a ≤ 0x7F800000) :
    roundBits (a * 2 ^ d) k = (d - k) * 2 ^ 23 + a := by
  have hl : Nat.log2 (a * 2 ^ d) = d + 23 := by
    rw [Nat.log2_eq_iff (by have := Nat.two_pow_pos d; positivity)]
    refine ⟨?_, ?_⟩
    · rw [Nat.add_comm, Nat.pow_add]; exact Nat.mul_le_mul_right _ h1
    · rw [show d + 23 + 1 = 24 + d by omega, Nat.pow_add]; exact (Nat.mul_lt_mul_right (Nat.two_pow_pos d)).2 h2
  have hd : max (Nat.log2 (a * 2 ^ d) - 23) k = d := by rw [hl]; omega
  rw [roundBits_at _ k d hd, rne_exact, if_neg (Nat.not_lt.2 h1)]
  exact Nat.min_eq_left h3

theorem rne_zero (d : Nat) : rne 0 d = 0 := by
  have := rne_exact 0 d
  rwa [Nat.zero_mul] at this

@[simp] theorem roundBits_zero (k : Nat) : roundBits 0 k = 0 := by
  rw [roundBits_at 0 k k (by rw [Nat.log2_zero]; omega), rne_zero]
  rfl

/-! ## Patterns -/

theorem F.toNat_lt (x : F) : x.toNat < 2 ^ 32 := x.isLt

theorem F.pack_toNat (s : Bool) {b : Nat} (h : b < 2 ^ 31) : (F.pack s b).toNat = (if s then 2 ^ 31 else 0) + b := by
  unfold F.pack
  rw [BitVec.toNat_ofNat]
  split <;> omega

theorem F.pack_magBits (s : Bool) {b : Nat} (h : b < 2 ^ 31) : (F.pack s b).magBits = b := by
  unfold F.magBits; rw [F.pack_toNat s h]; split <;> omega

theorem F.pack_neg? (s : Bool) {b : Nat} (h : b < 2 ^ 31) : (F.pack s b).neg? = s := by
  unfold F.neg?; rw [F.pack_toNat s h]; cases s <;> simp <;> omega

/-- The magnitude of a value on the real line, in pattern steps. -/
def F.mag (x : F) : Nat := if x.isZero then 0 else x.magBits

theorem F.key_eq (x : F) : x.key = if x.neg? then -(x.mag : Int) else x.mag := by
  unfold F.key F.mag
  cases x.isZero <;> cases x.neg? <;> simp

theorem F.round_magBits (s : Bool) (n k : Nat) : (F.round s n k).magBits = roundBits n k :=
  F.pack_magBits s (by have := roundBits_le n k; omega)

theorem F.round_neg? (s : Bool) (n k : Nat) : (F.round s n k).neg? = s :=
  F.pack_neg? s (by have := roundBits_le n k; omega)

theorem F.round_mag (s : Bool) (n k : Nat) : (F.round s n k).mag = roundBits n k := by
  unfold F.mag F.isZero
  rw [F.round_magBits]
  rcases roundBits_normal n k with h | h
  · simp [h]
  · rw [if_neg (by simp; omega)]

theorem F.round_isNaN (s : Bool) (n k : Nat) : (F.round s n k).isNaN = false := by
  unfold F.isNaN; rw [F.round_magBits]; have := roundBits_le n k; simp; omega

/-! ## Units -/

theorem F.finite_lt {x : F} (h : x.isFinite = true) : x.magBits < 0x7F800000 := by simpa [F.isFinite] using h

theorem F.finite_not_nan {x : F} (h : x.isFinite = true) : x.isNaN = false := by
  have := F.finite_lt h; simp [F.isNaN]; omega

theorem F.finite_not_inf {x : F} (h : x.isFinite = true) : x.isInf = false := by
  have := F.finite_lt h; simp [F.isInf]; omega

/-- A value that is neither a NaN nor an infinity is finite. -/
theorem F.finite_of {x : F} (h1 : x.isNaN = false) (h2 : x.isInf = false) : x.isFinite = true := by
  simp [F.isNaN, F.isInf, F.isFinite] at *; omega

/-- A finite value is what its exact magnitude rounds to. -/
theorem F.mag_eq_round {x : F} (h : x.isFinite = true) : x.mag = roundBits x.units 0 := by
  have hf := F.finite_lt h
  unfold F.mag F.units F.isZero at *
  split
  · simp
  · rename_i hz
    simp only [decide_eq_true_eq, Nat.not_lt] at hz
    rw [roundBits_exact (by omega) (by omega) (by omega) (by omega)]
    omega

/-- The exact magnitudes of finite values are in the order of their patterns. -/
theorem F.units_le_iff {x y : F} (hx : x.isFinite = true) (hy : y.isFinite = true) : x.units ≤ y.units ↔ x.mag ≤ y.mag := by
  constructor
  · intro h; rw [F.mag_eq_round hx, F.mag_eq_round hy]; exact roundBits_mono 0 h
  · intro h
    rcases Nat.lt_or_ge y.units x.units with hlt | hge
    · have h2 : y.mag ≤ x.mag := by rw [F.mag_eq_round hx, F.mag_eq_round hy]; exact roundBits_mono 0 (Nat.le_of_lt hlt)
      have he : x.mag = y.mag := by omega
      have : x.units = y.units := by
        unfold F.mag at he
        unfold F.units
        unfold F.isZero at *
        split at he <;> split at he <;> simp_all <;> omega
      omega
    · exact hge

/-- The signed pattern of an exact value of `z * 2^-(149 + k)`. -/
def roundKey (k : Nat) (z : Int) : Int := if z < 0 then -(roundBits z.natAbs k : Int) else roundBits z.natAbs k

theorem roundKey_mono (k : Nat) {y z : Int} (h : y ≤ z) : roundKey k y ≤ roundKey k z := by
  unfold roundKey
  split <;> split
  · have := roundBits_mono k (show z.natAbs ≤ y.natAbs by omega); omega
  · omega
  · omega
  · have := roundBits_mono k (show y.natAbs ≤ z.natAbs by omega); omega

/-- A finite value sits where its exact value rounds to. -/
theorem F.key_eq_roundKey {x : F} (h : x.isFinite = true) : x.key = roundKey 0 x.toUnits := by
  rw [F.key_eq, F.mag_eq_round h]
  have hz : x.units = 0 → roundBits x.units 0 = 0 := fun h0 => by rw [h0, roundBits_zero]
  unfold roundKey F.toUnits
  cases hn : x.neg?
  · rw [if_neg (by simp), if_neg (by simp)]; simp
  · rw [if_pos rfl, if_pos rfl]
    split
    · simp
    · have := hz (by omega); simp [this]

/-- Finite values are ordered as their exact values. -/
theorem F.toUnits_le_iff {x y : F} (hx : x.isFinite = true) (hy : y.isFinite = true) : x.toUnits ≤ y.toUnits ↔ x.key ≤ y.key := by
  have h1 := F.units_le_iff hx hy
  have h2 := F.units_le_iff hy hx
  have hzx : x.units = 0 ↔ x.mag = 0 := by
    have hz : F.zero.isFinite = true := by decide
    have := F.units_le_iff hx hz
    simpa [show F.zero.units = 0 by decide, show F.zero.mag = 0 by decide] using this
  have hzy : y.units = 0 ↔ y.mag = 0 := by
    have hz : F.zero.isFinite = true := by decide
    have := F.units_le_iff hy hz
    simpa [show F.zero.units = 0 by decide, show F.zero.mag = 0 by decide] using this
  rw [F.key_eq, F.key_eq]
  unfold F.toUnits
  cases x.neg? <;> cases y.neg? <;> simp <;> omega

/-! ## The operations -/

/-- A sum of finite values: the exact sum, rounded. -/
theorem F.add_key {x y : F} (hx : x.isFinite = true) (hy : y.isFinite = true) :
    (F.add x y).isNaN = false ∧ (F.add x y).key = roundKey 0 (x.toUnits + y.toUnits) := by
  unfold F.add
  rw [F.finite_not_nan hx, F.finite_not_nan hy, F.finite_not_inf hx, F.finite_not_inf hy]
  simp only [Bool.or_self, Bool.false_eq_true, if_false]
  split
  · rename_i h0
    rw [h0]
    cases x.neg? <;> cases y.neg? <;> decide
  · rename_i h0
    refine ⟨F.round_isNaN _ _ _, ?_⟩
    rw [F.key_eq, F.round_mag, F.round_neg?]
    simp [roundKey]

/-- Inverting the sign bit. -/
theorem F.flip_sign (x : F) : (x ^^^ 0x80000000#32).magBits = x.magBits ∧ (x ^^^ 0x80000000#32).neg? = !x.neg? := by
  have hx := x.isLt
  have ht : (x ^^^ 0x80000000#32).toNat = x.toNat ^^^ 2 ^ 31 := by rw [BitVec.toNat_xor]; rfl
  have hl : (x.toNat ^^^ 2 ^ 31) % 2 ^ 31 = x.toNat % 2 ^ 31 := by
    rw [Nat.xor_mod_two_pow]; simp
  have hh : (x.toNat ^^^ 2 ^ 31) / 2 ^ 31 = (x.toNat / 2 ^ 31) ^^^ 1 := by
    rw [Nat.xor_div_two_pow]; simp
  constructor
  · unfold F.magBits; rw [ht, hl]
  · unfold F.neg?; rw [ht]
    have h2 : x.toNat / 2 ^ 31 = 0 ∨ x.toNat / 2 ^ 31 = 1 := by omega
    rcases h2 with h2 | h2
    · rw [h2] at hh
      have : (0 ^^^ 1 : Nat) = 1 := rfl
      rw [this] at hh
      rw [decide_eq_true (by omega), decide_eq_false (by omega)]; rfl
    · rw [h2] at hh
      have : (1 ^^^ 1 : Nat) = 0 := rfl
      rw [this] at hh
      rw [decide_eq_false (by omega), decide_eq_true (by omega)]; rfl

/-- Unary minus of a finite value. -/
theorem F.neg_finite {x : F} (hx : x.isFinite = true) : (F.neg x).isFinite = true ∧ (F.neg x).toUnits = -x.toUnits := by
  obtain ⟨hm, hs⟩ := F.flip_sign x
  have hf := F.finite_lt hx
  unfold F.neg
  rw [if_neg (by simp [F.finite_not_nan hx])]
  unfold F.flush
  split
  · rename_i hz
    have hz' : x.units = 0 := by
      unfold F.units
      rw [if_pos]
      simpa [F.isZero, hm] using hz
    rw [hs]
    constructor
    · cases x.neg? <;> decide
    · unfold F.toUnits
      rw [hz']
      cases x.neg? <;> decide
  · have hz : x.isZero = (x ^^^ 0x80000000#32).isZero := by unfold F.isZero; rw [hm]
    have hu : (x ^^^ 0x80000000#32).units = x.units := by unfold F.units; rw [← hz, hm]
    constructor
    · simp only [F.isFinite, hm]; simpa using hf
    · unfold F.toUnits; rw [hu, hs]; cases x.neg? <;> simp

/-- A difference of finite values: the exact difference, rounded. -/
theorem F.sub_key {x y : F} (hx : x.isFinite = true) (hy : y.isFinite = true) :
    (F.sub x y).isNaN = false ∧ (F.sub x y).key = roundKey 0 (x.toUnits - y.toUnits) := by
  obtain ⟨h1, h2⟩ := F.neg_finite hy
  have := F.add_key hx h1
  rw [h2] at this
  rw [Int.sub_eq_add_neg]
  exact this

/-- A product of finite values: the exact product, rounded. -/
theorem F.mul_key {x y : F} (hx : x.isFinite = true) (hy : y.isFinite = true) :
    (F.mul x y).isNaN = false ∧ (F.mul x y).key = roundKey 149 (x.toUnits * y.toUnits) := by
  unfold F.mul
  rw [F.finite_not_nan hx, F.finite_not_nan hy, F.finite_not_inf hx, F.finite_not_inf hy]
  simp only [Bool.or_self, Bool.false_eq_true, if_false]
  refine ⟨F.round_isNaN _ _ _, ?_⟩
  rw [F.key_eq, F.round_mag, F.round_neg?]
  unfold roundKey F.toUnits
  have hz : x.units * y.units = 0 → roundBits (x.units * y.units) 149 = 0 := fun h0 => by rw [h0, roundBits_zero]
  have hp : (0 : Int) ≤ x.units * y.units := by positivity
  have ha : ((x.units : Int) * y.units).natAbs = x.units * y.units := by rw [Int.natAbs_mul]; rfl
  cases x.neg? <;> cases y.neg?
  · simp only [bne_self_eq_false, Bool.false_eq_true, if_false]
    rw [if_neg (by omega), ha]
  · simp only [Bool.false_bne, if_true, Bool.false_eq_true, if_false, Int.mul_neg, Int.natAbs_neg, ha]
    split
    · rfl
    · rw [hz (by exact_mod_cast (by omega : (x.units : Int) * y.units = 0))]; rfl
  · simp only [Bool.true_bne, Bool.not_false, if_true, Bool.false_eq_true, if_false, Int.neg_mul, Int.natAbs_neg, ha]
    split
    · rfl
    · rw [hz (by exact_mod_cast (by omega : (x.units : Int) * y.units = 0))]; rfl
  · simp only [bne_self_eq_false, Bool.false_eq_true, if_false, if_true, Int.neg_mul_neg]
    rw [if_neg (by omega), ha]

/-- A sum is monotone in each operand (R10). -/
theorem F.add_mono {x x' y y' : F} (hx : x.isFinite = true) (hx' : x'.isFinite = true) (hy : y.isFinite = true) (hy' : y'.isFinite = true)
    (h1 : x.key ≤ x'.key) (h2 : y.key ≤ y'.key) : (F.add x y).key ≤ (F.add x' y').key := by
  rw [(F.add_key hx hy).2, (F.add_key hx' hy').2]
  have a := (F.toUnits_le_iff hx hx').2 h1
  have b := (F.toUnits_le_iff hy hy').2 h2
  exact roundKey_mono 0 (by omega)

/-- A difference is monotone in its first operand. -/
theorem F.sub_mono {x x' y : F} (hx : x.isFinite = true) (hx' : x'.isFinite = true) (hy : y.isFinite = true) (h : x.key ≤ x'.key) :
    (F.sub x y).key ≤ (F.sub x' y).key := by
  rw [(F.sub_key hx hy).2, (F.sub_key hx' hy).2]
  have a := (F.toUnits_le_iff hx hx').2 h
  exact roundKey_mono 0 (by omega)

/-- A product with a factor that is not negative is monotone in the other. -/
theorem F.mul_mono {c x x' : F} (hc : c.isFinite = true) (hx : x.isFinite = true) (hx' : x'.isFinite = true) (h0 : 0 ≤ c.toUnits)
    (h : x.key ≤ x'.key) : (F.mul c x).key ≤ (F.mul c x').key := by
  rw [(F.mul_key hc hx).2, (F.mul_key hc hx').2]
  exact roundKey_mono 149 (Int.mul_le_mul_of_nonneg_left ((F.toUnits_le_iff hx hx').2 h) h0)

/-! ## Comparisons -/

theorem F.lt_iff {x y : F} : F.lt x y = true ↔ x.isNaN = false ∧ y.isNaN = false ∧ x.key < y.key := by
  simp [F.lt, and_assoc]
theorem F.le_iff {x y : F} : F.le x y = true ↔ x.isNaN = false ∧ y.isNaN = false ∧ x.key ≤ y.key := by
  simp [F.le, and_assoc]

/-- A finite value has a place strictly between the infinities. -/
theorem F.finite_iff_key {x : F} : x.isFinite = true ↔ x.isNaN = false ∧ -0x7F800000 < x.key ∧ x.key < 0x7F800000 := by
  unfold F.key F.isFinite F.isNaN F.isZero
  constructor
  · intro h
    simp only [decide_eq_true_eq] at h
    refine ⟨decide_eq_false (by omega), ?_⟩
    split
    · omega
    · split <;> omega
  · rintro ⟨h1, h2, h3⟩
    simp only [decide_eq_false_iff_not, Nat.not_lt, decide_eq_true_eq] at *
    split at h2
    · rename_i hz; omega
    · split at h2 <;> rename_i hn
      · omega
      · rw [if_neg (by assumption), if_neg hn] at h3; omega

theorem F.lt_trans {x y z : F} (h1 : F.lt x y = true) (h2 : F.lt y z = true) : F.lt x z = true := by
  rw [F.lt_iff] at *
  exact ⟨h1.1, h2.2.1, Int.lt_trans h1.2.2 h2.2.2⟩

theorem F.lt_of_lt_of_le {x y z : F} (h1 : F.lt x y = true) (h2 : F.le y z = true) : F.lt x z = true := by
  rw [F.lt_iff] at *; rw [F.le_iff] at h2
  exact ⟨h1.1, h2.2.1, Int.lt_of_lt_of_le h1.2.2 h2.2.2⟩

/-- Where neither is a NaN, one of two values is not the greater. -/
theorem F.not_lt {x y : F} (hx : x.isNaN = false) (hy : y.isNaN = false) : F.lt x y = false ↔ F.le y x = true := by
  simp [F.lt, F.le, hx, hy]

/-- A clamped value is in its range, or a NaN (R13). -/
theorem F.clamp_range {x lo hi : F} (hlo : lo.isNaN = false) (hhi : hi.isNaN = false) (h : F.le lo hi = true) :
    (F.clamp x lo hi).isNaN = true ∨ (F.le lo (F.clamp x lo hi) = true ∧ F.le (F.clamp x lo hi) hi = true) := by
  cases hx : x.isNaN
  · right
    have hr : ∀ z : F, z.isNaN = false → F.le z z = true := fun z hz => F.le_iff.2 ⟨hz, hz, Int.le_refl _⟩
    unfold F.clamp
    split
    · exact ⟨hr lo hlo, h⟩
    · rename_i h1
      have h1' := (F.not_lt hx hlo).1 (by simpa using h1)
      split
      · exact ⟨h, hr hi hhi⟩
      · rename_i h2
        exact ⟨h1', (F.not_lt hhi hx).1 (by simpa [F.gt] using h2)⟩
  · left
    unfold F.clamp F.gt F.lt
    simp [hx]

/-- An attack bump leaves a voice active: from `+0`, or from any level above the floor. -/
theorem F.bump_above_floor {x : F} (h : x = F.zero ∨ F.lt silence x = true) : F.lt silence (F.add x attackBump) = true := by
  rcases h with rfl | h
  · decide
  · obtain ⟨-, hn, hk⟩ := F.lt_iff.1 h
    cases hi : x.isInf
    · have hx := F.finite_of hn hi
      have hb : attackBump.isFinite = true := by decide
      obtain ⟨h1, h2⟩ := F.add_key hx hb
      rw [F.lt_iff]
      refine ⟨by decide, h1, ?_⟩
      rw [h2]
      have hu : x.toUnits ≤ x.toUnits + attackBump.toUnits := by
        have : (0 : Int) ≤ attackBump.toUnits := by decide
        omega
      have := roundKey_mono 0 hu
      rw [← F.key_eq_roundKey hx] at this
      omega
    · have hp : x.neg? = false := by
        cases hs : x.neg?
        · rfl
        · exfalso
          rw [F.key_eq x, hs] at hk
          have : (0 : Int) ≤ silence.key := by decide
          simp only [if_true] at hk
          omega
      have : F.add x attackBump = F.inf := by
        unfold F.add
        rw [hn, hi, hp, show attackBump.isNaN = false by decide, show attackBump.isInf = false by decide]
        rfl
      rw [this]; decide

end Sys2Proof
end

