-- ==== Sys2Proof/Laws/Memory.lean ====
section
/-! SUPPORT. The output buffers: a read after a write, the canonical form, and the bytes an element store leaves alone. -/

namespace Sys2Proof.Machine

theorem readByte_writeByte_same (a : Nat) (b : Byte) (m : Memory) : readByte a (writeByte a b m) = some b := by
  induction m with
  | nil => simp [writeByte, readByte]
  | cons c t ih =>
    obtain ⟨k, x⟩ := c
    unfold writeByte
    split
    · simp [readByte]
    · split
      · simp [readByte]
      · rename_i h; simp [readByte, h, ih]

theorem readByte_writeByte_other {a c : Nat} (b : Byte) (m : Memory) (h : c ≠ a) : readByte c (writeByte a b m) = readByte c m := by
  induction m with
  | nil => simp [writeByte, readByte, h]
  | cons d t ih =>
    obtain ⟨k, x⟩ := d
    unfold writeByte
    split
    · simp [readByte, h]
    · split
      · rename_i h2; subst h2; simp [readByte, h]
      · simp [readByte, ih]

/-- A byte read after a byte was written. -/
theorem readByte_writeByte (a c : Nat) (b : Byte) (m : Memory) :
    readByte c (writeByte a b m) = if c = a then some b else readByte c m := by
  by_cases h : c = a
  · subst h; simp [readByte_writeByte_same]
  · simp [h, readByte_writeByte_other b m h]

/-- What a byte write lists: the written byte, and entries that were there. -/
theorem mem_writeByte {a : Nat} {b : Byte} {m : Memory} {c : Host.Cell} (h : c ∈ writeByte a b m) : c = (a, b) ∨ c ∈ m := by
  induction m with
  | nil => simpa [writeByte] using h
  | cons d t ih =>
    obtain ⟨k, x⟩ := d
    unfold writeByte at h
    split at h
    · simpa using h
    · split at h
      · rcases List.mem_cons.1 h with h | h
        · exact .inl h
        · exact .inr (List.mem_cons_of_mem _ h)
      · rcases List.mem_cons.1 h with h | h
        · exact .inr (h ▸ List.mem_cons_self)
        · exact (ih h).imp_right (List.mem_cons_of_mem _)

/-- A byte write keeps the canonical form. -/
theorem writeByte_wf (a : Nat) (b : Byte) {m : Memory} (h : Memory.wf m) : Memory.wf (writeByte a b m) := by
  induction m with
  | nil => simp [writeByte, Memory.wf]
  | cons d t ih =>
    obtain ⟨k, x⟩ := d
    obtain ⟨hk, ht⟩ := List.pairwise_cons.1 h
    unfold writeByte
    split
    · rename_i hak
      refine List.pairwise_cons.2 ⟨fun c hc => ?_, h⟩
      rcases List.mem_cons.1 hc with rfl | hc
      · exact hak
      · exact Nat.lt_trans hak (hk c hc)
    · split
      · rename_i hak; subst hak
        exact List.pairwise_cons.2 ⟨fun c hc => hk c hc, ht⟩
      · refine List.pairwise_cons.2 ⟨fun c hc => ?_, ih ht⟩
        rcases mem_writeByte hc with rfl | hc
        · simp only; omega
        · exact hk c hc

/-- An element store keeps the canonical form. -/
theorem writeElem_wf (k : Nat) (v : F) {m : Memory} (h : Memory.wf m) : Memory.wf (writeElem k v m) :=
  writeByte_wf _ _ (writeByte_wf _ _ (writeByte_wf _ _ (writeByte_wf _ _ h)))

/-- What an element store lists: bytes of that element, and entries that were there. -/
theorem mem_writeElem {k : Nat} {v : F} {m : Memory} {c : Host.Cell} (h : c ∈ writeElem k v m) :
    (4 * k ≤ c.1 ∧ c.1 < 4 * k + 4) ∨ c ∈ m := by
  unfold writeElem at h
  rcases mem_writeByte h with rfl | h
  · left; constructor <;> simp only <;> omega
  rcases mem_writeByte h with rfl | h
  · left; constructor <;> simp only <;> omega
  rcases mem_writeByte h with rfl | h
  · left; constructor <;> simp only <;> omega
  rcases mem_writeByte h with rfl | h
  · left; constructor <;> simp only <;> omega
  · exact .inr h

/-- A store inside the buffer keeps it a buffer. -/
theorem writeElem_bufferOk {d k : Nat} (v : F) {m : Memory} (h : BufferOk d m) (hk : k < d) : BufferOk d (writeElem k v m) where
  wf := writeElem_wf k v h.wf
  inside c hc := by
    rcases mem_writeElem hc with h2 | h2
    · omega
    · exact h.inside c h2

/-- An element store leaves every byte outside the element. -/
theorem readByte_writeElem_outside {a k : Nat} (v : F) (m : Memory) (h : a < 4 * k ∨ 4 * k + 4 ≤ a) :
    readByte a (writeElem k v m) = readByte a m := by
  simp only [writeElem, readByte_writeByte]
  rw [if_neg (by omega), if_neg (by omega), if_neg (by omega), if_neg (by omega)]

/-- The bytes of a stored element, little-endian (R67). -/
theorem readByte_writeElem_inside {j k : Nat} (v : F) (m : Memory) (h : j < 4) :
    readByte (4 * k + j) (writeElem k v m) = some (elemByte v j) := by
  simp only [writeElem, readByte_writeByte]
  match j, h with
  | 0, _ => rw [if_neg (by omega), if_neg (by omega), if_neg (by omega), if_pos (by omega)]
  | 1, _ => rw [if_neg (by omega), if_neg (by omega), if_pos (by omega)]
  | 2, _ => rw [if_neg (by omega), if_pos (by omega)]
  | 3, _ => rw [if_pos (by omega)]

/-- The four bytes of an element are the element. -/
theorem elemBytes_join (v : F) : (elemByte v 3 ++ (elemByte v 2 ++ (elemByte v 1 ++ elemByte v 0)) : BitVec 32) = v := by
  apply BitVec.eq_of_toNat_eq
  simp only [elemByte, append_toNat, slice_toNat]
  have := v.isLt
  omega

/-- A stored element reads back (R63). -/
theorem readElem_writeElem_same (k : Nat) (v : F) (m : Memory) : readElem k (writeElem k v m) = some v := by
  have h0 := readByte_writeElem_inside (k := k) v m (show 0 < 4 by decide)
  have h1 := readByte_writeElem_inside (k := k) v m (show 1 < 4 by decide)
  have h2 := readByte_writeElem_inside (k := k) v m (show 2 < 4 by decide)
  have h3 := readByte_writeElem_inside (k := k) v m (show 3 < 4 by decide)
  simp only [Nat.add_zero] at h0
  simp only [readElem, h0, h1, h2, h3, elemBytes_join]

/-- An element store leaves every other element. -/
theorem readElem_writeElem_other {j k : Nat} (v : F) (m : Memory) (h : j ≠ k) : readElem j (writeElem k v m) = readElem j m := by
  unfold readElem
  rw [readByte_writeElem_outside v m (by omega), readByte_writeElem_outside v m (by omega),
    readByte_writeElem_outside v m (by omega), readByte_writeElem_outside v m (by omega)]

end Sys2Proof.Machine
end

