-- ==== Sys2Proof/Laws/Render.lean ====
section
/-! SUPPORT. A block of frames: what `frames` and `renderBlock` leave alone, and the closed forms of what they advance. -/

namespace Sys2Proof.Machine

@[simp] theorem frames_zero (chan : BitVec 8) (k : Nat) (s : State) : frames chan k 0 s = s := rfl
theorem frames_succ (chan : BitVec 8) (k n : Nat) (s : State) : frames chan k (n + 1) s = frames chan (k + 1) n (frame chan k s) := rfl

/-- Frames made in two runs. -/
theorem frames_add (chan : BitVec 8) (k m n : Nat) (s : State) :
    frames chan k (m + n) s = frames chan (k + m) n (frames chan k m s) := by
  induction m generalizing k s with
  | zero => rw [Nat.zero_add]; rfl
  | succ m ih => rw [Nat.succ_add, frames_succ, ih, frames_succ, Nat.add_right_comm, Nat.add_assoc]

/-- What every frame keeps, every run of frames keeps. -/
theorem frames_keep {α : Type} {chan : BitVec 8} (f : State → α) (h : ∀ k s, f (frame chan k s) = f s) (k n : Nat) (s : State) :
    f (frames chan k n s) = f s := by
  induction n generalizing k s with
  | zero => rfl
  | succ n ih => rw [frames_succ, ih, h]

/-- What every frame preserves, every run of frames preserves. -/
theorem frames_preserve {chan : BitVec 8} (P : State → Prop) (h : ∀ k s, P s → P (frame chan k s)) (k n : Nat) {s : State} (hs : P s) :
    P (frames chan k n s) := by
  induction n generalizing k s with
  | zero => exact hs
  | succ n ih => exact ih (k + 1) (h k s hs)

@[simp] theorem frames_pitchBend (chan : BitVec 8) (k n : Nat) (s : State) : (frames chan k n s).pitchBend = s.pitchBend := frames_keep (·.pitchBend) (by simp) k n s
@[simp] theorem frames_modWheel (chan : BitVec 8) (k n : Nat) (s : State) : (frames chan k n s).modWheel = s.modWheel := frames_keep (·.modWheel) (by simp) k n s
@[simp] theorem frames_pressure (chan : BitVec 8) (k n : Nat) (s : State) : (frames chan k n s).pressure = s.pressure := frames_keep (·.pressure) (by simp) k n s
@[simp] theorem frames_filterCtl (chan : BitVec 8) (k n : Nat) (s : State) : (frames chan k n s).filterCtl = s.filterCtl := frames_keep (·.filterCtl) (by simp) k n s
@[simp] theorem frames_resonanceCtl (chan : BitVec 8) (k n : Nat) (s : State) : (frames chan k n s).resonanceCtl = s.resonanceCtl := frames_keep (·.resonanceCtl) (by simp) k n s
@[simp] theorem frames_sustain (chan : BitVec 8) (k n : Nat) (s : State) : (frames chan k n s).sustain = s.sustain := frames_keep (·.sustain) (by simp) k n s
@[simp] theorem frames_sh (chan : BitVec 8) (k n : Nat) (s : State) : (frames chan k n s).sh = s.sh := frames_keep (·.sh) (by simp) k n s
@[simp] theorem frames_cfg (chan : BitVec 8) (k n : Nat) (s : State) : (frames chan k n s).cfg = s.cfg := frames_keep (·.cfg) (by simp) k n s
@[simp] theorem frames_dirty (chan : BitVec 8) (k n : Nat) (s : State) : (frames chan k n s).dirty = s.dirty := frames_keep (·.dirty) (by simp) k n s
@[simp] theorem frames_allocated (chan : BitVec 8) (k n : Nat) (s : State) : (frames chan k n s).allocated = s.allocated := frames_keep (·.allocated) (by simp) k n s
@[simp] theorem frames_fs (chan : BitVec 8) (k n : Nat) (s : State) : (frames chan k n s).fs = s.fs := frames_keep (·.fs) (by simp) k n s
@[simp] theorem frames_nyq (chan : BitVec 8) (k n : Nat) (s : State) : (frames chan k n s).nyq = s.nyq := frames_keep (·.nyq) (by simp) k n s
@[simp] theorem frames_cp (chan : BitVec 8) (k n : Nat) (s : State) : (frames chan k n s).cp = s.cp := frames_keep (·.cp) (by simp) k n s
@[simp] theorem frames_pp (chan : BitVec 8) (k n : Nat) (s : State) : (frames chan k n s).pp = s.pp := frames_keep (·.pp) (by simp) k n s
@[simp] theorem frames_port (chan : BitVec 8) (k n : Nat) (s : State) : (frames chan k n s).port = s.port := frames_keep (·.port) (by simp) k n s
@[simp] theorem frames_cmdWords (chan : BitVec 8) (k n : Nat) (s : State) : (frames chan k n s).cmdWords = s.cmdWords := frames_keep (·.cmdWords) (by simp) k n s
@[simp] theorem frames_parWords (chan : BitVec 8) (k n : Nat) (s : State) : (frames chan k n s).parWords = s.parWords := frames_keep (·.parWords) (by simp) k n s
@[simp] theorem frames_sched (chan : BitVec 8) (k n : Nat) (s : State) : (frames chan k n s).sched = s.sched := frames_keep (·.sched) (by simp) k n s
@[simp] theorem frames_params (chan : BitVec 8) (k n : Nat) (s : State) : (frames chan k n s).params = s.params := frames_keep (·.params) (by simp) k n s

/-- One noise draw for each frame (R115). -/
theorem frames_lfsr (chan : BitVec 8) (k n : Nat) (s : State) :
    (frames chan k n s).lfsr = (noiseAdvance s.params)^[n] s.lfsr := by
  induction n generalizing k s with
  | zero => rfl
  | succ n ih => rw [frames_succ, ih, frame_lfsr, frame_params]; rfl

/-- One smoother step for each frame (R205). -/
theorem frames_outLevel (chan : BitVec 8) (k n : Nat) (s : State) : (frames chan k n s).outLevel = smNext^[n] s.outLevel := by
  induction n generalizing k s with
  | zero => rfl
  | succ n ih => rw [frames_succ, ih, frame_outLevel]; rfl

/-- One smoother step for each frame (R210). -/
theorem frames_oscMix (chan : BitVec 8) (k n : Nat) (s : State) : (frames chan k n s).oscMix = smNext^[n] s.oscMix := by
  induction n generalizing k s with
  | zero => rfl
  | succ n ih => rw [frames_succ, ih, frame_oscMix]; rfl

/-! ## Stores -/

theorem storeFrame_mono {chan : BitVec 8} (h : chan = 1#8) (k : Nat) (l r : F) (s : State) :
    storeFrame chan k l r s = s.storeL k (F.mul (F.add l r) f0_5) := by simp [storeFrame, h]
theorem storeFrame_stereo {chan : BitVec 8} (h : chan ≠ 1#8) (k : Nat) (l r : F) (s : State) :
    storeFrame chan k l r s = (s.storeL k l).storeR k r := by simp [storeFrame, h]

/-- A frame stores one element of `OBUF_L`. -/
theorem frame_obufL (chan : BitVec 8) (k : Nat) (s : State) : ∃ v, (frame chan k s).obufL = writeElem k v s.obufL := by
  unfold frame frameOutputs
  by_cases h : chan = 1#8
  · exact ⟨_, by rw [storeFrame_mono h]; simp; rfl⟩
  · exact ⟨_, by rw [storeFrame_stereo h]; simp; rfl⟩

/-- A stereo frame stores one element of `OBUF_R`, a mono frame none (R212). -/
theorem frame_obufR_stereo {chan : BitVec 8} (h : chan ≠ 1#8) (k : Nat) (s : State) :
    ∃ v, (frame chan k s).obufR = writeElem k v s.obufR := by
  unfold frame frameOutputs
  exact ⟨_, by rw [storeFrame_stereo h]; simp; rfl⟩
theorem frame_obufR_mono {chan : BitVec 8} (h : chan = 1#8) (k : Nat) (s : State) : (frame chan k s).obufR = s.obufR := by
  unfold frame frameOutputs
  rw [storeFrame_mono h]; simp

theorem frames_obufR_mono {chan : BitVec 8} (h : chan = 1#8) (k n : Nat) (s : State) : (frames chan k n s).obufR = s.obufR :=
  frames_keep (·.obufR) (fun k s => frame_obufR_mono h k s) k n s

/-- A run of frames leaves every byte of `OBUF_L` outside its elements. -/
theorem frames_readL_outside (chan : BitVec 8) {a k n : Nat} (s : State) (h : a < 4 * k ∨ 4 * (k + n) ≤ a) :
    readByte a (frames chan k n s).obufL = readByte a s.obufL := by
  induction n generalizing k s with
  | zero => rfl
  | succ n ih =>
    obtain ⟨v, hv⟩ := frame_obufL chan k s
    rw [frames_succ, ih (frame chan k s) (by omega), hv, readByte_writeElem_outside v _ (by omega)]

/-- A run of frames leaves every byte of `OBUF_R` outside its elements. -/
theorem frames_readR_outside (chan : BitVec 8) {a k n : Nat} (s : State) (h : a < 4 * k ∨ 4 * (k + n) ≤ a) :
    readByte a (frames chan k n s).obufR = readByte a s.obufR := by
  by_cases hc : chan = 1#8
  · rw [frames_obufR_mono hc]
  · induction n generalizing k s with
    | zero => rfl
    | succ n ih =>
      obtain ⟨v, hv⟩ := frame_obufR_stereo hc k s
      rw [frames_succ, ih (frame chan k s) (by omega), hv, readByte_writeElem_outside v _ (by omega)]

/-- An element of `OBUF_L` outside a run of frames. -/
theorem frames_readElemL_outside (chan : BitVec 8) {j k n : Nat} (s : State) (h : j < k ∨ k + n ≤ j) :
    readElem j (frames chan k n s).obufL = readElem j s.obufL := by
  unfold readElem
  rw [frames_readL_outside chan s (by omega), frames_readL_outside chan s (by omega), frames_readL_outside chan s (by omega),
    frames_readL_outside chan s (by omega)]

/-- An element of `OBUF_R` outside a run of frames. -/
theorem frames_readElemR_outside (chan : BitVec 8) {j k n : Nat} (s : State) (h : j < k ∨ k + n ≤ j) :
    readElem j (frames chan k n s).obufR = readElem j s.obufR := by
  unfold readElem
  rw [frames_readR_outside chan s (by omega), frames_readR_outside chan s (by omega), frames_readR_outside chan s (by omega),
    frames_readR_outside chan s (by omega)]

/-! ## The fault bit of a block -/

/-- A frame raises `HarmClip` or nothing. -/
theorem frame_fault (chan : BitVec 8) (k : Nat) (s : State) :
    (frame chan k s).fault = s.fault ∨ (frame chan k s).fault = s.fault.raise .harmClip := by
  unfold frame frameOutputs storeFrame renderVoices
  split <;> split <;> simp

/-- A block raises `HarmClip` or nothing. -/
theorem frames_fault (chan : BitVec 8) (k n : Nat) (s : State) :
    (frames chan k n s).fault = s.fault ∨ (frames chan k n s).fault = s.fault.raise .harmClip := by
  refine frames_preserve (fun t => t.fault = s.fault ∨ t.fault = s.fault.raise .harmClip) (fun k t ht => ?_) k n (.inl rfl)
  rcases frame_fault chan k t with h | h <;> rcases ht with ht | ht <;> simp [h, ht, FaultBits.raise]

/-! ## Voices through a frame -/

/-- A tick leaves an inactive voice (R208). -/
theorem voiceTick_inactive {s : State} {v : Voice} (h : v.active = false) : voiceTick s v = v := by simp [voiceTick, h]
/-- A frame renders no inactive voice (R211). -/
theorem voiceFrame_inactive {s : State} {n m : F} {v : Voice} (h : v.active = false) : voiceFrame s n m v = v := by
  simp [voiceFrame, h]

/-- The voices' part of a tick in a frame. -/
def tickVoice (s : State) (v : Voice) : Voice :=
  if s.lfoStep - 1 ≤ 0 then voiceTick (lfoScalars { s with lfoStep := s.params.lfoMax }) v else v

theorem lfoDecimate_voices (s : State) : (lfoDecimate s).voices = vmap (tickVoice s) s.voices := by
  unfold lfoDecimate tickVoice
  split
  · simp [lfoTick]
  · exact (vmap_same fun _ => rfl).symm

/-- The voices after a frame: the tick, then the render, each voice by itself (R170). -/
theorem frame_voice (chan : BitVec 8) (k : Nat) (s : State) (i : Fin numVoices) :
    (frame chan k s).voice i =
      voiceFrame (frameInputs s) (frameNoise (frameInputs s)) (frameInputs s).oscMix.cur (tickVoice s (s.voice i)) := by
  have h1 : (frame chan k s).voices
      = vmap (voiceFrame (frameInputs s) (frameNoise (frameInputs s)) (frameInputs s).oscMix.cur) (frameInputs s).voices := by
    simp only [frame, frameOutputs_voices]
  have h2 : (frameInputs s).voices = vmap (tickVoice s) s.voices := by
    rw [← lfoDecimate_voices]; simp [frameInputs]
  rw [voice_of_vmap h1, voice_of_vmap h2]

theorem tickVoice_inactive {s : State} {v : Voice} (h : v.active = false) : tickVoice s v = v := by
  unfold tickVoice; split
  · exact voiceTick_inactive h
  · rfl

/-- A frame leaves an inactive voice. -/
theorem frame_voice_inactive (chan : BitVec 8) (k : Nat) {s : State} {i : Fin numVoices} (h : (s.voice i).active = false) :
    (frame chan k s).voice i = s.voice i := by
  rw [frame_voice, tickVoice_inactive h, voiceFrame_inactive h]

/-- A run of frames leaves an inactive voice. -/
theorem frames_voice_inactive (chan : BitVec 8) (k n : Nat) {s : State} {i : Fin numVoices} (h : (s.voice i).active = false) :
    (frames chan k n s).voice i = s.voice i :=
  frames_preserve (fun t => t.voice i = s.voice i)
    (fun k t ht => by rw [frame_voice_inactive chan k (by rw [ht]; exact h), ht]) k n rfl

/-! ## The sweep -/

/-- A reset voice is inactive (R180). -/
@[simp] theorem voiceReset_active (p : Params) (v : Voice) : (voiceReset p v).active = false := by
  show F.gt F.zero silence = false
  decide

theorem sweep_voice (s : State) (i : Fin numVoices) : (sweep s).voice i = voiceSweep s.params (s.voice i) :=
  voice_of_vmap rfl i

/-- The sweep changes no voice's activity (R213). -/
@[simp] theorem sweep_active (s : State) (i : Fin numVoices) : ((sweep s).voice i).active = (s.voice i).active := by
  rw [sweep_voice, voiceSweep]
  cases h : (s.voice i).active <;> simp [h]

end Sys2Proof.Machine
end

