-- ==== Sys2Proof/Laws/Invariants.lean ====
section
/-! SUPPORT. What the invariants of Safety.lean need of each operation: carrying them between states that agree where they look, and what
a block keeps of the counters, the notes, the noise register and the buffers. A `RENDER` that passes its checks, as one equation. -/

namespace Sys2Proof.Machine

/-- A `RENDER` that passes its checks (R200, R201). -/
theorem exec_render {off cnt : BitVec 24} {chan : BitVec 8} {s : State} (hp : s.port = .cmd) (ha : s.allocated = true)
    (hb : off.toNat + cnt.toNat ≤ s.params.obufDepth) :
    exec (.render off cnt chan) s = .next { renderBlock off.toNat cnt.toNat chan s with cp := s.cp + 1 } := by
  rw [exec, execRender, commandPortOnly_cmd hp, whenAllocated_set ha, renderChecked, if_neg (by unfold renderEnd; omega),
    State.advance_cmd (by simpa [renderBlock] using hp)]
  simp [renderBlock]

/-- `State.Inv` looks at these fields only. -/
theorem State.Inv.congr {s t : State} (h : s.Inv) (hv : ∀ i, (t.voice i).note = (s.voice i).note) (h1 : t.lfsr = s.lfsr)
    (h2 : t.outLevel = s.outLevel) (h3 : t.oscMix = s.oscMix) (h4 : t.lfoStep = s.lfoStep) (h5 : t.allocated = s.allocated)
    (h6 : t.fs = s.fs) (h7 : t.nyq = s.nyq) (h8 : t.obufL = s.obufL) (h9 : t.obufR = s.obufR) (h10 : t.params = s.params) : t.Inv := by
  obtain ⟨a, b, c, d, e, f, g, ii, j, k, l, m⟩ := h
  refine ⟨?_, ?_, ?_, ?_, ?_, ?_, ?_, ?_, ?_, ?_, ?_, ?_⟩ <;>
    (try simp only [h1, h2, h3, h4, h5, h6, h7, h8, h9, h10, hv]) <;> assumption

/-- `State.InactiveClean` looks at the voices only. -/
theorem State.InactiveClean.congr {s t : State} (h : s.InactiveClean) (hv : t.voices = s.voices) : t.InactiveClean := by
  intro i hi
  rw [voice_congr hv] at *
  exact h i hi

/-- An operation on each voice by itself keeps `State.InactiveClean` if it keeps it of each voice. -/
theorem State.InactiveClean.map {s t : State} {f : Voice → Voice} (h : s.InactiveClean) (hv : t.voices = vmap f s.voices)
    (hf : ∀ v, (f v).active = false → (v.active = false → v.Clean) → (f v).Clean) : t.InactiveClean := by
  intro i hi
  rw [voice_of_vmap hv] at *
  exact hf _ hi (h i)

theorem State.advance_voice (s : State) (i : Fin numVoices) : s.advance.voice i = s.voice i := voice_congr (State.advance_voices s) i

/-- A reset voice is a clean one (R180). -/
theorem voiceReset_clean (p : Params) (v : Voice) : (voiceReset p v).Clean := ⟨rfl, rfl, rfl, rfl⟩

/-! ## Counters -/

/-- A new target loads the counter with at most `SMOOTH_N` (R204). -/
theorem smSetTarget_cnt (n : Nat) (sm : Smoother) (t : F) : (smSetTarget n sm t).cnt ≤ n := by
  unfold smSetTarget; split <;> simp

theorem smNext_pos {sm : Smoother} (h : 0 < sm.cnt) : smNext sm =
    { sm with cnt := sm.cnt - 1, cur := if sm.cnt - 1 = 0 then sm.tgt else F.add sm.cur sm.step } := if_pos h
theorem smNext_zero {sm : Smoother} (h : sm.cnt = 0) : smNext sm = sm := if_neg (by omega)

/-- A smoother's counter never rises between targets (R205). -/
theorem smNext_iterate_cnt {n : Nat} {sm : Smoother} (k : Nat) (h : sm.cnt ≤ n) : (smNext^[k] sm).cnt ≤ n := by
  induction k generalizing sm with
  | zero => exact h
  | succ k ih =>
    refine ih ?_
    rcases Nat.eq_zero_or_pos sm.cnt with h0 | h0
    · rw [smNext_zero h0]; exact h
    · rw [smNext_pos h0]; exact Nat.le_trans (Nat.sub_le _ _) h

/-! ## The noise register -/

theorem lfsrSteps_eq_iterate (taps : BitVec 32) (n : Nat) (x : BitVec 32) : lfsrSteps taps n x = (lfsrStep taps)^[n] x := by
  induction n generalizing x with
  | zero => rfl
  | succ n ih => exact ih _

/-- The two halves of a shift, told apart by the top bit (R112). -/
theorem lfsrStep_odd {taps x : BitVec 32} (h : x.getLsbD 0 = true) : lfsrStep taps x = (x >>> 1) ^^^ taps := if_pos h
theorem lfsrStep_even {taps x : BitVec 32} (h : x.getLsbD 0 = false) : lfsrStep taps x = x >>> 1 :=
  if_neg (by rw [h]; exact Bool.false_ne_true)
theorem shiftRight_msb (x : BitVec 32) : (x >>> 1).msb = false := by simp [BitVec.msb_eq_getLsbD_last]

/-! ## Blocks -/

/-- A frame changes no note code (R202). -/
theorem frame_note (chan : BitVec 8) (k : Nat) (s : State) (i : Fin numVoices) :
    ((frame chan k s).voice i).note = (s.voice i).note := by
  rw [frame_voice]
  unfold voiceFrame tickVoice voiceTick
  split <;> split <;> (try split) <;> rfl

/-- Frames inside `OBUF_DEPTH` keep both buffers canonical and inside it (R63, R71). -/
theorem frames_buffers {chan : BitVec 8} {k n d : Nat} {s : State} (hl : BufferOk d s.obufL) (hr : BufferOk d s.obufR) (h : k + n ≤ d) :
    BufferOk d (frames chan k n s).obufL ∧ BufferOk d (frames chan k n s).obufR := by
  induction n generalizing k s with
  | zero => exact ⟨hl, hr⟩
  | succ n ih =>
    obtain ⟨v, hv⟩ := frame_obufL chan k s
    rw [frames_succ]
    refine ih (by rw [hv]; exact writeElem_bufferOk v hl (by omega)) ?_ (by omega)
    by_cases hc : chan = 1#8
    · rw [frame_obufR_mono hc]; exact hr
    · obtain ⟨v, hv⟩ := frame_obufR_stereo hc k s
      rw [hv]; exact writeElem_bufferOk v hr (by omega)

end Sys2Proof.Machine
end

