-- ==== Sys2Proof/Laws/Numerics.lean ====
section
/-! SUPPORT. The named properties of the transcendental functions (R12), said once for both numerics. -/

namespace Sys2Proof

/-- `NUM.exp0` on every operand that reads as zero. -/
theorem EXP_of_isZero (num : NumSel) {x : F} (h : x.isZero = true) : EXP num x = f1 := if_pos h

/-- `NUM.sin0` at `-0`: a zero. -/
theorem SIN_negZero (num : NumSel) : SIN num F.negZero = F.zero ∨ SIN num F.negZero = F.negZero := by
  cases num
  · show F.zeroOf _ = _ ∨ F.zeroOf _ = _
    cases (Config.sinOpen F.negZero).neg? <;> decide
  · exact .inr rfl

/-- `NUM.pow2int` on every pattern of an integer in range: the power of two as its exponent field. -/
theorem POW2_of_asInt (num : NumSel) {x : F} {k : Int} (h : x.asInt? = some k) (h1 : -126 ≤ k) (h2 : k ≤ 127) :
    POW2 num x = F.pack false ((k + 127).toNat * 2 ^ 23) := by
  unfold POW2
  rw [h]
  exact if_pos ⟨h1, h2⟩

end Sys2Proof
end

