-- ==== Sys2Proof/Tests/Slice0.lean ====
section
/-! SUPPORT. The model's own tests: ill-formed terms, words written out from spec/30_encoding.md, single steps against the vectors of
spec/95_test_vectors.md, and for every statement with hypotheses a concrete state and operands that meet them. -/

open Sys2Proof Sys2Proof.Machine

namespace Sys2Proof.Tests

set_option Elab.async false

/-! ## Helpers -/

/-- The reference numerics and the filter fixture of spec/95, and a short buffer. -/
def testParams : Params := { Params.default with num := .reference, flt := .bypass, obufDepth := 8 }
/-- The state after `ALLOC 28160.0`, the voices' `prepare` calls left out. -/
def ready : State := { State.resetWith testParams with allocated := true, fs := some 0x46DC0000#32, nyq := some 0x465C0000#32 }
/-- An envelope at a level, a target and a coefficient. -/
def envAt (level target coef : F) : Env := { Env.zero with level := level, target := target, coef := coef }
/-- A voice with a note, a velocity and an amplitude envelope. -/
def voiceAt (note : Int) (velocity : BitVec 7) (env : Env) : Voice :=
  { Voice.powerOn testParams with note := note, velocity := velocity, env := env }
/-- Voice 0 as given, the others inactive. -/
def oneVoice (v : Voice) : State := ready.setVoice 0 v
/-- Every voice holding note 60 with this envelope. -/
def fullBank (env : Env) : State := { ready with voices := Vector.replicate 16 (voiceAt 60 100#7 env) }
/-- A sustained envelope: level and target 1, coefficient 0. -/
def sustained : Env := envAt f1 f1 F.zero
/-- The next state of an outcome. -/
def nextOf : Result → State
  | .next t => t
  | .fault _ => State.reset
  | .refused _ => State.reset

/-! ## Well-formedness -/

theorem test_wf_refuses_controller_below_the_family : (Instr.midiCcAllOff 0x77#7 0#7).wf = false := by decide
theorem test_wf_refuses_legal_opcode_as_illegal : (Instr.illegal 0x05#8).wf = false := by decide
theorem test_wf_accepts_the_bounds :
    (Instr.midiCcAllOff 0x78#7 0#7).wf = true ∧ (Instr.midiCcAllOff 0x7F#7 127#7).wf = true ∧ (Instr.illegal 0x06#8).wf = true ∧
    (Instr.illegal 0xFF#8).wf = true ∧ (Instr.pwrite 255#8 0#32).wf = true := by decide

/-! ## Words written out from R81, R87 and R93 -/

theorem test_decode_nop : decode 0b0000000000000000000000000000000000000000000000000000000000000000#64 = .nop := by decide
/-- Opcode 1, hint 512, rate 44100.0 (spec/95 2.6). -/
theorem test_decode_alloc :
    decode 0b0000000100000000000000100000000001000111001011000100010000000000#64 = .alloc 512#24 0x472C4400#32 := by decide
/-- Opcode 2, every reserved bit set. -/
theorem test_decode_reset : decode 0b0000001011111111111111111111111111111111111111111111111111111111#64 = .reset := by decide
/-- Opcode 3, `off` 256, `cnt` 64, `chan` 1. -/
theorem test_decode_render :
    decode 0b0000001100000000000000010000000000000000000000000100000000000001#64 = .render 256#24 64#24 1#8 := by decide
/-- Opcode 5, index 19, value 0.01. -/
theorem test_decode_pwrite :
    decode 0b0000010100000000000000000001001100111100001000111101011100001010#64 = .pwrite 19#8 0x3C23D70A#32 := by decide
/-- Opcode 6, the first that is illegal, and the last. -/
theorem test_decode_illegal : decode 0x0600000000000000#64 = .illegal 0x06#8 ∧ decode 0xFF00000000000005#64 = .illegal 0xFF#8 := by decide
/-- Opcode 4, `len` 3, status 0x80, data 60 and 0. -/
theorem test_decode_note_off :
    decode 0b0000010000000000000000000000000000000011100000000011110000000000#64 = .midiNoteOff 60#7 0#7 := by decide
/-- The note-on rows of spec/95 2.7: channel 5, missing bytes, data with bit 7 set, reserved bits set. -/
theorem test_decode_note_on :
    decode 0x0400000003953C64#64 = .midiNoteOn 60#7 100#7 ∧ decode 0x0400000002903C64#64 = .midiNoteOn 60#7 0#7 ∧
    decode 0x0400000001903C64#64 = .midiNoteOn 0#7 0#7 ∧ decode 0x040000000390BCE4#64 = .midiNoteOn 60#7 100#7 ∧
    decode 0x04FFFFFFFF903C64#64 = .midiNoteOn 60#7 100#7 := by decide
/-- The ignored rows of spec/95 2.7. -/
theorem test_decode_ignored :
    decode 0x0400000000903C64#64 = .midiIgnored ∧ decode 0x0400000003403C64#64 = .midiIgnored ∧
    decode 0x0400000003A03C64#64 = .midiIgnored ∧ decode 0x0400000002C00500#64 = .midiIgnored ∧
    decode 0x0400000001F80000#64 = .midiIgnored ∧ decode 0x0400000003B00764#64 = .midiIgnored ∧
    decode 0x0400000003B07700#64 = .midiIgnored := by decide
/-- The control-change rows of spec/95 2.7. -/
theorem test_decode_controllers :
    decode 0x0400000003B0017F#64 = .midiCcModwheel 127#7 ∧ decode 0x0400000003B0403F#64 = .midiCcSustain 63#7 ∧
    decode 0x0400000003B04740#64 = .midiCcResonance 64#7 ∧ decode 0x0400000003B04A0A#64 = .midiCcFilterUp 10#7 ∧
    decode 0x0400000003B04B7F#64 = .midiCcFilterDown 127#7 ∧ decode 0x0400000003B07800#64 = .midiCcAllOff 0x78#7 0#7 ∧
    decode 0x0400000003B07F7F#64 = .midiCcAllOff 0x7F#7 127#7 := by decide
/-- The pressure and pitch-bend rows of spec/95 2.7. -/
theorem test_decode_pressure_and_bend :
    decode 0x0400000003D04063#64 = .midiPressure 64#7 ∧ decode 0x0400000002D07F00#64 = .midiPressure 127#7 ∧
    decode 0x0400000003E00140#64 = .midiPitchBend 1#7 64#7 ∧ decode 0x0400000002E00040#64 = .midiPitchBend 0#7 0#7 := by decide
/-- The pseudo-instructions of R98 are the words of R100 and spec/95. -/
theorem test_pseudo :
    Pseudo.noteOn 69#7 100#7 = 0x0400000003904564#64 ∧ Pseudo.noteOff 69#7 = 0x0400000003804500#64 ∧
    Pseudo.pedalOn = 0x0400000003B0407F#64 ∧ Pseudo.pedalOff = 0x0400000003B04000#64 ∧ Pseudo.allOff = 0x0400000003B07B00#64 ∧
    Pseudo.pressure 64#7 = 0x0400000002D04000#64 ∧ Pseudo.bend 12288#14 = 0x0400000003E00060#64 ∧
    Pseudo.latch = 0x0300000000000002#64 ∧ Pseudo.renderM 256#24 64#24 = 0x0300010000004001#64 := by decide
/-- The table's bits are the word's (bit 0 the least significant); a word of more than 64 bits is no command. -/
theorem test_table_word : decodeTableWord 64 0x0500000E3F800000 = some (.pwrite 14#8 0x3F800000#32) ∧ decodeTableWord 72 0 = none := by decide

/-! ## Number format (R10, R13) -/

/-- A tie to even, a sum to infinity, a flush of a subnormal result and of a subnormal operand. -/
theorem test_number_format :
    F.add 0x3F800001#32 0x40000000#32 = 0x40400000#32 ∧ F.add 0x7F7FFFFF#32 0x7F7FFFFF#32 = F.inf ∧
    F.mul 0x00800000#32 0xBF000000#32 = F.negZero ∧ F.add 0x007FFFFF#32 F.zero = F.zero := by decide
/-- A comparison with a NaN is false, and the zeros are equal. -/
theorem test_comparisons :
    F.lt F.nan f1 = false ∧ F.ge F.nan f1 = false ∧ F.eqv F.negZero F.zero = true ∧ F.lt F.negZero F.zero = false := by decide

/-! ## Vectors of spec/95, section 2 -/

/-- 2.1: the first draw, and the three corners of `u`. -/
theorem test_noise :
    noiseAdvance Params.default 0x000056CE#32 = 0x5B679E51#32 ∧ noiseValue 0x5B679E51#32 = 0xBE430D78#32 ∧
    noiseValue 0xAA000000#32 = 0xBF800000#32 ∧ noiseValue 0xAAFFFFFF#32 = 0x3F7FFFFE#32 ∧ noiseValue 0xAA800000#32 = F.zero := by decide +kernel
/-- 2.2, E2: the third step, which is the transition. -/
theorem test_envelope_e2 :
    envNext ⟨0x3F600760#32, 0x40000000#32, 0x3F400000#32, 0x3F400000#32, 0x3F000000#32, 0x3E800000#32, F.zero⟩
      = ⟨0x3F9402C4#32, 0x3E800000#32, 0x3F000000#32, 0x3F400000#32, 0x3F000000#32, 0x3E800000#32, F.zero⟩ := by decide +kernel
/-- 2.2, E4: the rounding of the test. -/
theorem test_envelope_e4 :
    F.gt (F.add 0x3F800001#32 attackTarget) decayThreshold = false ∧ F.gt (F.add 0x3F800002#32 attackTarget) decayThreshold = true := by
  decide +kernel
/-- 2.3, O2: the naive sample and phase, with the wrap. -/
theorem test_naive :
    oscNaive ⟨0x41DC0000#32, 0x3E800000#32, 0x3A800000#32, 0x3F000000#32⟩
      = ⟨⟨0x41DC0000#32, 0x3E808000#32, 0x3A800000#32, 0x3F000000#32⟩, 0xBE800000#32, false⟩ ∧
    (oscNaive ⟨0x43DC0000#32, 0x3F7C0000#32, 0x3C800000#32, f1⟩).osc.phase = F.zero := by decide +kernel
/-- 2.3, O3: the two corrected samples and the strict bound. -/
theorem test_blep :
    (oscBlep ⟨F.zero, 0x3B800000#32, 0x3C800000#32, f1⟩).sample = 0xBEDC0000#32 ∧
    (oscBlep ⟨F.zero, 0x3F7D0000#32, 0x3C800000#32, f1⟩).sample = 0x3F6A0000#32 ∧
    (oscBlep ⟨F.zero, 0x3F7C0000#32, 0x3C800000#32, f1⟩).sample = 0x3F780000#32 := by decide +kernel
/-- 2.3, O4: seven harmonics under the reference numerics. -/
theorem test_additive :
    (oscAdditive testParams 0x465C0000#32 ⟨0x44DC0000#32, 0x3E800000#32, 0x3D800000#32, f1⟩).sample = 0x3EEBECDA#32 := by decide +kernel
/-- 2.3, O5: a frequency of 0 runs into the bound. -/
theorem test_additive_clip : (oscAdditive { testParams with harmMax := 3 } 0x465C0000#32 ⟨F.zero, F.zero, F.zero, f1⟩).clip = true := by
  decide +kernel
/-- 2.4: the clamped resonances. -/
theorem test_resonance :
    normalizedResonance 0x41700000#32 f1 = 0x3F000000#32 ∧ normalizedResonance 0x41700000#32 0x403684BE#32 = f1 ∧
    normalizedResonance 0xC0400000#32 f1 = F.zero := by decide +kernel
/-- 2.5: three note frequencies and the band's bounds. -/
theorem test_note_frequency :
    noteFrequency .reference 60 F.zero = 0x4382D012#32 ∧ noteFrequency .external 69 F.zero = 0x43DC0000#32 ∧
    noteFrequency .external 60 0xC21C0000#32 = 0x41DC0000#32 ∧ band 0x42200000#32 = .blep ∧ band 0x447A0000#32 = .additive := by
  decide +kernel
/-- 2.5: the pan of note 69, left and right. -/
theorem test_pan :
    COS .reference (panAngle 69) = 0x3F273655#32 ∧ SIN .reference (panAngle 69) = 0x3F41D871#32 := by decide +kernel
/-- 2.6: the smoother from 0 to 1 in four frames: its step and its first value. -/
theorem test_smoother :
    smSetTarget 4 Smoother.zero f1 = ⟨F.zero, f1, 0x3E800000#32, 4⟩ ∧
    smNext ⟨F.zero, f1, 0x3E800000#32, 4⟩ = ⟨0x3E800000#32, f1, 0x3E800000#32, 3⟩ := by decide
/-- 2.6: the LFO phase past PI, and the smoothed filter modulation. -/
theorem test_lfo :
    lfoPhase 0x40400000#32 f1 = 0xC0121FB6#32 ∧ filterZipStep 0x3BA3D70A#32 f1 = 0x3C236E2E#32 := by decide +kernel

/-! ## One step of each command -/

/-- A state with one word on the command port. -/
def withCmd (w : Word) (s : State) : State := { s with cmdWords := [w] }

theorem test_step_nop : nextOf (step (withCmd 0#64 ready)) = { withCmd 0#64 ready with cp := 1 } := by decide +kernel
/-- 2.6: `ALLOC 44100.0, hint 512` sets `NYQ`. -/
theorem test_step_alloc :
    (nextOf (step (withCmd 0x01000200472C4400#64 ready))).nyq = some 0x46AC4400#32 ∧
    ((nextOf (exec (.alloc 512#24 0x472C4400#32) { ready with params := { testParams with flt := .external } })).voice 15).flt.calls
      = [.prepare 0x472C4400#32] := by decide +kernel
/-- R164: under `F_BYPASS` no call moves an instance out of its one state. -/
theorem test_bypass_keeps_its_state :
    ((nextOf (exec (.alloc 512#24 0x472C4400#32) ready)).voice 15).flt = FState.init ∧
    ((nextOf (exec .reset ready)).voice 0).flt = FState.init ∧ fltOut .bypass FState.init 0xBF780000#32 = 0xBF780000#32 ∧
    fltProcess .bypass FState.init 0xBF780000#32 = FState.init := by decide +kernel
/-- P2's update call on the filter port: operation 1, the voice, the cutoff and the resonance. -/
theorem test_filter_request :
    fltRequest 15 (.update 0x430C0E6D#32 F.zero) = ⟨1#2, 15#4, some 0x430C0E6D#32, some F.zero⟩ := by decide
/-- R196: a rate of 0 aborts and leaves `FS`. -/
theorem test_step_alloc_zero :
    (nextOf (step (withCmd 0x0100000000000000#64 ready))).fault.badSampleRate = true ∧
    (nextOf (step (withCmd 0x0100000000000000#64 ready))).fs = some 0x46DC0000#32 := by decide +kernel
theorem test_step_reset :
    ((nextOf (exec .reset (oneVoice (voiceAt 60 100#7 sustained)))).voice 0).active = false ∧
    (nextOf (exec .reset { ready with lfsr := 5#32 })).lfsr = 0x000056CE#32 := by decide +kernel
/-- P1: a silent frame stores zeros, mono leaves the right buffer. -/
theorem test_step_render :
    readElem 7 (nextOf (exec (.render 7#24 1#24 1#8) ready)).obufL = some F.zero ∧
    (nextOf (exec (.render 7#24 1#24 1#8) ready)).obufR = [] := by decide +kernel
/-- P2: the first frame's tick and draw on an empty bank: `lfoStep` reloads and `lfsr` is the first draw's. -/
theorem test_step_render_counters :
    (nextOf (exec (.render 0#24 1#24 2#8) ready)).lfoStep = 32 ∧ (nextOf (exec (.render 0#24 1#24 2#8) ready)).lfsr = 0x5B679E51#32 := by
  decide +kernel
theorem test_step_pwrite :
    (nextOf (exec (.pwrite 19#8 0x3C23D70A#32) ready)).sh.get 19 = 0x3C23D70A#32 ∧
    (nextOf (exec (.pwrite 20#8 0x3C23D70A#32) ready)).fault.badParamIndex = true := by decide +kernel
theorem test_step_illegal :
    (nextOf (step (withCmd 0x0600000000000000#64 ready))).fault.pins = 0b010000#6 ∧
    (nextOf (step (withCmd 0x0600000000000000#64 ready))).cp = 1 := by decide +kernel
/-- P2, after command 15: voice 0 under `TUNE` 9.0 and `DETUNE` 1.0. -/
theorem test_step_note_on :
    ((nextOf (exec (.midiNoteOn 60#7 127#7) { ready with cfg := (ready.cfg.set 11 0x41100000#32).set 10 f1 })).voice 0).oscB
      = ⟨0x43DC0000#32, F.zero, 0x3C800000#32, F.zero⟩ ∧
    ((nextOf (exec (.midiNoteOn 60#7 127#7) { ready with cfg := (ready.cfg.set 11 0x41100000#32).set 10 f1 })).voice 0).cutoff
      = 0x430C0E6D#32 := by decide +kernel
/-- R248: the pedal holds the voice. -/
theorem test_step_note_off :
    ((nextOf (exec (.midiNoteOff 60#7 0#7) { oneVoice (voiceAt 60 100#7 sustained) with sustain := true })).voice 0).note = -1 ∧
    ((nextOf (exec (.midiNoteOff 60#7 0#7) (oneVoice (voiceAt 60 100#7 sustained)))).voice 0).env.target = F.zero := by decide +kernel
theorem test_step_mod_wheel : (nextOf (exec (.midiCcModwheel 64#7) ready)).modWheel = 0x3CA7C5AC#32 := by decide +kernel
theorem test_step_sustain :
    (nextOf (exec (.midiCcSustain 64#7) ready)).sustain = true ∧
    ((nextOf (exec (.midiCcSustain 63#7) (oneVoice (voiceAt (-1) 100#7 sustained)))).voice 0).note = 0 := by decide +kernel
theorem test_step_resonance : (nextOf (exec (.midiCcResonance 100#7) ready)).resonanceCtl = 0x403684BE#32 := by decide +kernel
theorem test_step_filter_up : (nextOf (exec (.midiCcFilterUp 10#7) ready)).filterCtl = 0x3E4CCCCC#32 := by decide +kernel
theorem test_step_filter_down : (nextOf (exec (.midiCcFilterDown 0#7) ready)).filterCtl = 0x80000000#32 := by decide +kernel
theorem test_step_all_off :
    ((nextOf (exec (.midiCcAllOff 0x7B#7 0#7) (oneVoice (voiceAt 60 100#7 sustained)))).voice 0).note = 0 := by decide +kernel
theorem test_step_pressure : (nextOf (exec (.midiPressure 64#7) ready)).pressure = 0x3ED1B717#32 := by decide +kernel
theorem test_step_pitch_bend :
    (nextOf (exec (.midiPitchBend 1#7 64#7) ready)).pitchBend = 0x3F800076#32 ∧
    (nextOf (exec (.midiPitchBend 0#7 96#7) ready)).pitchBend = 0x3F879C78#32 := by decide +kernel
theorem test_step_ignored : nextOf (exec .midiIgnored ready) = { ready with cp := 1 } := by decide +kernel

/-! ## The hypotheses of the statements are met

For each statement of Obligations.lean with hypotheses (O1 to O60 by its docstring): a concrete state and operands that meet them together,
clause by clause, at the bounds of each range. -/

/-- The state after `exec`, as the statements about a next state ask for it. -/
theorem exec_nextOf (i : Instr) (s : State) : exec i s = .next (nextOf (exec i s)) := by
  rcases exec_cases i s with ⟨k, _, h⟩ | ⟨u, _, h, _⟩ <;> rw [h] <;> rfl

theorem witness_O1 : (Instr.midiCcAllOff 0x78#7 0#7).wf = true ∧ (Instr.illegal 0x06#8).wf = true ∧ Instr.reset.wf = true := by decide
theorem witness_O3 :
    (Word.op 0x0000000000000001#64 = Word.op 0x00FFFFFFFFFFFFFF#64 ∧ Word.op 0x0000000000000001#64 = 0x00#8) ∧
    (Word.op 0x0200000000000000#64 = Word.op 0x0200000000000001#64 ∧ Word.op 0x0200000000000000#64 = 0x02#8) ∧
    (Word.op 0x0400000003903C64#64 = Word.op 0x04FFFFFFFF903C64#64 ∧ Word.op 0x0400000003903C64#64 = 0x04#8 ∧
      (slice (0x0400000003903C64#64 : Word) 0 26 : BitVec 26) = slice (0x04FFFFFFFF903C64#64 : Word) 0 26) ∧
    (Word.op 0x0500000E3F800000#64 = Word.op 0x05FFFF0E3F800000#64 ∧ Word.op 0x0500000E3F800000#64 = 0x05#8 ∧
      (slice (0x0500000E3F800000#64 : Word) 0 40 : BitVec 40) = slice (0x05FFFF0E3F800000#64 : Word) 0 40) := by decide
theorem witness_O4 : Word.op 0x0400000000903C64#64 = 0x04#8 ∧ Word.len 0x0400000000903C64#64 = 0#2 := by decide
theorem witness_O5 :
    Word.op 0x0400000003903C64#64 = 0x04#8 ∧ Word.op 0x040000000395BCE4#64 = 0x04#8 ∧
    Word.len 0x0400000003903C64#64 = Word.len 0x040000000395BCE4#64 ∧
    (slice (Word.status 0x0400000003903C64#64) 4 4 : BitVec 4) = slice (Word.status 0x040000000395BCE4#64) 4 4 ∧
    (slice (Word.data1 0x0400000003903C64#64) 0 7 : BitVec 7) = slice (Word.data1 0x040000000395BCE4#64) 0 7 ∧
    (slice (Word.data2 0x0400000003903C64#64) 0 7 : BitVec 7) = slice (Word.data2 0x040000000395BCE4#64) 0 7 := by decide
theorem witness_O7 :
    (slice (0x0000000000000000#64 : Word) 56 8 : BitVec 8) = 0x00#8 ∧ (slice (0x01000000473B8000#64 : Word) 56 8 : BitVec 8) = 0x01#8 ∧
    (slice (0x0200000000000000#64 : Word) 56 8 : BitVec 8) = 0x02#8 ∧ (slice (0x0300000000000402#64 : Word) 56 8 : BitVec 8) = 0x03#8 ∧
    (slice (0x0400000003903C64#64 : Word) 56 8 : BitVec 8) = 0x04#8 ∧ (slice (0x0500000E3F800000#64 : Word) 56 8 : BitVec 8) = 0x05#8 ∧
    6 ≤ (slice (0x0600000000000000#64 : Word) 56 8 : BitVec 8).toNat ∧ 6 ≤ (slice (0xFF00000000000000#64 : Word) 56 8 : BitVec 8).toNat := by
  decide
theorem witness_O8 :
    Word.kind 0x0400000003803C64#64 = 0x8#4 ∧ Word.kind 0x0400000003903C64#64 = 0x9#4 ∧ Word.kind 0x0400000002D07F00#64 = 0xD#4 ∧
    Word.kind 0x0400000003E00040#64 = 0xE#4 ∧
    (Word.kind 0x0400000003B0017F#64 = 0xB#4 ∧ Word.d1 0x0400000003B0017F#64 = 0x01#7) ∧ Word.d1 0x0400000003B04040#64 = 0x40#7 ∧
    Word.d1 0x0400000003B04740#64 = 0x47#7 ∧ Word.d1 0x0400000003B04A7F#64 = 0x4A#7 ∧ Word.d1 0x0400000003B04B7F#64 = 0x4B#7 ∧
    (Word.kind 0x0400000003B07800#64 = 0xB#4 ∧ Word.d1 0x0400000003B07800#64 = 0x78#7) ∧
    (Word.kind 0x0400000003B07700#64 = 0xB#4 ∧ (Word.d1 0x0400000003B07700#64).toNat < 0x78) ∧
    Word.kind 0x0400000000903C64#64 = 0x0#4 := by decide

/-- Each clause of O9: which port's word transfers, and that none does. -/
theorem witness_O9 :
    ∃ s : State, s.sched = .par :: [] ∧ s.cmdWords[s.cp]? = some 0#64 ∧ s.parWords[s.pp]? = some 0x0500000E3F800000#64 ∧
    ∃ u : State, u.sched = .par :: [] ∧ u.cmdWords[u.cp]? = some 0#64 ∧ u.parWords[u.pp]? = none ∧
    ∃ v : State, v.sched = .cmd :: [] ∧ v.cmdWords[v.cp]? = none ∧ v.parWords[v.pp]? = some 0#64 ∧
    ∃ w : State, w.sched = [] ∧ w.cmdWords[w.cp]? = some 0#64 ∧
    ∃ x : State, x.sched = [] ∧ x.cmdWords[x.cp]? = none ∧ x.parWords[x.pp]? = some 0#64 ∧
    ∃ y : State, y.sched = .cmd :: [] ∧ y.cmdWords[y.cp]? = some 0#64 ∧
    ∃ z : State, z.sched.head? ≠ some .rst ∧ z.cmdWords[z.cp]? = none ∧ z.parWords[z.pp]? = none :=
  ⟨{ ready with sched := [.par], cmdWords := [0#64], parWords := [0x0500000E3F800000#64] }, rfl, rfl, rfl,
    { ready with sched := [.par], cmdWords := [0#64] }, rfl, rfl, rfl, { ready with sched := [.cmd], parWords := [0#64] }, rfl, rfl, rfl,
    { ready with cmdWords := [0#64] }, rfl, rfl, { ready with parWords := [0#64] }, rfl, rfl, rfl,
    { ready with sched := [.cmd], cmdWords := [0#64] }, rfl, rfl, ready, by decide, rfl, rfl⟩
theorem witness_O10 : ({ ready with sched := [.rst, .cmd] } : State).sched = .rst :: [.cmd] := rfl
theorem witness_O11 :
    (({ ready with port := .par } : State).port = .par ∧ Word.op 0x0600000000000000#64 ≠ 0x05#8 ∧ Word.op 0x0400000003903C64#64 ≠ 0x05#8) ∧
    ready.port = .cmd ∧ 0x06 ≤ (Word.op 0x0600000000000000#64).toNat ∧ 0x06 ≤ (Word.op 0xFF00000000000000#64).toNat := by decide
theorem witness_O12 : ready.port = .cmd ∧ ({ ready with port := .par } : State).port = .par := by decide
/-- Two words on the command port, one on the parameter port. -/
theorem witness_O13 :
    HostAct.rst ∉ (State.start testParams [0#64, 0#64] [0#64] [.par]).sched ∧
    (State.start testParams [0#64, 0#64] [0#64] [.par]).cp ≤ (State.start testParams [0#64, 0#64] [0#64] [.par]).cmdWords.length ∧
    (State.start testParams [0#64, 0#64] [0#64] [.par]).pp ≤ (State.start testParams [0#64, 0#64] [0#64] [.par]).parWords.length := by
  decide
theorem witness_O14 :
    (∃ t, step { withCmd 0#64 ready with fault := FaultBits.none.raise .harmClip } = .next t) ∧
    ({ withCmd 0#64 ready with fault := FaultBits.none.raise .harmClip } : State).transfer ≠ .rst ∧
    ({ withCmd 0#64 ready with fault := FaultBits.none.raise .harmClip } : State).fault.bit .harmClip = true ∧
    (∃ t, step { ready with sched := [.rst] } = .next t) ∧ ({ ready with sched := [.rst] } : State).transfer = .rst :=
  ⟨⟨_, rfl⟩, by decide, by decide, ⟨_, rfl⟩, rfl⟩
/-- Each aborting fault by the command that raises it. -/
theorem witness_O16 :
    (∃ t, exec (.illegal 6#8) ready = .next t ∧ ready.fault.bit .illegalCommand = false ∧ t.fault.bit .illegalCommand = true) ∧
    (∃ t, exec (.pwrite 20#8 0#32) ready = .next t ∧ ready.fault.bit .badParamIndex = false ∧ t.fault.bit .badParamIndex = true) ∧
    (∃ t, exec (.alloc 0#24 F.nan) ready = .next t ∧ ready.fault.bit .badSampleRate = false ∧ t.fault.bit .badSampleRate = true) ∧
    (∃ t, exec (.render 8#24 1#24 1#8) ready = .next t ∧ ready.fault.bit .obufRange = false ∧ t.fault.bit .obufRange = true) ∧
    (∃ t, exec .midiIgnored { ready with allocated := false } = .next t ∧ t.fault.bit .notAllocated = true) :=
  ⟨⟨_, exec_nextOf _ _, by decide +kernel⟩, ⟨_, exec_nextOf _ _, by decide +kernel⟩, ⟨_, exec_nextOf _ _, by decide +kernel⟩,
    ⟨_, exec_nextOf _ _, by decide +kernel⟩, ⟨_, exec_nextOf _ _, by decide +kernel⟩⟩
/-- One command for each clause of O17, with a change that meets its hypothesis. -/
theorem witness_O17 :
    (∃ t, exec (.pwrite 0#8 f1) ready = .next t ∧ t.sh ≠ ready.sh ∧ t.dirty ≠ ready.dirty) ∧
    (∃ t, exec (.render 0#24 1#24 2#8) ready = .next t ∧ t.obufR ≠ ready.obufR ∧ t.lfsr ≠ ready.lfsr) ∧
    (∃ t, exec (.alloc 0#24 f1) ready = .next t ∧ t.fs ≠ ready.fs) ∧
    (∃ t, exec (.midiPitchBend 0#7 0#7) ready = .next t ∧ t.pitchBend ≠ ready.pitchBend) ∧
    (∃ t, exec (.midiCcModwheel 1#7) ready = .next t ∧ t.modWheel ≠ ready.modWheel) ∧
    (∃ t, exec (.midiPressure 1#7) ready = .next t ∧ t.pressure ≠ ready.pressure) ∧
    (∃ t, exec (.midiCcFilterUp 1#7) ready = .next t ∧ t.filterCtl ≠ ready.filterCtl) ∧
    (∃ t, exec (.midiCcResonance 1#7) ready = .next t ∧ t.resonanceCtl ≠ ready.resonanceCtl) ∧
    (∃ t, exec (.midiCcSustain 64#7) ready = .next t ∧ t.sustain ≠ ready.sustain) ∧
    (∃ t, exec (.midiNoteOn 60#7 1#7) ready = .next t ∧ t.voices ≠ ready.voices) :=
  ⟨⟨_, exec_nextOf _ _, by decide +kernel⟩, ⟨_, exec_nextOf _ _, by decide +kernel⟩, ⟨_, exec_nextOf _ _, by decide +kernel⟩,
    ⟨_, exec_nextOf _ _, by decide +kernel⟩, ⟨_, exec_nextOf _ _, by decide +kernel⟩, ⟨_, exec_nextOf _ _, by decide +kernel⟩,
    ⟨_, exec_nextOf _ _, by decide +kernel⟩, ⟨_, exec_nextOf _ _, by decide +kernel⟩, ⟨_, exec_nextOf _ _, by decide +kernel⟩,
    ⟨_, exec_nextOf _ _, by decide +kernel⟩⟩

theorem witness_O18 : Params.default.Ok ∧ testParams.Ok := by constructor <;> constructor <;> decide
/-- A block that is set up, sounds and has a buffer in use meets the invariant, and steps. -/
def sounding : State := withCmd 0#64 { fullBank sustained with obufL := [(0, 0#8), (31, 1#8)], lfoStep := 32, outLevel := ⟨f1, f1, f1, 4⟩ }
theorem sounding_voice (i : Fin numVoices) : sounding.voice i = voiceAt 60 100#7 sustained := by
  simp [sounding, withCmd, fullBank, State.voice, Vector.get]
theorem witness_O19 : sounding.Inv ∧ ∃ t, step sounding = .next t := by
  refine ⟨⟨witness_O18.2, by decide, by decide, by decide, by decide, by decide, ?_, ?_, fun _ => ⟨0x46DC0000#32, by decide +kernel⟩,
    fun h => absurd h (by decide), ⟨by decide, by decide⟩, ⟨by decide, by decide⟩⟩, _, rfl⟩
  · intro i; rw [sounding_voice]; decide
  · intro i; rw [sounding_voice]; decide
/-- Voice 0 sounds with a phase, the others are clean. -/
theorem witness_O20 :
    (oneVoice { voiceAt 60 100#7 sustained with oscA := ⟨f1, f0_5, f0_5, f1⟩ }).InactiveClean ∧
    ∃ t, step (oneVoice { voiceAt 60 100#7 sustained with oscA := ⟨f1, f0_5, f0_5, f1⟩ }) = .next t := by
  refine ⟨?_, _, rfl⟩
  intro i hi
  rw [oneVoice, voice_setVoice] at *
  split at hi
  · exact absurd hi (by decide)
  · rename_i h
    rw [if_neg h]
    have : ready.voice i = Voice.powerOn testParams := by simp [ready, State.voice, State.resetWith, Vector.get]
    rw [this]
    exact ⟨rfl, rfl, rfl, rfl⟩
theorem witness_O21 : ready.port = .cmd ∧ ready.allocated = true := by decide
theorem witness_O22 :
    (0#8).toNat < 20 ∧ (19#8).toNat < 20 ∧ 20 ≤ (20#8).toNat ∧ 20 ≤ (255#8).toNat ∧ ready.port = .cmd ∧
    ({ ready with port := .par } : State).port = .par := by decide
/-- The least and the greatest rate that is taken, and rates that are not. -/
theorem witness_O23 :
    ready.port = .cmd ∧ (F.gt 0x00800000#32 F.zero = true ∧ F.lt 0x00800000#32 F.inf = true) ∧
    (F.gt 0x7F7FFFFF#32 F.zero = true ∧ F.lt 0x7F7FFFFF#32 F.inf = true) ∧
    ¬ (F.gt 0x007FFFFF#32 F.zero = true ∧ F.lt 0x007FFFFF#32 F.inf = true) ∧
    ¬ (F.gt F.inf F.zero = true ∧ F.lt F.inf F.inf = true) ∧ ¬ (F.gt F.nan F.zero = true ∧ F.lt F.nan F.inf = true) := by decide
theorem witness_O24 : (0x00800000 ≤ (0x00800000#32 : F).toNat ∧ (0x00800000#32 : F).toNat < 0x7F800000) := by decide
theorem witness_O25 : ready.port = .cmd := by decide
/-- The three clauses of O26: not allocated, one frame too many, exactly full. -/
theorem witness_O26 :
    (({ ready with allocated := false } : State).port = .cmd ∧ ({ ready with allocated := false } : State).allocated = false) ∧
    (ready.port = .cmd ∧ ready.allocated = true ∧ ready.params.obufDepth < (4#24).toNat + (5#24).toNat) ∧
    (4#24).toNat + (4#24).toNat ≤ ready.params.obufDepth := by decide
theorem witness_O27 : ready.port = .cmd ∧ ready.allocated = true ∧ (4#24).toNat + (4#24).toNat ≤ ready.params.obufDepth ∧
    ∃ u, u = frames 2#8 (4#24).toNat (4#24).toNat (if ready.dirty = true then
        { ready with
          dirty := false
          cfg := ready.sh
          outLevel := smSetTarget ready.params.smoothN ready.outLevel (ready.sh.get 14)
          oscMix := smSetTarget ready.params.smoothN ready.oscMix (ready.sh.get 12) }
      else ready) := ⟨by decide, by decide, by decide, _, rfl⟩
/-- Both kinds of buffer, an inactive voice, a byte before and a byte behind the frames, and a block of no frames. -/
theorem witness_O28 : (oneVoice (voiceAt 60 100#7 sustained)).port = .cmd ∧ (oneVoice (voiceAt 60 100#7 sustained)).allocated = true ∧
    (2#24).toNat + (4#24).toNat ≤ (oneVoice (voiceAt 60 100#7 sustained)).params.obufDepth ∧
    (7 < 4 * (2#24).toNat ∨ 4 * ((2#24).toNat + (4#24).toNat) ≤ 7) ∧ (24 < 4 * (2#24).toNat ∨ 4 * ((2#24).toNat + (4#24).toNat) ≤ 24) ∧
    ((2#24).toNat ≤ 5 ∧ 5 < (2#24).toNat + (4#24).toNat) ∧ ((oneVoice (voiceAt 60 100#7 sustained)).voice 1).active = false := by
  decide +kernel
/-- O29's hypotheses name values: a frame of any state meets them. -/
theorem witness_O29 : ∃ a, a = (if sounding.lfoStep - 1 ≤ 0 then lfoTick { sounding with lfoStep := sounding.params.lfoMax }
    else { sounding with lfoStep := sounding.lfoStep - 1 }) ∧ ∃ l, l = (lfsrStep sounding.params.noiseTaps)^[sounding.params.noiseSteps]
    sounding.lfsr ∧ ∃ n, n = F.mul (noiseValue l) (sounding.cfg.get 13) ∧ ∃ mix, mix = smNext sounding.oscMix ∧
    ∃ acc, acc = a.voices.toList.foldl (fun acc v =>
      if F.gt v.env.level silence = true then
        (F.add acc.1 (F.mul (voiceRender sounding.params sounding.nyqVal n mix.cur v).sample v.panLeft),
          F.add acc.2 (F.mul (voiceRender sounding.params sounding.nyqVal n mix.cur v).sample v.panRight))
      else acc) (F.zero, F.zero) ∧ ∃ g, g = smNext sounding.outLevel ∧ ∃ outL, outL = F.mul acc.1 g.cur ∧
    ∃ outR, outR = F.mul acc.2 g.cur := ⟨_, rfl, _, rfl, _, rfl, _, rfl, _, rfl, _, rfl, _, rfl, _, rfl⟩
/-- O29: the last byte of frame 1's element and the bytes on either side of it; a set `NYQ`. -/
theorem witness_O29_bytes : (3 < 4) ∧ (3 < 4 * 1 ∨ 4 * 1 + 4 ≤ 3) ∧ (8 < 4 * 1 ∨ 4 * 1 + 4 ≤ 8) ∧ ready.nyq = some 0x465C0000#32 := by decide
theorem witness_O30 : ready.port = .cmd ∧ ready.allocated = true ∧ (0#24).toNat + (8#24).toNat ≤ ready.params.obufDepth ∧
    (∃ t, exec (.render 0#24 8#24 2#8) ready = .next t) ∧
    ∃ t, exec (.render 0#24 0#24 2#8) ready = .next t ∧ (t.voice 3).active = false :=
  ⟨by decide, by decide, by decide, ⟨_, exec_nextOf _ _⟩, _, exec_nextOf _ _, by decide +kernel⟩
/-- Sixteen sustained voices are all active after the first part of a split block. -/
theorem witness_O31 : (fullBank sustained).port = .cmd ∧ (fullBank sustained).allocated = true ∧
    (0#24).toNat + (1#24).toNat + (7#24).toNat ≤ (fullBank sustained).params.obufDepth ∧ (0#24).toNat + (1#24).toNat < 2 ^ 24 ∧
    (1#24).toNat + (7#24).toNat < 2 ^ 24 ∧
    (∃ s1, exec (.render 0#24 1#24 2#8) (fullBank sustained) = .next s1 ∧ s1.AllActive) ∧
    ∃ s2, exec (.render 0#24 (1#24 + 7#24) 2#8) (fullBank sustained) = .next s2 :=
  ⟨by decide, by decide, by decide, by decide, by decide,
    ⟨_, exec_nextOf _ _, by unfold State.AllActive; decide +kernel⟩, _, exec_nextOf _ _⟩
theorem witness_O32 : ready.port = .cmd ∧ ready.allocated = true ∧ (0#24).toNat + (8#24).toNat ≤ ready.params.obufDepth ∧
    ready.AllInactive ∧ (∃ t, exec .reset ready = .next t) ∧ (∃ t, exec (.render 0#24 8#24 2#8) ready = .next t) ∧
    (∀ n v, Instr.midiNoteOn 60#7 0#7 = .midiNoteOn n v → v = 0#7) ∧ (∃ t, exec (.midiNoteOn 60#7 0#7) ready = .next t) ∧
    F.isFinite 0x7F7FFFFF#32 = true ∧ F.isFinite F.inf = false ∧
    ∃ z, z = F.mul F.zero (smNext^[7 + 1] (latch ready).outLevel).cur :=
  ⟨by decide, by decide, by decide, by unfold State.AllInactive; decide +kernel, ⟨_, exec_nextOf _ _⟩, ⟨_, exec_nextOf _ _⟩,
    fun _ _ h => by injection h with _ h; exact h.symm, ⟨_, exec_nextOf _ _⟩, by decide, by decide, _, rfl⟩
/-- Another bank that agrees on slot 0 alone. -/
theorem witness_O33 : (oneVoice (voiceAt 60 100#7 sustained)).voices.get 0 = (fullBank sustained).voice 0 ∧
    (oneVoice (voiceAt 60 100#7 sustained)).voices.get 1 ≠ (fullBank sustained).voice 1 := by decide +kernel
theorem witness_O34 : Instr.isMidi (.midiPressure 0#7) = true ∧ ({ ready with allocated := false } : State).port = .cmd ∧
    ({ ready with allocated := false } : State).allocated = false := by decide
theorem witness_O35 : (oneVoice (voiceAt 60 100#7 sustained)).port = .cmd ∧ (oneVoice (voiceAt 60 100#7 sustained)).allocated = true ∧
    ((oneVoice (voiceAt 60 100#7 sustained)).voice 0).note = ((60#7).toNat : Int) := by decide +kernel
/-- The hypotheses of O36 that are no names: the greatest velocity, and the slot the scan finds. -/
theorem witness_O36 : ready.port = .cmd ∧ ready.allocated = true ∧ ready.fs = some 0x46DC0000#32 ∧ (127#7) ≠ 0#7 ∧
    (1 : Fin numVoices) = findVoice (oneVoice (voiceAt 61 100#7 sustained)) ((60#7).toNat : Int) := by decide +kernel
theorem witness_O37 : ready.port = .cmd ∧ ready.allocated = true ∧ ready.InactiveClean ∧ (1#7) ≠ 0#7 := by
  refine ⟨by decide, by decide, ?_, by decide⟩
  intro i _
  have : ready.voice i = Voice.powerOn testParams := by simp [ready, State.voice, State.resetWith, Vector.get]
  rw [this]
  exact ⟨rfl, rfl, rfl, rfl⟩
/-- O38: an inactive voice behind an active one; a held note behind an inactive one is not taken; a bank to steal from; a bank in attack,
its targets exactly 2.0. -/
theorem witness_O38 :
    (((oneVoice (voiceAt 60 100#7 sustained)).voice 1).active = false ∧
      ∀ j : Fin numVoices, j < 1 → ((oneVoice (voiceAt 60 100#7 sustained)).voice j).active = true ∧
        ((oneVoice (voiceAt 60 100#7 sustained)).voice j).note ≠ 61) ∧
    (∀ i, ((fullBank sustained).voice i).active = true ∧ ((fullBank sustained).voice i).note ≠ 61) ∧
    (∃ i, F.ge ((fullBank sustained).voice i).env.target 0x40000000#32 = false ∧
      F.lt (F.mul (F.ofNat ((fullBank sustained).voice i).velocity.toNat) ((fullBank sustained).voice i).env.level) F.inf = true) ∧
    (∀ i, ((fullBank (envAt f1 f2 F.zero)).voice i).active = true ∧ ((fullBank (envAt f1 f2 F.zero)).voice i).note ≠ 61) ∧
    (∀ i, F.ge ((fullBank (envAt f1 f2 F.zero)).voice i).env.target 0x40000000#32 ≠ false) := by decide +kernel
theorem witness_O39 : ready.port = .cmd ∧ ready.allocated = true := by decide
theorem witness_O40 : ready.port = .cmd ∧ ready.allocated = true ∧ Params.default.pbK.isFinite = true ∧ F.isFinite 0x7F7FFFFF#32 = true ∧
    ((-126 : Int) ≤ -126 ∧ (-126 : Int) ≤ 127) ∧ ((-126 : Int) ≤ 127 ∧ (127 : Int) ≤ 127) := by decide
theorem witness_O41 : ready.port = .cmd ∧ ready.allocated = true ∧ 64 ≤ (64#7).toNat ∧ (63#7).toNat < 64 := by decide
theorem witness_O42 : ready.port = .cmd ∧ ready.allocated = true := by decide
theorem witness_O43 : ({ oneVoice (voiceAt 60 100#7 sustained) with sustain := true } : State).port = .cmd ∧
    ({ oneVoice (voiceAt 60 100#7 sustained) with sustain := true } : State).allocated = true ∧
    ({ oneVoice (voiceAt 60 100#7 sustained) with sustain := true } : State).sustain = true ∧ (63#7).toNat < 64 ∧
    (({ oneVoice (voiceAt 60 100#7 sustained) with sustain := true } : State).voice 0).note = ((60#7).toNat : Int) := by decide +kernel
/-- A `PWRITE` of another index, and a command that is none. -/
theorem witness_O44 : (∀ off cnt chan, Instr.pwrite 1#8 f1 ≠ .render off cnt chan) ∧ (∀ v, Instr.pwrite 1#8 f1 ≠ .pwrite 0#8 v) ∧
    (∀ off cnt chan, Instr.reset ≠ .render off cnt chan) ∧ (∀ v, Instr.reset ≠ .pwrite 0#8 v) ∧
    ∃ t, exec (.pwrite 0#8 f1) { ready with port := .par } = .next t ∧ ∃ u, exec (.pwrite 1#8 f1) { t with port := .cmd } = .next u :=
  ⟨fun _ _ _ h => (by cases h), fun _ h => absurd (Instr.pwrite.inj h).1 (by decide), fun _ _ _ h => (by cases h),
    fun _ h => (by cases h), _, exec_nextOf _ _, _, exec_nextOf _ _⟩
theorem witness_O45 : ({ ready with dirty := true } : State).port = .cmd ∧ ({ ready with dirty := true } : State).allocated = true ∧
    ({ ready with dirty := true } : State).dirty = true := by decide
theorem witness_O46 : 1 ≤ 1 ∧ (0 < 1) ∧ (0 + 1 < 4) ∧ (4 ≤ 4) := by decide
theorem witness_O47 : ready.lfoStep = 0 ∧ 1 ≤ ready.params.lfoMax ∧ ({ ready with params := { testParams with lfoMax := 1 } } : State).lfoStep = 0 ∧
    1 ≤ ({ ready with params := { testParams with lfoMax := 1 } } : State).params.lfoMax := by decide
theorem witness_O48 : sounding.fs = some 0x46DC0000#32 ∧ ∃ lfo, lfo = (if F.gt (F.add sounding.lfo (sounding.cfg.get 8)) pi = true
      then F.sub (F.add sounding.lfo (sounding.cfg.get 8)) twoPi else F.add sounding.lfo (sounding.cfg.get 8)) ∧
    ∃ sine, sine = SIN sounding.params.num lfo ∧ ∃ vib, vib = F.add f1 (F.mul sine (F.add sounding.modWheel (sounding.cfg.get 9))) ∧
    ∃ zip, zip = F.add sounding.filterZip (F.mul fzipCoef (F.sub (F.add (F.add (sounding.cfg.get 15) sounding.filterCtl)
      (F.mul (F.add (sounding.cfg.get 16) sounding.pressure) sine)) sounding.filterZip)) := ⟨by decide, _, rfl, _, rfl, _, rfl, _, rfl⟩
theorem witness_O49 : ((oneVoice (voiceAt 60 100#7 sustained)).voice 0).active = true ∧
    ((oneVoice (voiceAt 60 100#7 sustained)).voice 1).active = false := by decide +kernel
/-- The bounds: the phase just above `-PI` and at `PI`, the increment 0 and `TWO_PI`. -/
theorem witness_O50 : (F.lt (F.neg pi) 0xC0490FDA#32 = true ∧ F.le 0xC0490FDA#32 pi = true) ∧ (F.lt (F.neg pi) pi = true ∧ F.le pi pi = true) ∧
    (F.le F.zero F.zero = true ∧ F.le F.zero twoPi = true) ∧ F.le F.zero twoPi = true ∧ F.le twoPi twoPi = true := by decide
theorem witness_O52 : (0x80200003#32).msb = true ∧ (1#32).getLsbD 0 = true ∧ (2#32).getLsbD 0 = false ∧ lfsrStep 0x80200003#32 6#32 = lfsrStep 0x80200003#32 6#32 ∧
    lfsrStep 0x80200003#32 0#32 = 0#32 := by decide
/-- E4's two sums on either side of the test, and the example's envelope. -/
theorem witness_O53 :
    (∃ e : Env, F.gt (F.add (F.add (F.mul e.coef (F.sub e.level e.target)) e.target) e.target) 0x40400000#32 = true) ∧
    (∃ e : Env, F.gt (F.add (F.add (F.mul e.coef (F.sub e.level e.target)) e.target) e.target) 0x40400000#32 = false) ∧
    ∃ e : Env, e.level = 0x3951B717#32 ∧ e.target = 0x40000000#32 ∧ e.coef = 0x3F000000#32 ∧ e.s = 0x3F000000#32 ∧ e.d = 0x3F000000#32 :=
  ⟨⟨envAt F.zero f2 F.zero, by decide +kernel⟩, ⟨envAt F.zero F.zero F.zero, by decide +kernel⟩,
    ⟨0x3951B717#32, 0x40000000#32, 0x3F000000#32, F.zero, 0x3F000000#32, 0x3F000000#32, F.zero⟩, rfl, rfl, rfl, rfl, rfl⟩
/-- The slowest release from the highest level, and the fastest. -/
theorem witness_O54 :
    ((envAt decayThreshold F.zero 0x3F7FFFFF#32).target = F.zero ∧ F.le F.zero (envAt decayThreshold F.zero 0x3F7FFFFF#32).coef = true ∧
      F.lt (envAt decayThreshold F.zero 0x3F7FFFFF#32).coef f1 = true ∧
      F.le F.zero (envAt decayThreshold F.zero 0x3F7FFFFF#32).level = true ∧
      F.le (envAt decayThreshold F.zero 0x3F7FFFFF#32).level decayThreshold = true) ∧
    F.le F.zero (envAt f1 F.zero F.zero).coef = true := by decide
theorem witness_O55 : ∃ e : Env, e.level = F.zero ∧ F.le F.zero e.a = true ∧ F.lt e.a f1 = true :=
  ⟨{ Env.zero with a := 0x3F7FFFFF#32 }, by decide⟩
theorem witness_O56 : (F.zero.phaseRange ∧ F.phaseRange 0x3F7FFFFF#32) := by unfold F.phaseRange; decide
theorem witness_O57 : F.phaseRange 0x3F7FFFFF#32 ∧ F.within F.zero f1 f1 := by unfold F.phaseRange F.within; decide
/-- The three branches of O58's poly-BLEP clause, at increment 1/64. -/
theorem witness_O58 :
    F.lt F.zero 0x3C800000#32 = true ∧
    (F.lt 0x3F7D0000#32 0x3C800000#32 = false ∧ F.gt 0x3F7D0000#32 (F.sub f1 0x3C800000#32) = true) ∧
    (F.lt 0x3F7C0000#32 0x3C800000#32 = false ∧ F.gt 0x3F7C0000#32 (F.sub f1 0x3C800000#32) = false) := by decide
/-- O4's seven harmonics: 7 * 1760 is below 14080 and 8 * 1760 is not. -/
theorem witness_O59 : 7 ≤ testParams.harmMax ∧ (∀ i : Fin 8, 1 ≤ i.val → F.lt (F.mul (F.ofNat i.val) 0x44DC0000#32) 0x465C0000#32 = true) ∧
    F.lt (F.mul (F.ofNat (7 + 1)) 0x44DC0000#32) 0x465C0000#32 = false := by decide +kernel
theorem witness_O60 : ∃ b, b = (if F.lt 0x42200000#32 0x42200000#32 = true then Strategy.naive
      else if F.lt 0x42200000#32 0x447A0000#32 = true then .blep else .additive) ∧
    ∃ oB, oB = { Osc.zero with amp := F.mul Osc.zero.amp f1 } ∧ ∃ ra, ra = oscRender testParams f1 b Osc.zero ∧
    ∃ rb, rb = oscRender testParams f1 b oB ∧
    ∃ x, x = F.add (F.add ra.sample rb.sample) (F.mul f1 (F.div (F.ofNat (100#7).toNat) 0x42FE0000#32)) :=
  ⟨_, rfl, _, rfl, _, rfl, _, rfl, _, rfl⟩

end Sys2Proof.Tests
end

/-! PROOFS. The statements of spec/10_state.md: what a step can do to the state as a whole (the pointers, the fault bits, who writes
what), the two invariants of R55 and R301 through every step, and hardware reset. -/

namespace Sys2Proof.Machine

/-! ## Transfers -/

theorem step_of_word {s : State} {p : Port} {w : Word} (h : s.transfer = .word p w) : step s = exec (decode w) (s.accept p) := by
  rw [step, h]

theorem step_of_rst {s : State} (h : s.transfer = .rst) : step s = .next (hardwareReset s) := by
  rw [step, h]

theorem firstPending_first {s : State} {p q : Port} {w : Word} (h : s.pending p = some w) : s.firstPending p q = .word p w := by
  rw [State.firstPending, h]

theorem firstPending_second {s : State} {p q : Port} {w : Word} (hp : s.pending p = none) (hq : s.pending q = some w) :
    s.firstPending p q = .word q w := by
  rw [State.firstPending, hp, hq]

theorem firstPending_none {s : State} {p q : Port} (hp : s.pending p = none) (hq : s.pending q = none) : s.firstPending p q = .idle := by
  rw [State.firstPending, hp, hq]

theorem transfer_cmd {s : State} {rest : List HostAct} (h : s.sched = .cmd :: rest) : s.transfer = s.firstPending .cmd .par := by
  rw [State.transfer, h]
theorem transfer_par {s : State} {rest : List HostAct} (h : s.sched = .par :: rest) : s.transfer = s.firstPending .par .cmd := by
  rw [State.transfer, h]
theorem transfer_rst {s : State} {rest : List HostAct} (h : s.sched = .rst :: rest) : s.transfer = .rst := by
  rw [State.transfer, h]
theorem transfer_nil {s : State} (h : s.sched = []) : s.transfer = s.firstPending .cmd .par := by
  rw [State.transfer, h]

/-- With no word on either port nothing but a reset can happen (R284). -/
theorem transfer_idle {s : State} (hr : s.sched.head? ≠ some .rst) (hc : s.pending .cmd = none) (hp : s.pending .par = none) :
    s.transfer = .idle := by
  match hs : s.sched with
  | [] => rw [transfer_nil hs, firstPending_none hc hp]
  | .cmd :: _ => rw [transfer_cmd hs, firstPending_none hc hp]
  | .par :: _ => rw [transfer_par hs, firstPending_none hp hc]
  | .rst :: _ => exact absurd (by rw [hs]; rfl) hr

/-- A step whose next transfer is a word, with the interleaving named. -/
theorem step_of_word_sched {s : State} {p : Port} {w : Word} {acts : List HostAct} (hs : s.sched.tail = acts)
    (h : s.transfer = .word p w) : step s = exec (decode w) { s with port := p, sched := acts } := by
  rw [step_of_word h, State.accept, hs]

/-! ## What an effect leaves alone -/

/-- What the sustain controller does to one voice (R255). -/
def voicePedal (d2 : BitVec 7) (v : Voice) : Voice := if pedalOn ≤ d2.toNat then v else voicePedalUp v

/-- The sustain controller as one update of the voices and the pedal (R255). -/
theorem sustainPedal_eq (d2 : BitVec 7) (s : State) :
    sustainPedal d2 s = { s.mapVoices (voicePedal d2) with sustain := decide (pedalOn ≤ d2.toNat) } := by
  by_cases h : pedalOn ≤ d2.toNat
  · simp [sustainPedal, voicePedal, h, State.mapVoices, vmap_same]
  · have hf : voicePedal d2 = voicePedalUp := funext fun v => if_neg h
    simp [sustainPedal, hf, h]

/-- No effect writes a pointer or one of the model's own fields. -/
theorem Effect.control {i : Instr} {s u : State} (h : Effect i s u) :
    u.cp = s.cp ∧ u.pp = s.pp ∧ u.port = s.port ∧ u.cmdWords = s.cmdWords ∧ u.parWords = s.parWords ∧ u.sched = s.sched ∧
      u.params = s.params := by
  cases h with
  | render => simp [renderBlock]
  | sustain => simp [sustainPedal_eq]
  | _ => exact ⟨rfl, rfl, rfl, rfl, rfl, rfl, rfl⟩

/-- An effect raises `HarmClip` or nothing (R271). -/
theorem Effect.fault {i : Instr} {s u : State} (h : Effect i s u) : u.fault = s.fault ∨ u.fault = s.fault.raise .harmClip := by
  cases h with
  | @render off cnt chan => simpa [renderBlock] using frames_fault chan off.toNat cnt.toNat (latch s)
  | sustain => simp [sustainPedal_eq]
  | _ => exact .inl rfl

/-- The pointers after a command's end (R28). -/
theorem State.advance_pointers (s : State) :
    (s.port = .cmd → s.advance.cp = s.cp + 1 ∧ s.advance.pp = s.pp) ∧ (s.port = .par → s.advance.cp = s.cp ∧ s.advance.pp = s.pp + 1) :=
  ⟨fun h => by simp [State.advance_cmd h], fun h => by simp [State.advance_par h]⟩

/-! ## The fault bits -/

/-- Raising a fault sets its bit and no other (R32). -/
theorem FaultBits.bit_raise (f : FaultBits) (j k : FaultCode) : (f.raise k).bit j = (decide (j = k) || f.bit j) := by
  cases j <;> cases k <;> rfl

/-- A raised fault clears no bit (R32). -/
theorem FaultBits.bit_raise_of_bit {f : FaultBits} {j : FaultCode} (k : FaultCode) (h : f.bit j = true) : (f.raise k).bit j = true := by
  rw [FaultBits.bit_raise, h, Bool.or_true]

/-- No command clears a fault bit (R277). -/
theorem exec_fault_sticky {i : Instr} {s t : State} {k : FaultCode} (h : exec i s = .next t) (hk : s.fault.bit k = true) :
    t.fault.bit k = true := by
  rcases exec_next_cases h with ⟨j, -, rfl⟩ | ⟨u, hu, rfl, -⟩
  · simpa [State.abort] using FaultBits.bit_raise_of_bit j hk
  · rw [State.advance_fault]
    rcases hu.fault with hf | hf <;> rw [hf]
    · exact hk
    · exact FaultBits.bit_raise_of_bit _ hk

/-! ## Who writes what -/

section Writers
variable {i : Instr} {s u : State}

theorem Effect.sh_writer (h : Effect i s u) : u.sh = s.sh ∨ ∃ idx value, i = .pwrite idx value := by
  cases h with
  | pwrite => exact .inr ⟨_, _, rfl⟩
  | _ => exact .inl (by simp [renderBlock, sustainPedal_eq])

theorem Effect.dirty_writer (h : Effect i s u) :
    u.dirty = s.dirty ∨ (∃ idx value, i = .pwrite idx value) ∨ ∃ off cnt chan, i = .render off cnt chan := by
  cases h with
  | pwrite => exact .inr (.inl ⟨_, _, rfl⟩)
  | render => exact .inr (.inr ⟨_, _, _, rfl⟩)
  | _ => exact .inl (by simp [sustainPedal_eq])

/-- Only `RENDER` latches the active bank and stores into the buffers (R63, R203). -/
theorem Effect.output_writer (h : Effect i s u) :
    (u.cfg = s.cfg ∧ u.obufL = s.obufL ∧ u.obufR = s.obufR) ∨ ∃ off cnt chan, i = .render off cnt chan := by
  cases h with
  | render => exact .inr ⟨_, _, _, rfl⟩
  | _ => exact .inl (by simp [sustainPedal_eq])

/-- Only `ALLOC` sets a sample rate (R36). -/
theorem Effect.rate_writer (h : Effect i s u) :
    (u.fs = s.fs ∧ u.nyq = s.nyq ∧ u.allocated = s.allocated) ∨ ∃ hint rate, i = .alloc hint rate := by
  cases h with
  | alloc => exact .inr ⟨_, _, rfl⟩
  | _ => exact .inl (by simp [renderBlock, sustainPedal_eq])

/-- Only `RESET` and `RENDER` move the generators: the noise register, the LFO and the smoothers. -/
theorem Effect.generator_writer (h : Effect i s u) :
    (u.lfsr = s.lfsr ∧ u.lfo = s.lfo ∧ u.lfoStep = s.lfoStep ∧ u.vibratoMod = s.vibratoMod ∧ u.filterZip = s.filterZip ∧
      u.outLevel = s.outLevel ∧ u.oscMix = s.oscMix) ∨ i = .reset ∨ ∃ off cnt chan, i = .render off cnt chan := by
  cases h with
  | reset => exact .inr (.inl rfl)
  | render => exact .inr (.inr ⟨_, _, _, rfl⟩)
  | _ => exact .inl (by simp [sustainPedal_eq])

theorem Effect.pitchBend_writer (h : Effect i s u) :
    u.pitchBend = s.pitchBend ∨ i = .reset ∨ ∃ d1 d2, i = .midiPitchBend d1 d2 := by
  cases h with
  | reset => exact .inr (.inl rfl)
  | pitchBend => exact .inr (.inr ⟨_, _, rfl⟩)
  | _ => exact .inl (by simp [renderBlock, sustainPedal_eq])

theorem Effect.modWheel_writer (h : Effect i s u) : u.modWheel = s.modWheel ∨ i = .reset ∨ ∃ v, i = .midiCcModwheel v := by
  cases h with
  | reset => exact .inr (.inl rfl)
  | modWheel => exact .inr (.inr ⟨_, rfl⟩)
  | _ => exact .inl (by simp [renderBlock, sustainPedal_eq])

theorem Effect.pressure_writer (h : Effect i s u) : u.pressure = s.pressure ∨ i = .reset ∨ ∃ v, i = .midiPressure v := by
  cases h with
  | reset => exact .inr (.inl rfl)
  | pressure => exact .inr (.inr ⟨_, rfl⟩)
  | _ => exact .inl (by simp [renderBlock, sustainPedal_eq])

theorem Effect.filterCtl_writer (h : Effect i s u) :
    u.filterCtl = s.filterCtl ∨ i = .reset ∨ ∃ v, i = .midiCcFilterUp v ∨ i = .midiCcFilterDown v := by
  cases h with
  | reset => exact .inr (.inl rfl)
  | filterUp => exact .inr (.inr ⟨_, .inl rfl⟩)
  | filterDown => exact .inr (.inr ⟨_, .inr rfl⟩)
  | _ => exact .inl (by simp [renderBlock, sustainPedal_eq])

theorem Effect.resonanceCtl_writer (h : Effect i s u) :
    u.resonanceCtl = s.resonanceCtl ∨ i = .reset ∨ ∃ v, i = .midiCcResonance v := by
  cases h with
  | reset => exact .inr (.inl rfl)
  | resonance => exact .inr (.inr ⟨_, rfl⟩)
  | _ => exact .inl (by simp [renderBlock, sustainPedal_eq])

theorem Effect.sustain_writer (h : Effect i s u) :
    u.sustain = s.sustain ∨ i = .reset ∨ (∃ v, i = .midiCcSustain v) ∨ ∃ ctl v, i = .midiCcAllOff ctl v := by
  cases h with
  | reset => exact .inr (.inl rfl)
  | sustain => exact .inr (.inr (.inl ⟨_, rfl⟩))
  | allOff => exact .inr (.inr (.inr ⟨_, _, rfl⟩))
  | _ => exact .inl (by simp [renderBlock])

theorem Effect.voices_writer (h : Effect i s u) :
    u.voices = s.voices ∨ i = .reset ∨ (∃ hint rate, i = .alloc hint rate) ∨ (∃ off cnt chan, i = .render off cnt chan) ∨
      (∃ n v, i = .midiNoteOff n v ∨ i = .midiNoteOn n v) ∨ (∃ v, i = .midiCcSustain v) ∨ ∃ ctl v, i = .midiCcAllOff ctl v := by
  cases h with
  | alloc | reset | render | noteOff | noteOnZero | noteOn | sustain | allOff => exact .inr (by simp)
  | _ => exact .inl (by simp)

end Writers

/-- A command changes a field that neither an abort nor a pointer touches only through its effect. -/
theorem exec_writer {α : Type} {i : Instr} {s t : State} {P : Prop} (f : State → α) (h : exec i s = .next t) (hne : f t ≠ f s)
    (hadv : ∀ u : State, f u.advance = f u) (hraise : ∀ k, f (s.raise k) = f s) (heff : ∀ u, Effect i s u → f u = f s ∨ P) : P := by
  rcases exec_next_cases h with ⟨k, -, rfl⟩ | ⟨u, hu, rfl, -⟩
  · exact absurd ((hadv _).trans (hraise k)) hne
  · exact (heff u hu).resolve_left fun he => hne ((hadv u).trans he)

/-- No command writes one of the model's own fields. -/
theorem exec_control {i : Instr} {s t : State} (h : exec i s = .next t) :
    t.port = s.port ∧ t.cmdWords = s.cmdWords ∧ t.parWords = s.parWords ∧ t.sched = s.sched ∧ t.params = s.params := by
  rcases exec_next_cases h with ⟨k, -, rfl⟩ | ⟨u, hu, rfl, -⟩
  · simp [State.abort]
  · obtain ⟨-, -, hown⟩ := hu.control
    simpa using hown

/-! ## An invariant through a step -/

/-- `s` with every field that neither `State.Inv` nor `State.InactiveClean` looks at taken from `c`. -/
def State.withUncheckedOf (s c : State) : State :=
  { s with
    pitchBend := c.pitchBend, modWheel := c.modWheel, pressure := c.pressure, filterCtl := c.filterCtl
    resonanceCtl := c.resonanceCtl, filterZip := c.filterZip, vibratoMod := c.vibratoMod, lfo := c.lfo, sustain := c.sustain
    sh := c.sh, cfg := c.cfg, dirty := c.dirty, fault := c.fault, cp := c.cp, pp := c.pp, port := c.port
    cmdWords := c.cmdWords, parWords := c.parWords, sched := c.sched }

theorem State.Inv.of_unchecked {s t : State} (h : s.Inv) (ht : t = s.withUncheckedOf t) : t.Inv := by
  rw [ht]; exact h.congr (fun _ => rfl) rfl rfl rfl rfl rfl rfl rfl rfl rfl rfl

theorem State.InactiveClean.of_unchecked {s t : State} (h : s.InactiveClean) (ht : t = s.withUncheckedOf t) : t.InactiveClean :=
  h.congr (by rw [ht]; rfl)

theorem State.advance_eq_withUncheckedOf (s : State) : s.advance = s.withUncheckedOf s.advance := by
  cases hp : s.port
  · rw [State.advance_cmd hp]; rfl
  · rw [State.advance_par hp]; rfl

/-- What a property needs in order to go through every step: not to look at the unchecked fields, to hold after a hardware reset, and to
be kept by every effect. -/
theorem step_preserves {P : State → Prop} (unchecked : ∀ {s t : State}, P s → t = s.withUncheckedOf t → P t)
    (reset : ∀ s, P s → P (State.resetWith s.params)) (effect : ∀ {i s u}, P s → Effect i s u → P u) {s t : State} (hs : P s)
    (h : step s = .next t) : P t := by
  rcases step_cases h with ⟨-, rfl⟩ | ⟨-, rfl⟩ | ⟨p, w, -, he⟩
  · exact unchecked hs rfl
  · exact unchecked (reset s hs) rfl
  · have ha : P (s.accept p) := unchecked hs rfl
    rcases exec_next_cases he with ⟨k, -, rfl⟩ | ⟨u, hu, rfl, -⟩
    · have hr : P ((s.accept p).raise k) := unchecked ha rfl
      exact unchecked hr (State.advance_eq_withUncheckedOf _)
    · exact unchecked (effect ha hu) (State.advance_eq_withUncheckedOf u)

/-! ## The register invariant -/

/-- A right shift of a register whose last bit is clear loses nothing, and a shift with feedback sets the top bit (R112). -/
theorem lfsrStep_ne_zero {taps x : BitVec 32} (ht : taps.msb = true) (hx : x ≠ 0#32) : lfsrStep taps x ≠ 0#32 := by
  intro h0
  cases hb : x.getLsbD 0 with
  | true =>
    have hm : (lfsrStep taps x).msb = true := by rw [lfsrStep_odd hb, BitVec.msb_xor, shiftRight_msb, ht]; rfl
    rw [h0] at hm
    exact absurd hm (by decide)
  | false =>
    rw [lfsrStep_even hb] at h0
    have h2 := congrArg BitVec.toNat h0
    simp only [BitVec.toNat_ushiftRight, Nat.shiftRight_eq_div_pow, BitVec.toNat_ofNat] at h2
    have h1 : x.toNat % 2 = 0 := by simpa [BitVec.getLsbD, Nat.testBit_zero] using hb
    exact hx (BitVec.eq_of_toNat_eq (by simp only [BitVec.toNat_ofNat]; omega))

/-- The noise register stays nonzero over any number of draws (R48, R113). -/
theorem noiseAdvance_iterate_ne_zero {p : Params} {x : BitVec 32} (ht : p.noiseTaps.msb = true) (hx : x ≠ 0#32) (n : Nat) :
    (noiseAdvance p)^[n] x ≠ 0#32 := by
  refine Function.Iterate.rec (· ≠ 0#32) hx (fun y hy => ?_) n
  rw [noiseAdvance, lfsrSteps_eq_iterate]
  exact Function.Iterate.rec (· ≠ 0#32) hy (fun z hz => lfsrStep_ne_zero ht hz) _

/-- The LFO counter stays in its range over a run of frames (R44, R207). -/
theorem frames_lfoStep_range {chan : BitVec 8} (k n : Nat) {s : State} (hp : 1 ≤ s.params.lfoMax) (hl : -1 ≤ s.lfoStep)
    (hh : s.lfoStep ≤ s.params.lfoMax) : -1 ≤ (frames chan k n s).lfoStep ∧ (frames chan k n s).lfoStep ≤ s.params.lfoMax := by
  refine (frames_preserve (chan := chan) (fun t => t.params = s.params ∧ -1 ≤ t.lfoStep ∧ t.lfoStep ≤ s.params.lfoMax)
    (fun k t ht => ?_) k n ⟨rfl, hl, hh⟩).2
  obtain ⟨htp, htl, hth⟩ := ht
  refine ⟨by rw [frame_params, htp], ?_⟩
  rw [frame_lfoStep, htp]
  split <;> omega

/-- The note codes of R21. -/
def Voice.NoteOk (v : Voice) : Prop := -1 ≤ v.note ∧ v.note ≤ 127

theorem noteOk_of_free {v : Voice} (h : v.note = noteFree) : v.NoteOk := by rw [Voice.NoteOk, h]; decide
theorem noteOk_of_held {v : Voice} (h : v.note = noteHeld) : v.NoteOk := by rw [Voice.NoteOk, h]; decide
/-- A MIDI note number is a note code. -/
theorem noteOk_of_number {v : Voice} (n : BitVec 7) (h : v.note = n.toNat) : v.NoteOk := by
  have := n.isLt
  rw [Voice.NoteOk, h]; omega

theorem voiceReset_noteOk (p : Params) (v : Voice) : (voiceReset p v).NoteOk := noteOk_of_free rfl

theorem voiceNoteOff_noteOk {v : Voice} (b : Bool) (n : Int) (h : v.NoteOk) : (voiceNoteOff b n v).NoteOk := by
  unfold voiceNoteOff
  split
  · split
    · exact noteOk_of_held rfl
    · exact noteOk_of_free rfl
  · exact h

theorem voicePedal_noteOk {v : Voice} (d2 : BitVec 7) (h : v.NoteOk) : (voicePedal d2 v).NoteOk := by
  unfold voicePedal voicePedalUp
  split
  · exact h
  · split
    · exact noteOk_of_free rfl
    · exact h

theorem voiceSweep_noteOk {v : Voice} (p : Params) (h : v.NoteOk) : (voiceSweep p v).NoteOk := by
  unfold voiceSweep
  split
  · exact h
  · exact voiceReset_noteOk p v

theorem State.Inv.noteOk {s : State} (h : s.Inv) (i : Fin numVoices) : (s.voice i).NoteOk := ⟨h.noteLow i, h.noteHigh i⟩

/-- Replacing the voices by voices with note codes in range keeps the invariant. -/
theorem State.Inv.withVoices {s : State} (h : s.Inv) {vs : Vector Voice numVoices} (hv : ∀ i, (vs.get i).NoteOk) :
    { s with voices := vs }.Inv :=
  { h with noteLow := fun i => (hv i).1, noteHigh := fun i => (hv i).2 }

/-- An operation on each voice by itself that keeps note codes in range keeps the invariant. -/
theorem State.Inv.mapVoices {s : State} (h : s.Inv) {f : Voice → Voice} (hf : ∀ v, v.NoteOk → (f v).NoteOk) : (s.mapVoices f).Inv :=
  h.withVoices fun i => by rw [vmap_get]; exact hf _ (h.noteOk i)

/-- Hardware reset meets the invariant (R54, R55). -/
theorem resetWith_inv {p : Params} (h : p.Ok) : (State.resetWith p).Inv where
  params := h
  lfsr := h.noiseSeed
  outLevelCnt := Nat.zero_le _
  oscMixCnt := Nat.zero_le _
  lfoStepLow := show (-1 : Int) ≤ 0 by decide
  lfoStepHigh := Int.natCast_nonneg _
  noteLow i := by simp [State.resetWith, State.voice, Vector.get_eq_getElem, Voice.powerOn, noteFree]
  noteHigh i := by simp [State.resetWith, State.voice, Vector.get_eq_getElem, Voice.powerOn, noteFree]
  rateSet := fun h => nomatch h
  rateUnset _ := ⟨rfl, rfl⟩
  bufL := ⟨List.Pairwise.nil, fun _ h => nomatch h⟩
  bufR := ⟨List.Pairwise.nil, fun _ h => nomatch h⟩

/-- `ALLOC` sets both rate registers (R36, R196). -/
theorem allocate_inv {rate : F} {s : State} (h : s.Inv) (hr : rateOk rate = true) : (allocate rate s).Inv :=
  { h.mapVoices (f := voicePrepare s.params rate) (fun _ hv => hv) with
    rateSet := fun _ => ⟨rate, rfl, rfl, hr⟩
    rateUnset := fun h => nomatch h }

/-- `RESET` reloads the noise register and ends both ramps (R198). -/
theorem resetSynth_inv {s : State} (h : s.Inv) : (resetSynth s).Inv :=
  { h.mapVoices (f := voiceReset s.params) (fun v _ => voiceReset_noteOk _ v) with
    lfsr := h.params.noiseSeed
    outLevelCnt := Nat.zero_le _
    oscMixCnt := Nat.zero_le _
    lfoStepLow := show (-1 : Int) ≤ 0 by decide
    lfoStepHigh := Int.natCast_nonneg _ }

/-- The latch loads ramps of at most `SMOOTH_N` frames (R203, R204). -/
theorem latch_inv {s : State} (h : s.Inv) : (latch s).Inv := by
  unfold latch
  split
  · exact { h with outLevelCnt := smSetTarget_cnt _ _ _, oscMixCnt := smSetTarget_cnt _ _ _ }
  · exact h

/-- Frames inside the buffers keep the invariant (R202). -/
theorem frames_inv {chan : BitVec 8} {k n : Nat} {s : State} (h : s.Inv) (hb : k + n ≤ s.params.obufDepth) : (frames chan k n s).Inv := by
  have hnote : ∀ i, ((frames chan k n s).voice i).note = (s.voice i).note := fun i =>
    frames_keep (fun t => (t.voice i).note) (fun k s => frame_note chan k s i) k n s
  obtain ⟨hlow, hhigh⟩ := frames_lfoStep_range (chan := chan) k n h.params.lfoMaxLow h.lfoStepLow h.lfoStepHigh
  obtain ⟨hbufL, hbufR⟩ := frames_buffers (chan := chan) h.bufL h.bufR hb
  constructor
  case params => rw [frames_params]; exact h.params
  case lfsr => rw [frames_lfsr]; exact noiseAdvance_iterate_ne_zero h.params.noiseTaps h.lfsr n
  case outLevelCnt => rw [frames_outLevel, frames_params]; exact smNext_iterate_cnt n h.outLevelCnt
  case oscMixCnt => rw [frames_oscMix, frames_params]; exact smNext_iterate_cnt n h.oscMixCnt
  case lfoStepLow => exact hlow
  case lfoStepHigh => rw [frames_params]; exact hhigh
  case noteLow => intro i; rw [hnote]; exact h.noteLow i
  case noteHigh => intro i; rw [hnote]; exact h.noteHigh i
  case rateSet => rw [frames_allocated, frames_fs, frames_nyq]; exact h.rateSet
  case rateUnset => rw [frames_allocated, frames_fs, frames_nyq]; exact h.rateUnset
  case bufL => rw [frames_params]; exact hbufL
  case bufR => rw [frames_params]; exact hbufR

/-- A block inside the buffers keeps the invariant (R200). -/
theorem renderBlock_inv {chan : BitVec 8} {off cnt : Nat} {s : State} (h : s.Inv) (hb : off + cnt ≤ s.params.obufDepth) :
    (renderBlock off cnt chan s).Inv :=
  (frames_inv (latch_inv h) (by rwa [latch_params])).mapVoices fun _ hv => voiceSweep_noteOk _ hv

/-- A note-on gives its voice a MIDI note number (R240). -/
theorem noteOn_inv {s : State} (n vel : BitVec 7) (h : s.Inv) : (noteOn n vel s).Inv := by
  refine h.withVoices fun i => ?_
  change ((noteOn n vel s).voice i).NoteOk
  rw [noteOn, voice_setVoice]
  split
  · exact noteOk_of_number n rfl
  · exact h.noteOk i

/-- Every effect keeps the register invariant. -/
theorem Effect.inv {i : Instr} {s u : State} (hs : s.Inv) (h : Effect i s u) : u.Inv := by
  cases h with
  | alloc hr => exact allocate_inv hs hr
  | reset => exact resetSynth_inv hs
  | render _ hb => exact renderBlock_inv hs hb
  | noteOff | noteOnZero => exact hs.mapVoices fun _ hv => voiceNoteOff_noteOk _ _ hv
  | noteOn => exact noteOn_inv _ _ hs
  | sustain =>
    rw [sustainPedal_eq]
    exact (hs.mapVoices fun _ hv => voicePedal_noteOk _ hv).of_unchecked rfl
  | allOff => exact (hs.mapVoices fun v _ => voiceReset_noteOk _ v).of_unchecked rfl
  | nop | ignored => exact hs
  | modWheel | resonance | filterUp | filterDown | pressure | pitchBend | pwrite => exact hs.of_unchecked rfl

/-! ## The voice invariant -/

/-- After hardware reset every voice is clean (R54). -/
theorem resetWith_inactiveClean (p : Params) : (State.resetWith p).InactiveClean := by
  intro i _
  have h : (State.resetWith p).voice i = Voice.powerOn p := by simp [State.resetWith, State.voice, Vector.get_eq_getElem]
  rw [h]
  exact ⟨rfl, rfl, rfl, rfl⟩

/-- The phases and levels of a voice: all that activity and cleanness look at. -/
def Voice.motion (v : Voice) : F × F × F × F := (v.oscA.phase, v.oscB.phase, v.env.level, v.fenv.level)

theorem Voice.clean_iff_motion {v : Voice} : v.Clean ↔ v.motion = (F.zero, F.zero, F.zero, F.zero) := by
  simp only [Voice.motion, Prod.mk.injEq]
  exact ⟨fun ⟨ha, hb, he, hf⟩ => ⟨ha, hb, he, hf⟩, fun ⟨ha, hb, he, hf⟩ => ⟨ha, hb, he, hf⟩⟩

theorem Voice.active_of_motion {v w : Voice} (h : w.motion = v.motion) : w.active = v.active :=
  congrArg (fun m : F × F × F × F => F.gt m.2.2.1 silence) h

/-- An operation that leaves every voice's phases and levels keeps the voice invariant. -/
theorem State.InactiveClean.map_motion {s t : State} {f : Voice → Voice} (h : s.InactiveClean) (ht : t.voices = vmap f s.voices)
    (hf : ∀ v, (f v).motion = v.motion) : t.InactiveClean :=
  h.map ht fun v hi hv => by
    rw [Voice.active_of_motion (hf v)] at hi
    rw [Voice.clean_iff_motion, hf, ← Voice.clean_iff_motion]
    exact hv hi

theorem voiceNoteOff_motion (b : Bool) (n : Int) (v : Voice) : (voiceNoteOff b n v).motion = v.motion := by
  unfold voiceNoteOff
  split
  · split <;> rfl
  · rfl

theorem voicePedal_motion (d2 : BitVec 7) (v : Voice) : (voicePedal d2 v).motion = v.motion := by
  unfold voicePedal voicePedalUp
  split
  · rfl
  · split <;> rfl

/-- Resetting every voice leaves clean voices only. -/
theorem inactiveClean_of_voiceReset {s t : State} {p : Params} (ht : t.voices = vmap (voiceReset p) s.voices) : t.InactiveClean :=
  fun i _ => by rw [voice_of_vmap ht]; exact voiceReset_clean _ _

/-- What the sweep leaves inactive it has reset (R213). -/
theorem sweep_voice_of_inactive {s : State} {i : Fin numVoices} (h : ((sweep s).voice i).active = false) :
    (sweep s).voice i = voiceReset s.params (s.voice i) := by
  rw [sweep_active] at h
  rw [sweep_voice, voiceSweep, h]; rfl

/-- After the sweep every inactive voice is clean, whatever the frames made of it. -/
theorem sweep_inactiveClean (s : State) : (sweep s).InactiveClean := fun i hi => by
  rw [sweep_voice_of_inactive hi]; exact voiceReset_clean _ _

/-- A note-on leaves its voice active (R122, R240). -/
theorem triggerVoice_active (s : State) (n vel : BitVec 7) {v : Voice} (h : v.active = false → v.Clean) :
    (triggerVoice s n vel v).active = true := by
  change F.lt silence (F.add v.env.level attackBump) = true
  cases ha : v.active with
  | false => exact F.bump_above_floor (.inl (h ha).level)
  | true => exact F.bump_above_floor (.inr ha)

/-- The voice a note-on takes is active after it, and the others stay. -/
theorem noteOn_inactiveClean {s : State} (n vel : BitVec 7) (h : s.InactiveClean) : (noteOn n vel s).InactiveClean := by
  intro i hi
  rw [noteOn, voice_setVoice] at *
  split at hi
  · rw [triggerVoice_active s n vel (h _)] at hi
    exact absurd hi (by decide)
  · rename_i hne
    rw [if_neg hne]
    exact h i hi

/-- Every effect keeps the voice invariant. -/
theorem Effect.inactiveClean {i : Instr} {s u : State} (hs : s.InactiveClean) (h : Effect i s u) : u.InactiveClean := by
  cases h with
  | alloc => exact hs.map_motion (allocate_voices _ s) fun _ => rfl
  | reset => exact inactiveClean_of_voiceReset (resetSynth_voices s)
  | render => exact sweep_inactiveClean _
  | noteOff | noteOnZero => exact hs.map_motion (noteOff_voices _ s) (voiceNoteOff_motion _ _)
  | noteOn => exact noteOn_inactiveClean _ _ hs
  | sustain => exact hs.map_motion (by rw [sustainPedal_eq]; rfl) (voicePedal_motion _)
  | allOff => exact inactiveClean_of_voiceReset (allNotesOff_voices s)
  | nop | ignored => exact hs
  | modWheel | resonance | filterUp | filterDown | pressure | pitchBend | pwrite => exact hs.of_unchecked rfl

/-- Every field of a reset voice (R180). -/
theorem voiceReset_isReset (p : Params) (v : Voice) : (voiceReset p v).IsReset p :=
  ⟨rfl, rfl, rfl, rfl, rfl, rfl, rfl, rfl, rfl, ⟨rfl, rfl, rfl⟩, ⟨rfl, rfl, rfl⟩, v.flt, rfl⟩

end Sys2Proof.Machine

/-! ## The statements -/

namespace Sys2Proof.Proofs

open Sys2Proof.Machine

/-- Settles O9: each interleaving names the port whose word transfers, and `step` executes it. -/
theorem stepRunsTransferredWord : Obligations.StepRunsTransferredWord := by
  intro s w rest
  refine ⟨fun hs hc => ?_, fun hs hp => ?_, fun hs hc => ?_, fun hs hc hp => ?_, fun hs hp hc => ?_, fun hs hc hp => ?_, fun hr hc hp => ?_⟩
  · exact step_of_word_sched (by rw [hs]; rfl) ((transfer_cmd hs).trans (firstPending_first hc))
  · exact step_of_word_sched (by rw [hs]; rfl) ((transfer_par hs).trans (firstPending_first hp))
  · exact step_of_word_sched (by rw [hs]; rfl) ((transfer_nil hs).trans (firstPending_first hc))
  · exact step_of_word_sched (by rw [hs]; rfl) ((transfer_cmd hs).trans (firstPending_second hc hp))
  · exact step_of_word_sched (by rw [hs]; rfl) ((transfer_par hs).trans (firstPending_second hp hc))
  · exact step_of_word_sched (by rw [hs]; rfl) ((transfer_nil hs).trans (firstPending_second hc hp))
  · rw [step, transfer_idle hr hc hp, State.idle]

/-- Settles O10: the column is `State.resetWith` written out, and a reset act gives it with the host's sequences kept. -/
theorem hardwareReset : Obligations.HardwareReset := by
  refine ⟨fun p => rfl, rfl, fun s rest hs => ?_⟩
  rw [step_of_rst (transfer_rst hs), Machine.hardwareReset, hs, List.tail_cons]

/-- Settles O12: a command ends in `State.advance`, and neither an abort nor an effect writes a pointer before that. -/
theorem everyCommandAdvancesOnePointer : Obligations.EveryCommandAdvancesOnePointer := by
  intro i s
  rcases exec_cases i s with ⟨k, -, he⟩ | ⟨u, hu, he, -⟩
  · exact ⟨_, he, (s.raise k).advance_pointers⟩
  · obtain ⟨hcp, hpp, hport, -⟩ := hu.control
    have h := u.advance_pointers
    rw [hcp, hpp, hport] at h
    exact ⟨_, he, h⟩

/-- Settles O14: an idle step and a command only raise bits, and `hardwareReset` leaves `FaultBits.none`. -/
theorem faultBitsAreSticky : Obligations.FaultBitsAreSticky := by
  refine ⟨fun s t k h hr hk => ?_, fun s t k h hr => ?_⟩
  · rcases step_cases h with ⟨-, rfl⟩ | ⟨ht, -⟩ | ⟨p, w, -, he⟩
    · exact hk
    · exact absurd ht hr
    · exact exec_fault_sticky he hk
  · rw [step_of_rst hr] at h
    injection h with h
    subst h
    cases k <;> rfl

/-- Settles O17, one `Effect` lemma for each piece of state. -/
theorem whoWritesWhat : Obligations.WhoWritesWhat := by
  intro i s t h
  refine ⟨fun hne => ?_, fun hne => ?_, fun hne => ?_, fun hne => ?_, fun hne => ?_, fun hne => ?_, fun hne => ?_, fun hne => ?_,
    fun hne => ?_, fun hne => ?_, fun hne => ?_, fun hne => ?_, exec_control h⟩
  · exact exec_writer (·.sh) h hne (by simp) (by simp) fun _ => Effect.sh_writer
  · exact exec_writer (·.dirty) h hne (by simp) (by simp) fun _ => Effect.dirty_writer
  · exact exec_writer (fun s => (s.cfg, s.obufL, s.obufR)) h (by simpa [imp_iff_not_or] using hne) (by simp) (by simp)
      fun _ hu => by simpa using hu.output_writer
  · exact exec_writer (fun s => (s.fs, s.nyq, s.allocated)) h (by simpa [imp_iff_not_or] using hne) (by simp) (by simp)
      fun _ hu => by simpa using hu.rate_writer
  · exact exec_writer (fun s => (s.lfsr, s.lfo, s.lfoStep, s.vibratoMod, s.filterZip, s.outLevel, s.oscMix)) h
      (by simpa [imp_iff_not_or] using hne) (by simp) (by simp) fun _ hu => by simpa using hu.generator_writer
  · exact exec_writer (·.pitchBend) h hne (by simp) (by simp) fun _ => Effect.pitchBend_writer
  · exact exec_writer (·.modWheel) h hne (by simp) (by simp) fun _ => Effect.modWheel_writer
  · exact exec_writer (·.pressure) h hne (by simp) (by simp) fun _ => Effect.pressure_writer
  · exact exec_writer (·.filterCtl) h hne (by simp) (by simp) fun _ => Effect.filterCtl_writer
  · exact exec_writer (·.resonanceCtl) h hne (by simp) (by simp) fun _ => Effect.resonanceCtl_writer
  · exact exec_writer (·.sustain) h hne (by simp) (by simp) fun _ => Effect.sustain_writer
  · exact exec_writer (·.voices) h hne (by simp) (by simp) fun _ => Effect.voices_writer

/-- Settles O18: a start is hardware reset with the host's sequences, which no invariant looks at. -/
theorem invariantsAtReset : Obligations.InvariantsAtReset := by
  have hdefault : Params.default.Ok := by constructor <;> decide
  refine ⟨resetWith_inv hdefault, resetWith_inactiveClean _, fun p cmdWords parWords sched hp => ?_⟩
  exact ⟨(resetWith_inv hp).of_unchecked rfl, (resetWith_inactiveClean p).of_unchecked rfl⟩

/-- Settles O19: hardware reset meets the invariant and every effect keeps it. -/
theorem stepKeepsInvariant : Obligations.StepKeepsInvariant := fun _ _ hs h =>
  step_preserves State.Inv.of_unchecked (fun _ hs => resetWith_inv hs.params) Effect.inv hs h

/-- Settles O20: an effect leaves phases and levels alone, resets the voice, or makes it active. -/
theorem stepKeepsInactiveVoicesClean : Obligations.StepKeepsInactiveVoicesClean := fun _ _ hs h =>
  step_preserves State.InactiveClean.of_unchecked (fun s _ => resetWith_inactiveClean s.params) Effect.inactiveClean hs h

/-- Settles O30: a block ends in the sweep, which resets every voice it leaves inactive. -/
theorem inactiveVoicesAreResetAfterRender : Obligations.InactiveVoicesAreResetAfterRender := by
  intro off cnt chan s t hp ha hb h i hi
  rw [exec_render hp ha hb] at h
  injection h with h
  subst h
  change ((renderBlock off.toNat cnt.toNat chan s).voice i).active = false at hi
  change ((renderBlock off.toNat cnt.toNat chan s).voice i).IsReset s.params
  rw [renderBlock] at *
  rw [sweep_voice_of_inactive hi, frames_params, latch_params]
  exact voiceReset_isReset _ _

end Sys2Proof.Proofs

/-! PROOFS. The statements of spec/20_memory.md: what a `RENDER` reads and writes, and what a `PWRITE` on the parameter port shares with
the commands around it. -/

namespace Sys2Proof.Machine

/-! ## `renderBlock`: `renderBlock` on the registers it leaves, latches or moves once per frame (R200, R203). -/

section Registers
variable (off cnt : Nat) (chan : BitVec 8) (s : State)

@[simp] theorem renderBlock_sh : (renderBlock off cnt chan s).sh = s.sh := by simp [renderBlock]
@[simp] theorem renderBlock_cfg : (renderBlock off cnt chan s).cfg = if s.dirty then s.sh else s.cfg := by simp [renderBlock]
@[simp] theorem renderBlock_dirty : (renderBlock off cnt chan s).dirty = false := by simp [renderBlock]
@[simp] theorem renderBlock_allocated : (renderBlock off cnt chan s).allocated = s.allocated := by simp [renderBlock]
@[simp] theorem renderBlock_fs : (renderBlock off cnt chan s).fs = s.fs := by simp [renderBlock]
@[simp] theorem renderBlock_nyq : (renderBlock off cnt chan s).nyq = s.nyq := by simp [renderBlock]
@[simp] theorem renderBlock_pitchBend : (renderBlock off cnt chan s).pitchBend = s.pitchBend := by simp [renderBlock]
@[simp] theorem renderBlock_modWheel : (renderBlock off cnt chan s).modWheel = s.modWheel := by simp [renderBlock]
@[simp] theorem renderBlock_pressure : (renderBlock off cnt chan s).pressure = s.pressure := by simp [renderBlock]
@[simp] theorem renderBlock_filterCtl : (renderBlock off cnt chan s).filterCtl = s.filterCtl := by simp [renderBlock]
@[simp] theorem renderBlock_resonanceCtl : (renderBlock off cnt chan s).resonanceCtl = s.resonanceCtl := by simp [renderBlock]
@[simp] theorem renderBlock_sustain : (renderBlock off cnt chan s).sustain = s.sustain := by simp [renderBlock]
@[simp] theorem renderBlock_params : (renderBlock off cnt chan s).params = s.params := by simp [renderBlock]
@[simp] theorem renderBlock_pp : (renderBlock off cnt chan s).pp = s.pp := by simp [renderBlock]
@[simp] theorem renderBlock_lfsr : (renderBlock off cnt chan s).lfsr = (noiseAdvance s.params)^[cnt] s.lfsr := by simp [renderBlock, frames_lfsr]
@[simp] theorem renderBlock_outLevel : (renderBlock off cnt chan s).outLevel = smNext^[cnt] (latch s).outLevel := by simp [renderBlock, frames_outLevel]
@[simp] theorem renderBlock_oscMix : (renderBlock off cnt chan s).oscMix = smNext^[cnt] (latch s).oscMix := by simp [renderBlock, frames_oscMix]

end Registers

/-! ## The elements a block stores -/

/-- The last frame of a run, split off. -/
theorem frames_succ_last (chan : BitVec 8) (k n : Nat) (s : State) :
    frames chan k (n + 1) s = frame chan (k + n) (frames chan k n s) := frames_add chan k n 1 s

/-- A buffer that gets one element from each frame has every element of a run of frames (R202, R212). -/
theorem frames_readElem_inside {chan : BitVec 8} (buf : State → Memory)
    (hstore : ∀ k s, ∃ v, buf (frame chan k s) = writeElem k v (buf s)) {j k n : Nat} (s : State) (hk : k ≤ j) (hj : j < k + n) :
    (readElem j (buf (frames chan k n s))).isSome = true := by
  induction n with
  | zero => omega
  | succ n ih =>
    obtain ⟨v, hv⟩ := hstore (k + n) (frames chan k n s)
    rw [frames_succ_last, hv]
    by_cases hlast : j = k + n
    · rw [hlast, readElem_writeElem_same]; rfl
    · rw [readElem_writeElem_other v _ hlast]; exact ih (by omega)

/-- A block resets a voice that was inactive before it (R211, R213). -/
theorem renderBlock_voice_inactive (off cnt : Nat) (chan : BitVec 8) {s : State} {i : Fin numVoices} (h : (s.voice i).active = false) :
    (renderBlock off cnt chan s).voice i = voiceReset s.params (s.voice i) := by
  have hl : (latch s).voice i = s.voice i := voice_congr (latch_voices s) i
  have hf : (frames chan off cnt (latch s)).voice i = s.voice i := by
    rw [frames_voice_inactive chan off cnt (by rw [hl]; exact h), hl]
  rw [renderBlock, sweep_voice, hf, frames_params, latch_params, voiceSweep, h]
  rfl

/-! ## A block and the shadow bank -/

/-- `s` with another shadow bank and another `DIRTY`. -/
def State.withShadow (sh : Vector F numCfg) (d : Bool) (s : State) : State := { s with sh := sh, dirty := d }

section Shadow
variable (sh : Vector F numCfg) (d : Bool)

theorem lfoDecimate_withShadow (s : State) : lfoDecimate (s.withShadow sh d) = (lfoDecimate s).withShadow sh d := by
  unfold lfoDecimate; rw [apply_ite (State.withShadow sh d)]; rfl

theorem frameInputs_withShadow (s : State) : frameInputs (s.withShadow sh d) = (frameInputs s).withShadow sh d := by
  simp only [frameInputs, lfoDecimate_withShadow]; rfl

theorem renderVoices_withShadow (s : State) (noise mix : F) :
    renderVoices (s.withShadow sh d) noise mix = (renderVoices s noise mix).withShadow sh d := by
  unfold renderVoices; rw [apply_ite (State.withShadow sh d)]; rfl

theorem storeFrame_withShadow (chan : BitVec 8) (k : Nat) (l r : F) (s : State) :
    storeFrame chan k l r (s.withShadow sh d) = (storeFrame chan k l r s).withShadow sh d := by
  unfold storeFrame; rw [apply_ite (State.withShadow sh d)]; rfl

theorem mixAll_withShadow (s : State) (noise mix : F) : mixAll (s.withShadow sh d) noise mix = mixAll s noise mix := rfl

theorem frameNoise_withShadow (s : State) : frameNoise (s.withShadow sh d) = frameNoise s := rfl

theorem frameOutputs_withShadow (chan : BitVec 8) (k : Nat) (s : State) :
    frameOutputs chan k (s.withShadow sh d) = (frameOutputs chan k s).withShadow sh d := by
  have hmix : (s.withShadow sh d).oscMix = s.oscMix := rfl
  simp only [frameOutputs, frameNoise_withShadow, hmix, mixAll_withShadow, renderVoices_withShadow, ← storeFrame_withShadow]
  rfl

/-- A run of frames neither reads nor writes the shadow bank and `DIRTY` (R76). -/
theorem frames_withShadow (chan : BitVec 8) (k n : Nat) (s : State) :
    frames chan k n (s.withShadow sh d) = (frames chan k n s).withShadow sh d := by
  induction n generalizing k s with
  | zero => rfl
  | succ n ih => rw [frames_succ, frame, frameInputs_withShadow, frameOutputs_withShadow, ih]; rfl

end Shadow

/-! ## Parameter writes (R70, R192) -/

/-- Raising two faults in either order (R277). -/
theorem FaultBits.raise_comm (f : FaultBits) (j k : FaultCode) : (f.raise j).raise k = (f.raise k).raise j := by
  cases j <;> cases k <;> rfl

/-- What a `PWRITE` does before its pointer advances, whether it retires or aborts (R192). An index out of range writes no shadow register. -/
def pwriteEffect (idx : BitVec 8) (value : F) (s : State) : State :=
  { s with
    sh := s.sh.setIfInBounds idx.toNat value
    dirty := decide (idx.toNat < numCfg) || s.dirty
    fault := if idx.toNat < numCfg then s.fault else s.fault.raise .badParamIndex }

/-- A `PWRITE` of a valid index writes its shadow register (R192). -/
theorem pwriteEffect_inside {idx : BitVec 8} (h : idx.toNat < numCfg) (value : F) (s : State) :
    pwriteEffect idx value s = writeShadow ⟨idx.toNat, h⟩ value s := by
  simp [pwriteEffect, writeShadow, h, Vector.setIfInBounds, Vector.set, Array.setIfInBounds]

/-- A `PWRITE` of an index out of range raises `BadParamIndex` (R192). -/
theorem pwriteEffect_outside {idx : BitVec 8} (h : ¬ idx.toNat < numCfg) (value : F) (s : State) :
    pwriteEffect idx value s = s.raise .badParamIndex := by
  simp [pwriteEffect, State.raise, h, Vector.setIfInBounds_eq_of_size_le (Nat.le_of_not_lt h)]

/-- A `PWRITE`, on either port and whichever way it ends. -/
theorem exec_pwrite (idx : BitVec 8) (value : F) (s : State) :
    exec (.pwrite idx value) s = .next (pwriteEffect idx value s).advance := by
  rw [exec, execPwrite]
  by_cases h : idx.toNat < numCfg
  · rw [dif_pos h, pwriteEffect_inside h]
  · rw [dif_neg h, pwriteEffect_outside h, State.abort]

/-- Writes of different shadow registers, valid or not, in either order. -/
theorem pwriteEffect_comm {idx idx' : BitVec 8} (h : idx' ≠ idx) (value value' : F) (s : State) :
    pwriteEffect idx' value' (pwriteEffect idx value s) = pwriteEffect idx value (pwriteEffect idx' value' s) := by
  have hne : idx'.toNat ≠ idx.toNat := fun e => h (BitVec.eq_of_toNat_eq e)
  have hsh : (s.sh.setIfInBounds idx.toNat value).setIfInBounds idx'.toNat value'
      = (s.sh.setIfInBounds idx'.toNat value').setIfInBounds idx.toNat value := Vector.setIfInBound_comm _ _ hne.symm
  simp only [pwriteEffect, hsh, Bool.or_left_comm]
  congr 1
  split <;> split <;> rfl

/-- What a `PWRITE` on the parameter port does to the state around a command-port command. -/
def parWrite (idx : BitVec 8) (value : F) (s : State) : State := { pwriteEffect idx value s with pp := s.pp + 1 }

section ParWrite
variable (idx : BitVec 8) (value : F)

theorem exec_pwrite_par (s : State) :
    exec (.pwrite idx value) { s with port := .par } = .next { parWrite idx value s with port := .par } := by
  rw [exec_pwrite, State.advance_par rfl]; rfl

theorem parWrite_raise (k : FaultCode) (s : State) : (parWrite idx value s).raise k = parWrite idx value (s.raise k) := by
  by_cases h : idx.toNat < numCfg
  · simp only [parWrite, pwriteEffect_inside h]; rfl
  · simp only [parWrite, pwriteEffect_outside h, State.raise, FaultBits.raise_comm]

theorem parWrite_advance {s : State} (h : s.port = .cmd) : (parWrite idx value s).advance = parWrite idx value s.advance := by
  rw [State.advance_cmd h, State.advance_cmd (s := parWrite idx value s) h]; rfl

theorem parWrite_abort (k : FaultCode) {s : State} (h : s.port = .cmd) :
    (parWrite idx value s).abort k = parWrite idx value (s.abort k) := by
  rw [State.abort, State.abort, parWrite_raise, parWrite_advance idx value (s := s.raise k) h]

/-- An operation on the state that gives the same before and after a `PWRITE` on the parameter port. -/
structure CommutesWithParWrite (e : State → State) : Prop where
  comm : ∀ s, e (parWrite idx value s) = parWrite idx value (e s)
  port : ∀ s, (e s).port = s.port

/-- The command `i` on the command port gives the same before and after a `PWRITE` on the parameter port. -/
def ParWriteCommutes (i : Instr) (s : State) : Prop :=
  ∃ v, exec i s = .next v ∧ exec i (parWrite idx value s) = .next (parWrite idx value v)

variable {idx value}

theorem CommutesWithParWrite.advance {e : State → State} (he : CommutesWithParWrite idx value e) {s : State} (h : s.port = .cmd) :
    (e (parWrite idx value s)).advance = parWrite idx value (e s).advance := by
  rw [he.comm, parWrite_advance idx value ((he.port s).trans h)]

theorem noteOff_commutes (n : BitVec 7) : CommutesWithParWrite idx value (noteOff n) := ⟨fun _ => rfl, fun _ => rfl⟩
theorem noteOn_commutes (n vel : BitVec 7) : CommutesWithParWrite idx value (noteOn n vel) := ⟨fun _ => rfl, fun _ => rfl⟩
theorem sustainPedal_commutes (v : BitVec 7) : CommutesWithParWrite idx value (sustainPedal v) :=
  ⟨fun _ => by simp only [sustainPedal_eq]; rfl, fun _ => by rw [sustainPedal_eq]; rfl⟩
theorem pwriteEffect_commutes {idx' : BitVec 8} (value' : F) (h : idx' ≠ idx) :
    CommutesWithParWrite idx value (pwriteEffect idx' value') := by
  refine ⟨fun s => ?_, fun _ => rfl⟩
  rw [parWrite, parWrite, ← pwriteEffect_comm h]; rfl

/-- The checks of a command look at nothing that a parameter write changes, so both runs take the same branch `k`. -/
theorem ParWriteCommutes.of_branch {i : Instr} {s : State} {k : State → State} (h : s.port = .cmd)
    (hbranch : ∀ t, t.port = .cmd → t.allocated = s.allocated → exec i t = .next (k t))
    (hk : k (parWrite idx value s) = parWrite idx value (k s)) : ParWriteCommutes idx value i s :=
  ⟨k s, hbranch s h rfl, by rw [hbranch (parWrite idx value s) h rfl, hk]⟩

/-- A `MIDI` command commutes if its operation does (R230). -/
theorem ParWriteCommutes.midi {i : Instr} {s : State} {e : State → State} (h : s.port = .cmd)
    (hi : ∀ t, exec i t = midiCommand t e) (he : CommutesWithParWrite idx value e) : ParWriteCommutes idx value i s := by
  cases ha : s.allocated with
  | true => exact .of_branch h (fun t hp hta => by rw [hi, midiCommand_run hp (hta.trans ha)]) (he.advance h)
  | false =>
    refine .of_branch (k := (·.abort .notAllocated)) h (fun t hp hta => ?_) (parWrite_abort idx value _ h)
    rw [hi, midiCommand, commandPortOnly_cmd hp, whenAllocated_unset (hta.trans ha)]

/-- `ALLOC` commutes: its test is on its operand (R196). -/
theorem ParWriteCommutes.alloc (hint : BitVec 24) (rate : F) {s : State} (h : s.port = .cmd) :
    ParWriteCommutes idx value (.alloc hint rate) s := by
  have he : CommutesWithParWrite idx value (allocate rate) := ⟨fun _ => rfl, fun _ => rfl⟩
  cases hr : rateOk rate with
  | true => exact .of_branch h (fun t hp _ => by rw [exec, execAlloc, commandPortOnly_cmd hp, hr, if_pos rfl]) (he.advance h)
  | false =>
    refine .of_branch (k := (·.abort .badSampleRate)) h (fun t hp _ => ?_) (parWrite_abort idx value _ h)
    rw [exec, execAlloc, commandPortOnly_cmd hp, hr, if_neg Bool.false_ne_true]

/-- Every command that is no `RENDER` and no `PWRITE` of the same index commutes with a `PWRITE` on the parameter port (R74). -/
theorem parWriteCommutes {i : Instr} {s : State} (hrender : ∀ off cnt chan, i ≠ .render off cnt chan)
    (hpwrite : ∀ value', i ≠ .pwrite idx value') (h : s.port = .cmd) : ParWriteCommutes idx value i s := by
  cases i with
  | nop => exact .of_branch h (fun t hp _ => by rw [exec, execNop, commandPortOnly_cmd hp]) (parWrite_advance idx value h)
  | alloc hint rate => exact .alloc hint rate h
  | reset =>
    have he : CommutesWithParWrite idx value resetSynth := ⟨fun _ => rfl, fun _ => rfl⟩
    exact .of_branch h (fun t hp _ => by rw [exec, execReset, commandPortOnly_cmd hp]) (he.advance h)
  | render off cnt chan => exact absurd rfl (hrender off cnt chan)
  | pwrite idx' value' =>
    have hne : idx' ≠ idx := fun e => hpwrite value' (by rw [e])
    exact .of_branch h (fun t _ _ => exec_pwrite idx' value' t) ((pwriteEffect_commutes value' hne).advance h)
  | illegal op => exact .of_branch h (fun _ _ _ => rfl) (parWrite_abort idx value .illegalCommand h)
  | midiNoteOff n v => exact .midi h (fun _ => rfl) (noteOff_commutes n)
  | midiNoteOn n v =>
    refine .midi h (fun _ => rfl) ?_
    split
    · exact noteOff_commutes n
    · exact noteOn_commutes n v
  | midiCcSustain v => exact .midi h (fun _ => rfl) (sustainPedal_commutes v)
  | _ => exact .midi h (fun _ => rfl) ⟨fun _ => rfl, fun _ => rfl⟩

end ParWrite
end Sys2Proof.Machine

namespace Sys2Proof.Proofs

open Sys2Proof.Machine

/-- Settles O28: the latch, the frames and the sweep each leave what they do not name, and the frames store one element each. -/
theorem renderFrame : Obligations.RenderFrame := by
  intro off cnt chan s hp ha hb
  refine ⟨_, exec_render hp ha hb, ?_⟩
  refine ⟨renderBlock_sh .., renderBlock_cfg .., renderBlock_dirty .., renderBlock_allocated .., renderBlock_fs .., renderBlock_nyq ..,
    renderBlock_pitchBend .., renderBlock_modWheel .., renderBlock_pressure .., renderBlock_filterCtl .., renderBlock_resonanceCtl ..,
    renderBlock_sustain .., renderBlock_params .., rfl, renderBlock_pp .., renderBlock_lfsr .., ?outLevel, ?oscMix,
    fun a h => ⟨?outsideL, ?outsideR⟩, fun hc => ?mono, fun k hk hj => ⟨?insideL, fun hc => ?insideR⟩, fun i hi => ?inactive,
    fun h0 => ?empty⟩
  case outLevel => rw [renderBlock_outLevel, latch_outLevel]; rfl
  case oscMix => rw [renderBlock_oscMix, latch_oscMix]; rfl
  case outsideL => simpa [renderBlock] using frames_readL_outside chan (latch s) h
  case outsideR => simpa [renderBlock] using frames_readR_outside chan (latch s) h
  case mono => simpa [renderBlock] using frames_obufR_mono hc off.toNat cnt.toNat (latch s)
  case insideL => exact frames_readElem_inside (·.obufL) (frame_obufL chan) (latch s) hk hj
  case insideR => exact frames_readElem_inside (·.obufR) (frame_obufR_stereo hc) (latch s) hk hj
  case inactive => exact renderBlock_voice_inactive off.toNat cnt.toNat chan hi
  case empty => subst h0; simp [renderBlock]

/-- Settles O44: the checks and effects of other commands look at nothing a parameter write changes, and the frames of a block carry the
shadow bank and `DIRTY` along. -/
theorem parameterWritesCommute : Obligations.ParameterWritesCommute := by
  refine ⟨fun i idx value s t u hrender hpwrite ht hu => ?_, fun chan k n s sh d => congrArg sweep (frames_withShadow sh d chan k n s)⟩
  obtain ⟨v, hv, hvu⟩ := parWriteCommutes (value := value) (s := { s with port := .cmd }) hrender hpwrite rfl
  refine ⟨v, hv, ?_⟩
  rw [exec_pwrite_par] at ht ⊢
  injection ht with ht
  subst ht
  injection hvu.symm.trans hu with hu
  rw [hu]

end Sys2Proof.Proofs

/-! PROOFS. The statements of spec/30_encoding.md: the round trip, the opcode map and the MIDI sub-decode table, and which bits of a word
the decoder looks at. -/

namespace Sys2Proof

/-! ## The opcode map (R87) -/

/-- The rows of R87's table; the last is `ILLEGAL`. -/
theorem opcode_cases (op : BitVec 8) :
    op = 0x00#8 ∨ op = 0x01#8 ∨ op = 0x02#8 ∨ op = 0x03#8 ∨ op = 0x04#8 ∨ op = 0x05#8 ∨ illegalMin.toNat ≤ op.toNat := by
  simp only [← BitVec.toNat_inj, illegalMin, BitVec.toNat_ofNat]
  omega

/-! ## The MIDI sub-decode table (R93) -/

/-- A controller number of the all-notes-off family is none of the five others, so its row is reached. -/
theorem decodeControl_allOff {d1 : BitVec 7} (d2 : BitVec 7) (h : ccAllOffMin.toNat ≤ d1.toNat) :
    decodeControl d1 d2 = .midiCcAllOff d1 d2 := by
  have hround := Laws.RoundTrip.midiCcAllOff d1 d2 (decide_eq_true h)
  rwa [encode, decode_midi3, dataByte_low, dataByte_low] at hround

/-- No row of R93 has this controller number. -/
def ControlUnassigned (d1 : BitVec 7) : Prop :=
  d1 ≠ 0x01#7 ∧ d1 ≠ 0x40#7 ∧ d1 ≠ 0x47#7 ∧ d1 ≠ 0x4A#7 ∧ d1 ≠ 0x4B#7 ∧ d1.toNat < ccAllOffMin.toNat

theorem decodeControl_ignored {d1 : BitVec 7} (d2 : BitVec 7) (h : ControlUnassigned d1) : decodeControl d1 d2 = .midiIgnored := by
  obtain ⟨hMod, hSustain, hResonance, hUp, hDown, hOff⟩ := h
  simp [decodeControl, hMod, hSustain, hResonance, hUp, hDown, Nat.not_le.mpr hOff]

theorem decodeMidi_ignored {kind : BitVec 4} {d1 : BitVec 7} (d2 : BitVec 7) (hOff : kind ≠ 0x8#4) (hOn : kind ≠ 0x9#4)
    (hPressure : kind ≠ 0xD#4) (hBend : kind ≠ 0xE#4) (hControl : kind = 0xB#4 → ControlUnassigned d1) :
    decodeMidi kind d1 d2 = .midiIgnored := by
  by_cases hk : kind = 0xB#4
  · subst hk
    exact decodeControl_ignored d2 (hControl rfl)
  · simp [decodeMidi, hOff, hOn, hk, hPressure, hBend]

/-- The one row with a restricted operand, all notes off, is taken after its test. -/
theorem decodeControl_isMidi_wf (d1 d2 : BitVec 7) : (decodeControl d1 d2).isMidi = true ∧ (decodeControl d1 d2).wf = true := by
  unfold decodeControl
  split_ifs with _ _ _ _ _ hOff
  on_goal 6 => exact ⟨rfl, decide_eq_true hOff⟩
  all_goals exact ⟨rfl, rfl⟩

theorem decodeMidi_isMidi_wf (kind : BitVec 4) (d1 d2 : BitVec 7) :
    (decodeMidi kind d1 d2).isMidi = true ∧ (decodeMidi kind d1 d2).wf = true := by
  unfold decodeMidi
  split_ifs
  on_goal 3 => exact decodeControl_isMidi_wf d1 d2
  all_goals exact ⟨rfl, rfl⟩

/-! ## The bits the decoder looks at (R81, R84, R91, R94) -/

/-- Words that agree on their low bits agree on every field inside them. -/
theorem slice_congr_low {m n : Nat} {w w' : BitVec m} (h : slice w 0 n = slice w' 0 n) (lo k : Nat) (hk : lo + k ≤ n) :
    slice w lo k = slice w' lo k := by
  rw [← Nat.zero_add lo, ← slice_slice w 0 n lo k hk, h, slice_slice w' 0 n lo k hk]

theorem Word.kind_eq (w : Word) : w.kind = if 1 ≤ w.len.toNat then slice w.status 4 4 else 0#4 := by
  rw [Word.kind, Word.statusN]; split <;> rfl
theorem Word.d1_eq (w : Word) : w.d1 = if 2 ≤ w.len.toNat then slice w.data1 0 7 else 0#7 := by
  rw [Word.d1, Word.d1raw]; split <;> rfl
theorem Word.d2_eq (w : Word) : w.d2 = if 3 ≤ w.len.toNat then slice w.data2 0 7 else 0#7 := by
  rw [Word.d2, Word.d2raw]; split <;> rfl

/-- A `MIDI` word is decoded from its `len`, its status nibble and the low seven bits of its data bytes alone. -/
theorem decode_midi_congr {w w' : Word} (hop : w.op = 0x04#8) (hop' : w'.op = 0x04#8) (hlen : w.len = w'.len)
    (hkind : (slice w.status 4 4 : BitVec 4) = slice w'.status 4 4) (hd1 : (slice w.data1 0 7 : BitVec 7) = slice w'.data1 0 7)
    (hd2 : (slice w.data2 0 7 : BitVec 7) = slice w'.data2 0 7) : decode w = decode w' := by
  rw [decode_midi hop, decode_midi hop']
  simp only [Word.kind_eq, Word.d1_eq, Word.d2_eq, hlen, hkind, hd1, hd2]

/-- An empty message has no status byte (R84). -/
theorem decode_midi_len_zero {w : Word} (hop : w.op = 0x04#8) (hlen : w.len = 0#2) : decode w = .midiIgnored := by
  rw [decode_midi hop, Word.kind_eq, hlen]; rfl

end Sys2Proof

namespace Sys2Proof.Proofs

/-- Settles O1, by the round trip of each constructor. -/
theorem encodeThenDecode : Obligations.EncodeThenDecode := by
  intro i
  cases i with
  | nop => exact Laws.RoundTrip.nop
  | alloc hint rate => exact Laws.RoundTrip.alloc hint rate
  | reset => exact Laws.RoundTrip.reset
  | render off cnt chan => exact Laws.RoundTrip.render off cnt chan
  | midiNoteOff note vel => exact Laws.RoundTrip.midiNoteOff note vel
  | midiNoteOn note vel => exact Laws.RoundTrip.midiNoteOn note vel
  | midiCcModwheel v => exact Laws.RoundTrip.midiCcModwheel v
  | midiCcSustain v => exact Laws.RoundTrip.midiCcSustain v
  | midiCcResonance v => exact Laws.RoundTrip.midiCcResonance v
  | midiCcFilterUp v => exact Laws.RoundTrip.midiCcFilterUp v
  | midiCcFilterDown v => exact Laws.RoundTrip.midiCcFilterDown v
  | midiCcAllOff ctl v => exact Laws.RoundTrip.midiCcAllOff ctl v
  | midiPressure v => exact Laws.RoundTrip.midiPressure v
  | midiPitchBend d1 d2 => exact Laws.RoundTrip.midiPitchBend d1 d2
  | midiIgnored => exact Laws.RoundTrip.midiIgnored
  | pwrite idx value => exact Laws.RoundTrip.pwrite idx value
  | illegal op => exact Laws.RoundTrip.illegal op

/-- Settles O2, opcode by opcode: only the all-notes-off row and `ILLEGAL` restrict an operand, and both are reached by its test. -/
theorem decodedWordsAreWellFormed : Obligations.DecodedWordsAreWellFormed := by
  intro w
  obtain h | h | h | h | h | h | h := opcode_cases w.op
  · rw [decode_nop h]; rfl
  · rw [decode_alloc h]; rfl
  · rw [decode_reset h]; rfl
  · rw [decode_render h]; rfl
  · rw [decode_midi h]; exact (decodeMidi_isMidi_wf w.kind w.d1 w.d2).right
  · rw [decode_pwrite h]; rfl
  · rw [decode_illegal h]; exact decide_eq_true h

/-- Settles O3: every field of formats M and P lies inside the bits the two words share, and format Z has none. -/
theorem reservedBitsIgnored : Obligations.ReservedBitsIgnored := by
  intro w w' hop
  refine ⟨?formatZ, fun h hlow => ?formatM, fun h hlow => ?formatP⟩
  case formatZ =>
    rintro (h | h)
    · rw [decode_nop h, decode_nop (hop ▸ h)]
    · rw [decode_reset h, decode_reset (hop ▸ h)]
  case formatM =>
    have hlen : w.len = w'.len := slice_congr_low hlow 24 2 (by decide)
    have hstatus : w.status = w'.status := slice_congr_low hlow 16 8 (by decide)
    have hdata1 : w.data1 = w'.data1 := slice_congr_low hlow 8 8 (by decide)
    have hdata2 : w.data2 = w'.data2 := slice_congr_low hlow 0 8 (by decide)
    exact decode_midi_congr h (hop ▸ h) hlen (by rw [hstatus]) (by rw [hdata1]) (by rw [hdata2])
  case formatP =>
    have hidx : w.idx = w'.idx := slice_congr_low hlow 32 8 (by decide)
    have hvalue : w.value = w'.value := slice_congr_low hlow 0 32 (by decide)
    rw [decode_pwrite h, decode_pwrite (hop ▸ h), hidx, hvalue]

/-- Settles O4: the bytes of the three-byte message are `status'`, `d1raw` and `d2raw` of the word. -/
theorem absentMidiBytesReadAsZero : Obligations.AbsentMidiBytesReadAsZero := fun w h =>
  ⟨(decode_midi h).trans (decode_midi3 w.statusN w.d1raw w.d2raw).symm, decode_midi_len_zero h⟩

/-- Settles O5: a three-byte message carries the low seven bits of its data bytes, and the decoder looks at no others. -/
theorem dataBytesAreSevenBits : Obligations.DataBytesAreSevenBits :=
  ⟨fun b1 b2 => decode_midi3 0x80#8 b1 b2, fun _ _ => decode_midi_congr⟩

/-- A worked encoding is read back by the round trip. -/
theorem encode_and_decode_of_encode {i : Instr} {w : Word} (hwf : i.wf = true) (h : encode i = w) : encode i = w ∧ decode w = i :=
  ⟨h, h ▸ encodeThenDecode i hwf⟩

/-- Settles O6: each word is computed by the encoder, and decodes by the round trip. -/
theorem workedEncodings : Obligations.WorkedEncodings := by
  refine ⟨by decide, ?_, ?_, ?_, ?_, ?_, ?_, ?_, ?_, ?_, ?_, ?_⟩ <;> exact encode_and_decode_of_encode rfl (by decide)

/-- Settles O7: the fields of R81 are these slices, and every row of R93 is a `MIDI` operation. -/
theorem opcodeMap : Obligations.OpcodeMap := fun w =>
  ⟨decode_nop, decode_alloc, decode_reset, decode_render, fun h => decode_midi h ▸ (decodeMidi_isMidi_wf w.kind w.d1 w.d2).left,
    decode_pwrite, decode_illegal⟩

/-- Settles O8, row by row of the table. -/
theorem midiTable : Obligations.MidiTable := by
  intro w h
  rw [decode_midi h]
  refine ⟨fun hk => ?noteOff, fun hk => ?noteOn, fun hk hd => ?modwheel, fun hk hd => ?sustain, fun hk hd => ?resonance,
    fun hk hd => ?filterUp, fun hk hd => ?filterDown, fun hk hd => ?allOff, fun hk => ?pressure, fun hk => ?pitchBend,
    decodeMidi_ignored w.d2⟩
  case allOff => rw [hk]; exact decodeControl_allOff w.d2 hd
  case noteOff | noteOn | pressure | pitchBend => rw [hk]; rfl
  case modwheel | sustain | resonance | filterUp | filterDown => rw [hk, hd]; rfl

end Sys2Proof.Proofs

/-! PROOFS. The statements of spec/40_noise.md: one shift of the noise register, and the value of one draw. -/

namespace Sys2Proof

/-! ## Exact results: magnitudes of at most 24 significant bits -/

/-- A number below `2^24` is scaled by a power of two to one of exactly 24 bits. -/
theorem exists_scale_24_bits {m : Nat} (h0 : 0 < m) (h : m < 2 ^ 24) : ∃ e ≤ 23, 2 ^ 23 ≤ m * 2 ^ e ∧ m * 2 ^ e < 2 ^ 24 := by
  have hl : Nat.log2 m ≤ 23 := Nat.le_of_lt_succ ((Nat.log2_lt (by omega)).2 h)
  have hpow (b : Nat) (hb : Nat.log2 m ≤ b) : 2 ^ Nat.log2 m * 2 ^ (b - Nat.log2 m) = 2 ^ b := by
    rw [← Nat.pow_add]; congr 1; omega
  refine ⟨23 - Nat.log2 m, Nat.sub_le _ _, ?_, ?_⟩
  · rw [← hpow 23 hl]
    exact Nat.mul_le_mul_right _ (Nat.log2_self_le (by omega))
  · calc m * 2 ^ (23 - Nat.log2 m) < 2 ^ (Nat.log2 m + 1) * 2 ^ (23 - Nat.log2 m) :=
          Nat.mul_lt_mul_of_pos_right Nat.lt_log2_self (Nat.two_pow_pos _)
      _ = 2 ^ 23 * 2 := by rw [Nat.pow_succ, Nat.mul_right_comm, hpow 23 hl]

/-- The exact magnitude of a pattern `(d * 2^23 + a)` whose `a` has its leading bit at 2^23. -/
theorem F.units_of_magBits {x : F} {a d : Nat} (h1 : 2 ^ 23 ≤ a) (h2 : a < 2 ^ 24) (h : x.magBits = d * 2 ^ 23 + a) :
    x.units = a * 2 ^ d := by
  have hz : x.isZero = false := by simp only [F.isZero, decide_eq_false_iff_not]; omega
  rw [F.units, hz, h, if_neg Bool.false_ne_true]
  congr 2 <;> omega

/-- A magnitude of at most 24 significant bits inside the range of `F` is not rounded (R10). -/
theorem F.round_exact (s : Bool) {m j k : Nat} (hm : m < 2 ^ 24) (hlow : k + 23 ≤ j) (hhigh : j ≤ k + 252) :
    (F.round s (m * 2 ^ j) k).isFinite = true ∧ (F.round s (m * 2 ^ j) k).units = m * 2 ^ (j - k) := by
  rcases Nat.eq_zero_or_pos m with rfl | h0
  · simp [F.isFinite, F.units, F.isZero, F.round_magBits]
  · obtain ⟨e, he, h1, h2⟩ := exists_scale_24_bits h0 hm
    have hscale : m * 2 ^ j = m * 2 ^ e * 2 ^ (j - e) := by
      rw [Nat.mul_assoc, ← Nat.pow_add, Nat.add_sub_cancel' (by omega)]
    have hbits : (F.round s (m * 2 ^ j) k).magBits = (j - e - k) * 2 ^ 23 + m * 2 ^ e := by
      rw [F.round_magBits, hscale, roundBits_exact h1 h2 (by omega) (by omega)]
    constructor
    · rw [F.isFinite, hbits, decide_eq_true_eq]; omega
    · rw [F.units_of_magBits h1 h2 hbits, Nat.mul_assoc, ← Nat.pow_add]
      congr 2; omega

/-- An integer below `2^24` in magnitude converts exactly (R11). -/
theorem F.ofInt_exact {i : Int} (h : i.natAbs < 2 ^ 24) :
    (F.ofInt i).isFinite = true ∧ (F.ofInt i).neg? = decide (i < 0) ∧ (F.ofInt i).units = i.natAbs * 2 ^ 149 := by
  obtain ⟨hf, hu⟩ := F.round_exact (decide (i < 0)) h (show 0 + 23 ≤ 149 by decide) (by decide)
  exact ⟨hf, F.round_neg? _ _ _, hu⟩

/-- A quotient of at most 24 significant bits inside the range of `F` is not rounded (R10). -/
theorem F.div_exact {x y : F} {m j : Nat} (hx : x.isFinite = true) (hy : y.isFinite = true) (h0 : y.isZero = false) (hm : m < 2 ^ 24)
    (hlow : 23 ≤ j) (hhigh : j ≤ 252) (h : x.units * 2 ^ 149 = m * 2 ^ j * y.units) :
    (F.div x y).isFinite = true ∧ (F.div x y).neg? = (x.neg? != y.neg?) ∧ (F.div x y).units = m * 2 ^ j := by
  have hpos : 0 < y.units := by
    rw [F.units, h0, if_neg Bool.false_ne_true]; positivity
  have ht : x.units * 2 ^ 179 = m * 2 ^ (j + 30) * y.units := by
    calc x.units * 2 ^ 179 = x.units * 2 ^ 149 * 2 ^ 30 := by rw [Nat.mul_assoc, ← Nat.pow_add]
      _ = m * 2 ^ (j + 30) * y.units := by rw [h, Nat.pow_add]; ring
  have hq : 2 * (m * 2 ^ (j + 30)) + 0 = m * 2 ^ (j + 31) := by rw [Nat.pow_succ 2 (j + 30)]; ring
  have hdiv : F.div x y = F.round (x.neg? != y.neg?) (m * 2 ^ (j + 31)) 31 := by
    simp only [F.div, F.finite_not_nan hx, F.finite_not_nan hy, F.finite_not_inf hx, F.finite_not_inf hy, h0, ht,
      Nat.mul_div_cancel _ hpos, Nat.mul_mod_left, Bool.or_self, Bool.false_eq_true, if_false, if_true, hq]
  obtain ⟨hf, hu⟩ := F.round_exact (x.neg? != y.neg?) hm (show 31 + 23 ≤ j + 31 by omega) (by omega)
  rw [hdiv]
  exact ⟨hf, F.round_neg? _ _ _, by rw [hu, Nat.add_sub_cancel]⟩

/-- A finite value whose exact value is between those of two others is within them (R13). -/
theorem F.within_of_toUnits {lo x hi : F} (hlo : lo.isFinite = true) (hx : x.isFinite = true) (hhi : hi.isFinite = true)
    (h1 : lo.toUnits ≤ x.toUnits) (h2 : x.toUnits ≤ hi.toUnits) : F.within lo x hi :=
  ⟨F.le_iff.2 ⟨F.finite_not_nan hlo, F.finite_not_nan hx, (F.toUnits_le_iff hlo hx).1 h1⟩,
    F.le_iff.2 ⟨F.finite_not_nan hx, F.finite_not_nan hhi, (F.toUnits_le_iff hx hhi).1 h2⟩⟩

end Sys2Proof

namespace Sys2Proof.Machine

/-! ## One shift (R112) -/

/-- With the mask's top bit set, the top bit of a shifted register is the bit that was shifted out. -/
theorem lfsrStep_msb {taps : BitVec 32} (ht : taps.msb = true) (x : BitVec 32) : (lfsrStep taps x).msb = x.getLsbD 0 := by
  cases hb : x.getLsbD 0 with
  | true => rw [lfsrStep_odd hb, BitVec.msb_xor, shiftRight_msb, ht]; rfl
  | false => rw [lfsrStep_even hb, shiftRight_msb]

/-- A register is its last bit and the rest. -/
theorem eq_of_shiftRight_one_eq {x y : BitVec 32} (h0 : x.getLsbD 0 = y.getLsbD 0) (h : x >>> 1 = y >>> 1) : x = y := by
  refine BitVec.eq_of_getLsbD_eq fun i _ => ?_
  cases i with
  | zero => exact h0
  | succ i => simpa [Nat.add_comm] using congrArg (·.getLsbD i) h

/-- With the mask's top bit set a shift can be undone: the top bit says whether the mask was XORed in (log entry 17). -/
theorem lfsrStep_injective {taps : BitVec 32} (ht : taps.msb = true) : Function.Injective (lfsrStep taps) := by
  intro x y h
  have hb : x.getLsbD 0 = y.getLsbD 0 := by rw [← lfsrStep_msb ht, h, lfsrStep_msb ht]
  refine eq_of_shiftRight_one_eq hb ?_
  cases hx : x.getLsbD 0 with
  | true =>
    rw [lfsrStep_odd hx, lfsrStep_odd (hb ▸ hx)] at h
    exact (BitVec.xor_left_inj taps).1 h
  | false => rwa [lfsrStep_even hx, lfsrStep_even (hb ▸ hx)] at h

theorem lfsrStep_zero (taps : BitVec 32) : lfsrStep taps 0#32 = 0#32 := rfl

/-! ## One draw (R113) -/

/-- A draw advances the register by `NOISE_STEPS` shifts. -/
theorem noiseAdvance_eq_iterate (p : Params) (x : BitVec 32) : noiseAdvance p x = (lfsrStep p.noiseTaps)^[p.noiseSteps] x :=
  lfsrSteps_eq_iterate p.noiseTaps p.noiseSteps x

/-- The register after the first draw from the seed. -/
theorem noiseAdvance_seed : noiseAdvance Params.default 0x000056CE#32 = 0x5B679E51#32 := by
  simp [noiseAdvance, Params.default, lfsrSteps, lfsrStep]

/-- The integer `u - 2^23` of a draw, `u` the low 24 bits of the register. -/
def noiseInt (x : BitVec 32) : Int := ((slice x 0 24 : BitVec 24).toNat : Int) - 8388608

theorem noiseInt_range (x : BitVec 32) : -8388608 ≤ noiseInt x ∧ noiseInt x ≤ 8388607 := by
  have := (slice x 0 24 : BitVec 24).isLt
  unfold noiseInt
  omega

theorem noiseValue_eq (x : BitVec 32) : noiseValue x = F.div (F.ofInt (noiseInt x)) f2p23 := rfl

/-- Conversion and division are both exact. -/
theorem noiseValue_exact (x : BitVec 32) : (noiseValue x).isFinite = true ∧ (noiseValue x).toUnits = noiseInt x * 2 ^ 126 := by
  obtain ⟨hlow, hhigh⟩ := noiseInt_range x
  have habs : (noiseInt x).natAbs < 2 ^ 24 := by omega
  obtain ⟨hif, hin, hiu⟩ := F.ofInt_exact habs
  obtain ⟨hf, hn, hu⟩ := F.div_exact (y := f2p23) (j := 126) hif (by decide) (by decide) habs (by decide) (by decide)
    (by rw [hiu, show f2p23.units = 2 ^ 23 * 2 ^ 149 by decide, ← Nat.mul_assoc, Nat.mul_assoc _ (2 ^ 126), ← Nat.pow_add])
  rw [hin, show f2p23.neg? = false by decide, Bool.bne_false] at hn
  rw [noiseValue_eq]
  refine ⟨hf, ?_⟩
  rw [F.toUnits, hn, hu]
  by_cases h0 : noiseInt x < 0
  · rw [if_pos (decide_eq_true h0), Int.natCast_mul, Int.ofNat_natAbs_of_nonpos (Int.le_of_lt h0), ← Int.neg_mul, Int.neg_neg]; rfl
  · rw [if_neg (by simpa using h0), Int.natCast_mul, Int.natAbs_of_nonneg (Int.not_lt.1 h0)]; rfl

/-- A noise sample lies in `[-1, 1 - 2^-23]`. -/
theorem noiseValue_within (x : BitVec 32) : F.within 0xBF800000#32 (noiseValue x) 0x3F7FFFFE#32 := by
  obtain ⟨hlow, hhigh⟩ := noiseInt_range x
  obtain ⟨hf, hu⟩ := noiseValue_exact x
  have hp : (0 : Int) ≤ 2 ^ 126 := by positivity
  refine F.within_of_toUnits (by decide) hf (by decide) ?_ ?_
  · rw [hu, show F.toUnits 0xBF800000#32 = -8388608 * 2 ^ 126 by decide]
    exact Int.mul_le_mul_of_nonneg_right hlow hp
  · rw [hu, show F.toUnits 0x3F7FFFFE#32 = 8388607 * 2 ^ 126 by decide]
    exact Int.mul_le_mul_of_nonneg_right hhigh hp

end Sys2Proof.Machine

namespace Sys2Proof.Proofs

open Sys2Proof.Machine

/-- Settles O51: the integer of a draw has at most 24 significant bits, so neither its conversion nor the division by `2^23` rounds. -/
theorem noiseDraw : Obligations.NoiseDraw := by
  refine ⟨fun s => ?draw, fun x => ?value, ?seed, by decide⟩
  case draw => rw [noiseNext, noiseAdvance_eq_iterate]
  case value =>
    obtain ⟨hf, hu⟩ := noiseValue_exact x
    exact ⟨hf, hu, noiseValue_within x⟩
  case seed => exact (noiseAdvance_eq_iterate Params.default 0x000056CE#32).symm.trans noiseAdvance_seed

/-- Settles O52: the bit shifted out selects the branch, and with the mask's top bit set the result's top bit tells it, so the shift is
injective and `0` is reached from the fixed point `0` alone. -/
theorem lfsrShift : Obligations.LfsrShift := by
  refine ⟨fun taps x => ⟨lfsrStep_odd, lfsrStep_even⟩, fun taps ht => ⟨lfsrStep_zero taps, ?injective, ?zeroOnly⟩, by decide⟩
  case injective => exact fun x y h => lfsrStep_injective ht h
  case zeroOnly => exact fun x h => lfsrStep_injective ht (h.trans (lfsrStep_zero taps).symm)

end Sys2Proof.Proofs

/-! PROOFS. The statements of spec/41_envelope.md: one envelope step, the release that falls to silence, and the attack that stalls. -/

namespace Sys2Proof

/-! ## Values in a range -/

theorem F.isFinite_of_within {lo x hi : F} (hlo : lo.isFinite = true) (hhi : hi.isFinite = true) (h : F.within lo x hi) :
    x.isFinite = true := by
  obtain ⟨-, hn, hlow⟩ := F.le_iff.1 h.1
  obtain ⟨-, -, hhigh⟩ := F.le_iff.1 h.2
  obtain ⟨-, hbelow, -⟩ := F.finite_iff_key.1 hlo
  obtain ⟨-, -, habove⟩ := F.finite_iff_key.1 hhi
  exact F.finite_iff_key.2 ⟨hn, by omega, by omega⟩

theorem F.lt_of_le_of_lt {x y z : F} (h1 : F.le x y = true) (h2 : F.lt y z = true) : F.lt x z = true := by
  obtain ⟨hx, -, hxy⟩ := F.le_iff.1 h1
  obtain ⟨-, hz, hyz⟩ := F.lt_iff.1 h2
  exact F.lt_iff.2 ⟨hx, hz, Int.lt_of_le_of_lt hxy hyz⟩

theorem F.le_trans {x y z : F} (h1 : F.le x y = true) (h2 : F.le y z = true) : F.le x z = true := by
  obtain ⟨hx, -, hxy⟩ := F.le_iff.1 h1
  obtain ⟨-, hz, hyz⟩ := F.le_iff.1 h2
  exact F.le_iff.2 ⟨hx, hz, Int.le_trans hxy hyz⟩

/-- An operation that answers no NaN and is monotone takes a range to a range. -/
theorem F.within_map {f : F → F} {lo x hi : F} (hlo : lo.isFinite = true) (hhi : hi.isFinite = true)
    (hnan : ∀ {y : F}, y.isFinite = true → (f y).isNaN = false)
    (hmono : ∀ {y z : F}, y.isFinite = true → z.isFinite = true → y.key ≤ z.key → (f y).key ≤ (f z).key) (h : F.within lo x hi) :
    F.within (f lo) (f x) (f hi) := by
  have hx := F.isFinite_of_within hlo hhi h
  exact ⟨F.le_iff.2 ⟨hnan hlo, hnan hx, hmono hlo hx (F.le_iff.1 h.1).2.2⟩,
    F.le_iff.2 ⟨hnan hx, hnan hhi, hmono hx hhi (F.le_iff.1 h.2).2.2⟩⟩

section Within
variable {lo x hi : F} (hlo : lo.isFinite = true) (hhi : hi.isFinite = true) (h : F.within lo x hi)
include hlo hhi h

theorem F.add_within {y : F} (hy : y.isFinite = true) : F.within (F.add lo y) (F.add x y) (F.add hi y) :=
  F.within_map (f := (F.add · y)) hlo hhi (fun hx => (F.add_key hx hy).1)
    (fun hx hz hle => F.add_mono hx hz hy hy hle (Int.le_refl _)) h

theorem F.sub_within {y : F} (hy : y.isFinite = true) : F.within (F.sub lo y) (F.sub x y) (F.sub hi y) :=
  F.within_map (f := (F.sub · y)) hlo hhi (fun hx => (F.sub_key hx hy).1) (fun hx hz hle => F.sub_mono hx hz hy hle) h

theorem F.mul_within {c : F} (hc : c.isFinite = true) (h0 : 0 ≤ c.toUnits) : F.within (F.mul c lo) (F.mul c x) (F.mul c hi) :=
  F.within_map (f := F.mul c) hlo hhi (fun hx => (F.mul_key hc hx).1) (fun hx hz hle => F.mul_mono hc hx hz h0 hle) h

end Within

/-- A value at or above zero has its magnitude as exact value and as place. -/
theorem F.nonneg_eq {x : F} (hx : x.isFinite = true) (h : F.le F.zero x = true) : x.toUnits = x.units ∧ x.key = x.mag := by
  obtain ⟨-, -, h0⟩ := F.le_iff.1 h
  have hu : F.zero.toUnits ≤ x.toUnits := (F.toUnits_le_iff (by decide) hx).2 h0
  rw [show F.zero.key = 0 by decide, F.key_eq] at h0
  rw [show F.zero.toUnits = 0 by decide, F.toUnits] at hu
  rw [F.key_eq, F.toUnits]
  constructor <;> split <;> simp_all

/-! ## Adding and subtracting zero -/

/-- A value at the place of a finite value is between that value and itself. -/
theorem F.within_self_of_key_eq {x y : F} (hx : x.isFinite = true) (hn : y.isNaN = false) (hk : y.key = x.key) : F.within x y x :=
  ⟨F.le_iff.2 ⟨F.finite_not_nan hx, hn, hk.ge⟩, F.le_iff.2 ⟨hn, F.finite_not_nan hx, hk.le⟩⟩

theorem F.add_zero_within {x : F} (hx : x.isFinite = true) : F.within x (F.add x F.zero) x := by
  obtain ⟨hn, hk⟩ := F.add_key hx (y := F.zero) (by decide)
  rw [show F.zero.toUnits = 0 by decide, Int.add_zero, ← F.key_eq_roundKey hx] at hk
  exact F.within_self_of_key_eq hx hn hk

theorem F.sub_zero_within {x : F} (hx : x.isFinite = true) : F.within x (F.sub x F.zero) x := by
  obtain ⟨hn, hk⟩ := F.sub_key hx (y := F.zero) (by decide)
  rw [show F.zero.toUnits = 0 by decide, Int.sub_zero, ← F.key_eq_roundKey hx] at hk
  exact F.within_self_of_key_eq hx hn hk

/-! ## A factor in [0, 1) -/

/-- `1 - 2^-24`, the largest value below 1. -/
def belowOne : F := 0x3F7FFFFF#32

/-- A nonzero finite value: 24 significant bits `a` and an exponent `d`. -/
theorem F.exists_significand {x : F} (hx : x.isFinite = true) (h0 : 0 < x.mag) :
    ∃ a d, 2 ^ 23 ≤ a ∧ a < 2 ^ 24 ∧ d ≤ 253 ∧ x.units = a * 2 ^ d ∧ x.mag = d * 2 ^ 23 + a := by
  have hlt := F.finite_lt hx
  have hz : x.isZero = false := by by_contra hz; simp [F.mag, Bool.not_eq_false _ ▸ hz] at h0
  have hbits : 2 ^ 23 ≤ x.magBits := by simpa [F.isZero] using hz
  have hm : x.mag = x.magBits := by simp [F.mag, hz]
  refine ⟨2 ^ 23 + x.magBits % 2 ^ 23, x.magBits / 2 ^ 23 - 1, by omega, by omega, by omega, ?_, by omega⟩
  simp [F.units, hz]

/-- A power of two in both the number and the rounding position cancels. -/
theorem rne_scale (n d j : Nat) : rne (n * 2 ^ j) (d + j) = rne n d := by
  have hj := Nat.two_pow_pos j
  have hlt (u v : Nat) : u * 2 ^ j < v * 2 ^ j ↔ u < v := Nat.mul_lt_mul_right hj
  have heq (u v : Nat) : u * 2 ^ j = v * 2 ^ j ↔ u = v := Nat.mul_left_inj hj.ne'
  simp only [rne, Nat.pow_add, Nat.mul_div_mul_right _ _ hj, Nat.mul_mod_mul_right, ← Nat.mul_assoc, hlt, heq]

theorem log2_mul_two_pow {n l : Nat} (h1 : 2 ^ l ≤ n) (h2 : n < 2 ^ (l + 1)) (j : Nat) : Nat.log2 (n * 2 ^ j) = l + j := by
  have hn : 0 < n := (Nat.two_pow_pos l).trans_le h1
  rw [Nat.log2_eq_iff (by positivity), Nat.add_right_comm, Nat.pow_add, Nat.pow_add]
  exact ⟨Nat.mul_le_mul_right _ h1, Nat.mul_lt_mul_of_pos_right h2 (Nat.two_pow_pos j)⟩

/-- A product with `2^24 - 1`, rounded to its upper 24 bits: `a - a * 2^-24` lies within half a step of `a - 1`. -/
theorem rne_mul_pred {a : Nat} (h1 : 2 ^ 23 < a) (h2 : a < 2 ^ 24) : rne (16777215 * a) 24 = a - 1 := by
  have hdiv : 16777215 * a / 2 ^ 24 = a - 1 := Nat.div_eq_of_lt_le (by omega) (by omega)
  have hmod : 16777215 * a % 2 ^ 24 = 2 ^ 24 - a := by omega
  rw [rne, hdiv, hmod, if_neg (by omega)]

/-- The factor 1 rounds nothing. -/
theorem roundBits_mul_f1 {x : F} (hx : x.isFinite = true) : roundBits (f1.units * x.units) 149 = x.mag := by
  rcases Nat.eq_zero_or_pos x.mag with h0 | h0
  · have hu : x.units ≤ F.zero.units := (F.units_le_iff hx (by decide)).2 (h0 ▸ Nat.zero_le _)
    rw [Nat.le_zero.1 (hu.trans_eq (by decide)), Nat.mul_zero, roundBits_zero, h0]
  · obtain ⟨a, d, h1, h2, hd, hu, hm⟩ := F.exists_significand hx h0
    have hscale : f1.units * x.units = a * 2 ^ (d + 149) := by
      rw [hu, show f1.units = 2 ^ 149 by decide, Nat.pow_add]; ring
    rw [hscale, roundBits_exact h1 h2 (by omega) (by omega), hm]
    omega

/-- The factor `1 - 2^-24` takes the significand `a` to `a - a * 2^-24`, whose nearest value is one pattern step below. At the bottom of a
binade, `a = 2^23`, that value is exact, and it is there unless the exponent is the least. -/
theorem roundBits_mul_belowOne {x : F} (hx : x.isFinite = true) (h : 2 ^ 24 ≤ x.mag) :
    roundBits (belowOne.units * x.units) 149 = x.mag - 1 := by
  obtain ⟨a, d, h1, h2, hd, hu, hm⟩ := F.exists_significand hx (by omega)
  have hprod : belowOne.units * x.units = 16777215 * a * 2 ^ (d + 125) := by
    rw [hu, show belowOne.units = 16777215 * 2 ^ 125 by decide, Nat.pow_add]; ring
  rw [hprod, hm]
  rcases Nat.eq_or_lt_of_le h1 with ha | h1
  · have hscale : 16777215 * a * 2 ^ (d + 125) = 16777215 * 2 ^ (d + 148) := by
      rw [← ha, show d + 148 = 23 + (d + 125) by omega, Nat.pow_add 2 23, Nat.mul_assoc]
    rw [hscale, roundBits_exact (by omega) (by omega) (by omega) (by omega)]
    omega
  · have hlog := log2_mul_two_pow (l := 47) (show 2 ^ 47 ≤ 16777215 * a by omega) (by omega) (d + 125)
    have hpos : max (Nat.log2 (16777215 * a * 2 ^ (d + 125)) - 23) 149 = 24 + (d + 125) := by rw [hlog]; omega
    rw [roundBits_at _ _ _ hpos, rne_scale, rne_mul_pred h1 h2, if_neg (by omega), show 24 + (d + 125) - 149 = d by omega,
      Nat.min_eq_left (by omega)]
    omega

/-- A factor in [0, 1) is finite, and at most `1 - 2^-24`. -/
theorem F.phaseRange_bounds {c : F} (hc : c.phaseRange) : c.isFinite = true ∧ c.units ≤ belowOne.units := by
  obtain ⟨-, hn, h0⟩ := F.le_iff.1 hc.1
  obtain ⟨-, -, h1⟩ := F.lt_iff.1 hc.2
  rw [show f1.key = belowOne.key + 1 by decide] at h1
  have hin : F.within F.zero c belowOne := ⟨hc.1, F.le_iff.2 ⟨hn, by decide, by omega⟩⟩
  have hf := F.isFinite_of_within (by decide) (by decide) hin
  refine ⟨hf, (F.units_le_iff hf (by decide)).2 ?_⟩
  obtain ⟨-, hkey⟩ := F.nonneg_eq hf hc.1
  have hmag : belowOne.key = belowOne.mag := by decide
  omega

/-- A product with a factor in [0, 1) of a value that is not negative. Above the floor it is smaller by at least one pattern step. -/
theorem F.mul_contracts {c x : F} (hc : c.phaseRange) (hx : x.isFinite = true) (h0 : F.le F.zero x = true) :
    F.within F.zero (F.mul c x) x ∧ (F.lt silence x = true → F.lt (F.mul c x) x = true) := by
  obtain ⟨hcf, hcle⟩ := F.phaseRange_bounds hc
  obtain ⟨hcu, -⟩ := F.nonneg_eq hcf hc.1
  obtain ⟨hxu, hxm⟩ := F.nonneg_eq hx h0
  have hxn := F.finite_not_nan hx
  obtain ⟨hn, hround⟩ := F.mul_key hcf hx
  have hk : (F.mul c x).key = roundBits (c.units * x.units) 149 := by
    rw [hround, hcu, hxu, ← Int.natCast_mul, roundKey, if_neg (by omega), Int.natAbs_natCast]
  refine ⟨⟨F.le_iff.2 ⟨by decide, hn, ?_⟩, F.le_iff.2 ⟨hn, hxn, ?_⟩⟩, fun habove => F.lt_iff.2 ⟨hn, hxn, ?_⟩⟩
  · rw [show F.zero.key = 0 by decide, hk]; exact Int.natCast_nonneg _
  · have hle : c.units ≤ f1.units := hcle.trans (by decide)
    have hmono := roundBits_mono 149 (Nat.mul_le_mul_right x.units hle)
    rw [roundBits_mul_f1 hx] at hmono
    omega
  · have hfloor : (2 : Int) ^ 24 ≤ silence.key := by decide
    obtain ⟨-, -, habove⟩ := F.lt_iff.1 habove
    have hmono := roundBits_mono 149 (Nat.mul_le_mul_right x.units hcle)
    rw [roundBits_mul_belowOne hx (by omega)] at hmono
    omega

end Sys2Proof

namespace Sys2Proof.Machine

/-! ## One step (R121) -/

theorem envNext_transition {e : Env} (h : F.gt (F.add (envLevel e) e.target) decayThreshold = true) :
    envNext e = { e with level := envLevel e, target := e.s, coef := e.d } := if_pos h

theorem envNext_continue {e : Env} (h : F.gt (F.add (envLevel e) e.target) decayThreshold = false) :
    envNext e = { e with level := envLevel e } := if_neg (by simp [h])

/-! ## The release (R123, R132) -/

/-- A release with a coefficient in [0, 1), at a level in [0, 3]. -/
structure Env.Releasing (e : Env) : Prop where
  target : e.target = F.zero
  coef : e.coef.phaseRange
  level : F.within F.zero e.level decayThreshold

/-- A step of a release multiplies the level by the coefficient: the level does not rise, and above the floor it falls. -/
theorem Env.Releasing.level_falls {e : Env} (h : e.Releasing) :
    F.within F.zero (envLevel e) e.level ∧ (F.lt silence e.level = true → F.lt (envLevel e) e.level = true) := by
  have hfin := F.isFinite_of_within (by decide) (by decide) h.level
  obtain ⟨hsubLow, hsubHigh⟩ := F.sub_zero_within hfin
  have hsubFin := F.isFinite_of_within hfin hfin ⟨hsubLow, hsubHigh⟩
  obtain ⟨⟨hlow, hhigh⟩, hfalls⟩ := F.mul_contracts h.coef hsubFin (F.le_trans h.level.1 hsubLow)
  obtain ⟨haddLow, haddHigh⟩ := F.add_zero_within (F.isFinite_of_within (by decide) hsubFin ⟨hlow, hhigh⟩)
  rw [envLevel, h.target]
  exact ⟨⟨F.le_trans hlow haddLow, F.le_trans haddHigh (F.le_trans hhigh hsubHigh)⟩, fun habove =>
    F.lt_of_le_of_lt haddHigh (F.lt_of_lt_of_le (hfalls (F.lt_of_lt_of_le habove hsubLow)) hsubHigh)⟩

/-- The next level of a release is in [0, 3] again. -/
theorem Env.Releasing.level_within {e : Env} (h : e.Releasing) : F.within F.zero (envLevel e) decayThreshold := by
  obtain ⟨⟨hlow, hhigh⟩, -⟩ := h.level_falls
  exact ⟨hlow, F.le_trans hhigh h.level.2⟩

/-- The level stays at or below 3.0, so the test does not end the release (R131 (g)). -/
theorem Env.Releasing.envNext_eq {e : Env} (h : e.Releasing) : envNext e = { e with level := envLevel e } := by
  obtain ⟨hsumLow, hsumHigh⟩ := F.add_zero_within (F.isFinite_of_within (by decide) (by decide) h.level_within)
  obtain ⟨-, hn, -⟩ := F.le_iff.1 hsumLow
  refine envNext_continue ?_
  rw [h.target]
  exact (F.not_lt (by decide) hn).2 (F.le_trans hsumHigh h.level_within.2)

/-- A step of a release leaves a release. -/
theorem Env.Releasing.step {e : Env} (h : e.Releasing) : (envNext e).Releasing := by
  rw [h.envNext_eq]
  exact ⟨h.target, h.coef, h.level_within⟩

/-- A release ends in silence: above the floor the level's place falls at every step, by strong induction on it. -/
theorem Env.Releasing.ends {e : Env} (h : e.Releasing) : ∃ n, envIsActive (envNext^[n] e) = false := by
  by_cases hactive : envIsActive e = true
  · obtain ⟨n, hn⟩ := h.step.ends
    exact ⟨n + 1, hn⟩
  · exact ⟨0, Bool.not_eq_true _ ▸ hactive⟩
termination_by e.level.key.toNat
decreasing_by
  obtain ⟨-, hfalls⟩ := h.level_falls
  obtain ⟨-, -, hfall⟩ := F.lt_iff.1 (hfalls hactive)
  obtain ⟨-, -, habove⟩ := F.lt_iff.1 hactive
  have hfloor : 0 ≤ silence.key := by decide
  rw [h.envNext_eq]
  exact (Int.toNat_lt_toNat (by omega)).2 hfall

/-! ## The attack that stalls (log entry 19) -/

/-- An attack with the coefficient `1 - 2^-24`, at a level in [0, 1]. -/
structure Env.SlowAttack (e : Env) : Prop where
  target : e.target = attackTarget
  coef : e.coef = belowOne
  level : F.within F.zero e.level f1

/-- A step keeps the level in [0, 1]: it is monotone in the level, positive at 0, and at 1.0 the result `1 + 2^-24` is a tie that rounds
back to 1.0. -/
theorem Env.SlowAttack.level_within {e : Env} (h : e.SlowAttack) : F.within F.zero (envLevel e) f1 := by
  have hfactor : belowOne.isFinite = true ∧ 0 ≤ belowOne.toUnits := by decide
  have hbottom : F.le F.zero (F.add (F.mul belowOne (F.sub F.zero attackTarget)) attackTarget) = true := by decide +kernel
  have htop : F.add (F.mul belowOne (F.sub f1 attackTarget)) attackTarget = f1 := by decide +kernel
  have hsub := F.sub_within (by decide) (by decide) h.level (y := attackTarget) (by decide)
  have hmul := F.mul_within (by decide) (by decide) hsub hfactor.1 hfactor.2
  have hadd := F.add_within (by decide +kernel) (by decide +kernel) hmul (y := attackTarget) (by decide)
  rw [envLevel, h.target, h.coef]
  exact ⟨F.le_trans hbottom hadd.1, htop ▸ hadd.2⟩

/-- At a level of at most 1.0 the sum of the test is at most 3.0, so the attack goes on (R131 (c)). -/
theorem Env.SlowAttack.not_transition {e : Env} (h : e.SlowAttack) :
    F.gt (F.add (envLevel e) e.target) decayThreshold = false := by
  obtain ⟨-, hsum⟩ := F.add_within (by decide) (by decide) h.level_within (y := attackTarget) (by decide)
  rw [h.target]
  exact (F.not_lt (by decide) (F.le_iff.1 hsum).1).2 hsum

theorem Env.SlowAttack.step {e : Env} (h : e.SlowAttack) : (envNext e).SlowAttack := by
  rw [envNext_continue h.not_transition]
  exact ⟨h.target, h.coef, h.level_within⟩

/-- An attack from level 0 starts at the bump (R122). -/
theorem envAttack_slowAttack {e : Env} (hl : e.level = F.zero) (ha : e.a = belowOne) : (envAttack e).SlowAttack where
  target := rfl
  coef := ha
  level := by
    rw [show (envAttack e).level = F.add e.level attackBump from rfl, hl]
    unfold F.within
    decide

end Sys2Proof.Machine

namespace Sys2Proof.Proofs

open Sys2Proof.Machine

/-- Settles O53: the two branches of the test, and the rule's example by computing it. -/
theorem envelopeStep : Obligations.EnvelopeStep := by
  refine ⟨?step, ?worked⟩
  case step =>
    rintro e l rfl
    exact ⟨envNext_transition, envNext_continue⟩
  case worked =>
    intro e hlevel htarget hcoef hs hd
    have hl : envLevel e = 0x3F800347#32 := by rw [envLevel, hlevel, htarget, hcoef]; decide +kernel
    have htest : F.gt (F.add (envLevel e) e.target) decayThreshold = true := by rw [hl, htarget]; decide
    rw [envNext_transition htest]
    exact ⟨hl, hs, hd⟩

/-- Settles O54: every step of a release multiplies the level by the coefficient and leaves a release, and above the floor it lowers the
level's place, so the release ends. -/
theorem releaseFallsToSilence : Obligations.ReleaseFallsToSilence := by
  intro e htarget hcoef hcoef1 hlevel hlevel3
  have h : e.Releasing := ⟨htarget, ⟨hcoef, hcoef1⟩, hlevel, hlevel3⟩
  obtain ⟨⟨hlow, hfall⟩, -⟩ := h.level_falls
  refine ⟨?_, h.ends⟩
  rw [h.envNext_eq]
  exact ⟨hlow, hfall, htarget, rfl⟩

/-- Refutes O55: an attack from level 0 with the coefficient `1 - 2^-24` never leaves the levels in [0, 1], where the sum is at most 3.0. -/
theorem not_everyAttackEnds : ¬ Obligations.EveryAttackEnds := by
  intro h
  obtain ⟨n, hn⟩ := h { Env.zero with a := belowOne } rfl (by decide) (by decide)
  have hstart : (envAttack { Env.zero with a := belowOne }).SlowAttack := envAttack_slowAttack rfl rfl
  have hslow := Function.Iterate.rec Env.SlowAttack hstart (fun _ he => he.step) n
  exact Bool.false_ne_true (hslow.not_transition.symm.trans hn)

end Sys2Proof.Proofs

/-! PROOFS. The statements of spec/42_oscillator.md: the phase advance, the naive and poly-BLEP strategies, and the additive series. -/

namespace Sys2Proof

/-! ## Phases -/

/-- Where neither is a NaN, a value that is not at most another is above it. -/
theorem F.not_le {x y : F} (hx : x.isNaN = false) (hy : y.isNaN = false) : F.le x y = false ↔ F.lt y x = true := by
  simp [F.lt, F.le, hx, hy]

/-- Between `1 - 2^-24` and 1 there is no value of `F`. -/
theorem F.lt_f1_iff {x : F} : F.lt x f1 = true ↔ F.le x belowOne = true := by
  have hnan : f1.isNaN = belowOne.isNaN := by decide
  have hnext : f1.key = belowOne.key + 1 := by decide
  rw [F.lt_iff, F.le_iff, hnan, hnext, Int.lt_add_one_iff]

/-- The range of a phase as a closed one. -/
theorem F.phaseRange_iff {x : F} : x.phaseRange ↔ F.within F.zero x belowOne := and_congr_right fun _ => F.lt_f1_iff

/-- Addition takes two ranges to the range between the sums of their ends. -/
theorem F.add_within_both {lo hi lo' hi' x y : F} (hlo : lo.isFinite = true) (hhi : hi.isFinite = true) (hlo' : lo'.isFinite = true)
    (hhi' : hi'.isFinite = true) (hx : F.within lo x hi) (hy : F.within lo' y hi') :
    F.within (F.add lo lo') (F.add x y) (F.add hi hi') := by
  have hxf := F.isFinite_of_within hlo hhi hx
  have hyf := F.isFinite_of_within hlo' hhi' hy
  obtain ⟨hsum, -⟩ := F.add_key hxf hyf
  obtain ⟨hlow, hhigh⟩ := hx
  obtain ⟨hlow', hhigh'⟩ := hy
  exact ⟨F.le_iff.2 ⟨(F.add_key hlo hlo').1, hsum, F.add_mono hlo hxf hlo' hyf (F.le_iff.1 hlow).2.2 (F.le_iff.1 hlow').2.2⟩,
    F.le_iff.2 ⟨hsum, (F.add_key hhi hhi').1, F.add_mono hxf hhi hyf hhi' (F.le_iff.1 hhigh).2.2 (F.le_iff.1 hhigh').2.2⟩⟩

/-- The sum of two phases: at most `2 - 2^-23`, where the addition is exact. -/
theorem F.phaseRange.add_within {x y : F} (hx : x.phaseRange) (hy : y.phaseRange) : F.within F.zero (F.add x y) 0x3FFFFFFF#32 := by
  have hzero : F.add F.zero F.zero = F.zero := by decide
  have htop : F.add belowOne belowOne = 0x3FFFFFFF#32 := by decide +kernel
  have h := F.add_within_both (by decide) (by decide) (by decide) (by decide) (F.phaseRange_iff.1 hx) (F.phaseRange_iff.1 hy)
  rwa [hzero, htop] at h

/-- Subtracting 1 from a value in `[1, 2)`. -/
theorem F.sub_f1_phaseRange {x : F} (h : F.within f1 x 0x3FFFFFFF#32) : (F.sub x f1).phaseRange := by
  have hbottom : F.sub f1 f1 = F.zero := by decide
  have htop : F.lt (F.sub 0x3FFFFFFF#32 f1) f1 = true := by decide +kernel
  obtain ⟨hlow, hhigh⟩ := F.sub_within (by decide) (by decide) h (y := f1) (by decide)
  exact ⟨hbottom ▸ hlow, F.lt_of_le_of_lt hhigh htop⟩

end Sys2Proof

namespace Sys2Proof.Machine

/-! ## The phase advance (R139) -/

theorem advancePhase_wrap {phase inc : F} (h : F.ge (F.add phase inc) f1 = true) :
    advancePhase phase inc = F.sub (F.add phase inc) f1 := if_pos h

theorem advancePhase_noWrap {phase inc : F} (h : F.ge (F.add phase inc) f1 = false) :
    advancePhase phase inc = F.add phase inc := if_neg (by simp [h])

/-- Every strategy leaves the oscillator that `OscAdvance` gives (R144). -/
@[simp] theorem oscRender_osc (p : Params) (nyq : F) (b : Strategy) (o : Osc) : (oscRender p nyq b o).osc = oscAdvance o := by
  cases b <;> rfl

/-! ## The poly-BLEP correction (R141) -/

theorem blepCorrection_afterJump {t dt : F} (h : F.lt t dt = true) :
    blepCorrection t dt = F.sub (F.sub (F.add (F.div t dt) (F.div t dt)) (F.mul (F.div t dt) (F.div t dt))) f1 := if_pos h

theorem blepCorrection_beforeJump {t dt : F} (h : F.lt t dt = false) (h1 : F.gt t (F.sub f1 dt) = true) :
    blepCorrection t dt = F.add (F.add (F.mul (F.div (F.sub t f1) dt) (F.div (F.sub t f1) dt))
      (F.add (F.div (F.sub t f1) dt) (F.div (F.sub t f1) dt))) f1 := by
  simp only [blepCorrection, h, h1, Bool.false_eq_true, if_false, if_true]

theorem blepCorrection_elsewhere {t dt : F} (h : F.lt t dt = false) (h1 : F.gt t (F.sub f1 dt) = false) :
    blepCorrection t dt = F.zero := by
  simp only [blepCorrection, h, h1, Bool.false_eq_true, if_false]

theorem oscBlep_sample (o : Osc) :
    (oscBlep o).sample = F.mul o.amp (F.sub (F.sub (F.mul f2 o.phase) f1) (blepCorrection o.phase o.inc)) := rfl

/-! ## The additive series (R142) -/

/-- Harmonic `i` taken into the sum: added when `i` is odd, subtracted when it is even. -/
def accHarmonic (num : NumSel) (phase acc : F) (i : Nat) : F :=
  if i % 2 = 1 then F.add acc (harmonicTerm num phase i) else F.sub acc (harmonicTerm num phase i)

section Series
variable (num : NumSel) {nyq freq : F} (phase : F)

theorem additiveSum_below {i : Nat} (fuel : Nat) (acc : F) (h : belowNyquist i freq nyq = true) :
    additiveSum num nyq freq phase (fuel + 1) i acc = additiveSum num nyq freq phase fuel (i + 1) (accHarmonic num phase acc i) := if_pos h

theorem additiveSum_notBelow {i : Nat} (fuel : Nat) (acc : F) (h : belowNyquist i freq nyq = false) :
    additiveSum num nyq freq phase (fuel + 1) i acc = (acc, false) := if_neg (by simp [h])

/-- The loop sums the `n` harmonics from `i` that are below Nyquist, and stops at the bound or at the first that is not. -/
theorem exists_additiveSum_eq_foldl (fuel i : Nat) (acc : F) :
    ∃ n ≤ fuel, (∀ j, i ≤ j → j < i + n → belowNyquist j freq nyq = true) ∧ (n = fuel ∨ belowNyquist (i + n) freq nyq = false) ∧
      (additiveSum num nyq freq phase fuel i acc).1 = (List.range' i n).foldl (accHarmonic num phase) acc := by
  induction fuel generalizing i acc with
  | zero => exact ⟨0, Nat.le_refl 0, fun j _ _ => by omega, .inl rfl, rfl⟩
  | succ fuel ih =>
    cases hi : belowNyquist i freq nyq with
    | false => exact ⟨0, Nat.zero_le _, fun j _ _ => by omega, .inr hi, by rw [additiveSum_notBelow num phase fuel acc hi]; rfl⟩
    | true =>
      obtain ⟨n, hn, hbelow, hend, hsum⟩ := ih (i + 1) (accHarmonic num phase acc i)
      refine ⟨n + 1, Nat.succ_le_succ hn, fun j hj hjn => ?_, ?_, ?_⟩
      · rcases Nat.eq_or_lt_of_le hj with rfl | hj
        · exact hi
        · exact hbelow j hj (by omega)
      · rwa [Nat.succ_inj, ← Nat.add_assoc, Nat.add_right_comm]
      · rw [additiveSum_below num phase fuel acc hi, hsum, List.range'_succ, List.foldl_cons]

/-- The bound ends the loop exactly when every harmonic from `i` to the one at the bound is below Nyquist. -/
theorem additiveSum_clip_iff (fuel i : Nat) (acc : F) :
    (additiveSum num nyq freq phase fuel i acc).2 = true ↔ ∀ j, i ≤ j → j ≤ i + fuel → belowNyquist j freq nyq = true := by
  induction fuel generalizing i acc with
  | zero =>
    refine ⟨fun h j hj hji => ?_, fun h => h i (Nat.le_refl i) (Nat.le_refl i)⟩
    rwa [Nat.le_antisymm hji hj]
  | succ fuel ih =>
    cases hi : belowNyquist i freq nyq with
    | false =>
      rw [additiveSum_notBelow num phase fuel acc hi]
      exact ⟨nofun, fun h => hi.symm.trans (h i (Nat.le_refl i) (Nat.le_add_right i _))⟩
    | true =>
      rw [additiveSum_below num phase fuel acc hi, ih]
      refine ⟨fun h j hj hjn => ?_, fun h j hj hjn => h j (by omega) (by omega)⟩
      rcases Nat.eq_or_lt_of_le hj with rfl | hj
      · exact hi
      · exact h j hj (by omega)

end Series

end Sys2Proof.Machine

namespace Sys2Proof.Proofs

open Sys2Proof.Machine

/-- Settles O56: the sum of two phases is in `[0, 2)`. Below 1 it is the new phase, from 1 on the subtraction takes it back. -/
theorem phaseStaysInRange : Obligations.PhaseStaysInRange := by
  intro phase inc hphase hinc
  obtain ⟨hlow, hhigh⟩ := hphase.add_within hinc
  cases hwrap : F.ge (F.add phase inc) f1 with
  | true =>
    rw [advancePhase_wrap hwrap]
    exact F.sub_f1_phaseRange ⟨hwrap, hhigh⟩
  | false =>
    obtain ⟨-, hnan, -⟩ := F.le_iff.1 hlow
    rw [advancePhase_noWrap hwrap]
    exact ⟨hlow, (F.not_le (by decide) hnan).1 hwrap⟩

/-- Refutes O57: from the phase `1 - 2^-24` the increment 1.0 gives the sum `2 - 2^-24`, a tie that rounds to 2.0, so the new phase is 1.0. -/
theorem not_phaseStaysInRangeAtUnitIncrement : ¬ Obligations.PhaseStaysInRangeAtUnitIncrement := by
  intro h
  have hphase : belowOne.phaseRange := F.phaseRange_iff.2 (by unfold F.within; decide)
  have hinc : F.within F.zero f1 f1 := by unfold F.within; decide
  have hnext : advancePhase belowOne f1 = f1 := by decide +kernel
  obtain ⟨-, hlt⟩ := h belowOne f1 hphase hinc
  rw [hnext] at hlt
  exact absurd hlt (by decide)

/-- Settles O58: every strategy ends in `OscAdvance`, and the correction has the three cases of R141; the examples by computing them. -/
theorem strategiesAdvanceAlike : Obligations.StrategiesAdvanceAlike := by
  refine ⟨fun _ _ _ => ⟨rfl, rfl, rfl⟩, oscRender_osc, fun _ => ⟨rfl, rfl⟩, fun _ => rfl, ?correction, ?examples⟩
  case correction =>
    rintro o u c (⟨hafter, rfl, rfl⟩ | ⟨hafter, hbefore, rfl, rfl⟩ | ⟨hafter, hbefore, rfl⟩)
    · rw [oscBlep_sample, blepCorrection_afterJump hafter]
    · rw [oscBlep_sample, blepCorrection_beforeJump hafter hbefore]
    · rw [oscBlep_sample, blepCorrection_elsewhere hafter hbefore]
  case examples => decide +kernel

/-- Settles O59: what the loop sums and what ends it, from harmonic 1 on. -/
theorem harmClipMeansBound : Obligations.HarmClipMeansBound := by
  intro p nyq o
  refine ⟨?sample, ?clip⟩
  case sample =>
    obtain ⟨n, hn, hbelow, hend, hsum⟩ := exists_additiveSum_eq_foldl p.num (nyq := nyq) (freq := o.freq) o.phase p.harmMax 1 F.zero
    rw [Nat.add_comm] at hend
    exact ⟨n, hn, fun i h1 hi => hbelow i h1 (by omega), hend, congrArg (F.mul o.amp) hsum⟩
  case clip =>
    rw [Nat.add_comm]
    exact additiveSum_clip_iff p.num o.phase p.harmMax 1 F.zero

end Sys2Proof.Proofs

/-! PROOFS. The statement of spec/43_filter_interface.md: the clamped update calls of a tick, and the filter port. -/

namespace Sys2Proof.Machine

/-! ## The filter instance in a tick -/

/-- A tick treats each slot by itself, after the scalars of R208. -/
@[simp] theorem lfoTick_voice (s : State) (i : Fin numVoices) : (lfoTick s).voice i = voiceTick (lfoScalars s) (s.voice i) :=
  voice_of_vmap (f := voiceTick (lfoScalars s)) rfl i

/-- An active voice's part of a tick (R208). -/
theorem voiceTick_active {s : State} {v : Voice} (h : v.active = true) :
    voiceTick s v = voiceUpdateLFO s (updatePitch s { v with filterMod := s.filterZip }) := if_pos h

/-- The one call a tick makes on an active voice's instance (R176): of what the call reads, the pitch update before it changes nothing. -/
theorem voiceTick_flt {s : State} {v : Voice} (h : v.active = true) :
    (voiceTick s v).flt = fltCall s.params.flt v.flt (.update
      (F.clamp (modulatedCutoff s.params.num v.cutoff s.filterZip (s.cfgReg .filterEnvDepth) (envNext v.fenv).level s.pitchBend)
        cutoffMin cutoffMax)
      (normalizedResonance (s.cfgReg .filterQ) s.resonanceCtl)) := by
  rw [voiceTick_active h]
  rfl

/-- The clamped cutoff is in [20, 20000], or a NaN (R158). -/
theorem clampedCutoff_range (mc : F) :
    (F.clamp mc cutoffMin cutoffMax).isNaN = true ∨ F.within cutoffMin (F.clamp mc cutoffMin cutoffMax) cutoffMax :=
  F.clamp_range (by decide) (by decide) (by decide)

/-- The normalised resonance is in [0, 1], or a NaN (R163). -/
theorem normalizedResonance_range (q resonanceCtl : F) :
    (normalizedResonance q resonanceCtl).isNaN = true ∨ F.within F.zero (normalizedResonance q resonanceCtl) f1 :=
  F.clamp_range (by decide) (by decide) (by decide)

/-! ## The filter port -/

/-- `flt_voice` is the index itself: 16 voices fit its 4 bits (R165). -/
theorem fltRequest_voice_toNat (i : Fin numVoices) (c : FltCall) : (fltRequest i c).voice.toNat = i.val :=
  (BitVec.toNat_ofNat i.val 4).trans (Nat.mod_eq_of_lt i.isLt)

end Sys2Proof.Machine

namespace Sys2Proof.Proofs

open Sys2Proof.Machine

/-- Settles O49: the operands of the tick's call are clamps with bounds that are numbers, so each is in its range or a NaN; the state a call
leaves and its request are the primitive's definition, case by case. -/
theorem filterUpdatesAreClamped : Obligations.FilterUpdatesAreClamped := by
  refine ⟨fun s i => ⟨?active, ?inactive⟩, ?call, ?port⟩
  case active =>
    intro h
    rw [lfoTick_voice, voiceTick_flt h]
    exact ⟨_, _, rfl, clampedCutoff_range _, normalizedResonance_range _ _⟩
  case inactive =>
    intro h
    rw [lfoTick_voice, voiceTick_inactive h]
  case call => exact fun st c x => ⟨fltCall_external st c, fltCall_bypass st c, fltOut_bypass st x⟩
  case port =>
    intro i _ _ _ _ _ _
    exact ⟨fltRequest_voice_toNat i .reset, ⟨rfl, rfl⟩, ⟨rfl, rfl⟩, ⟨rfl, rfl⟩, ⟨rfl, rfl⟩⟩

end Sys2Proof.Proofs

/-! PROOFS. The statements of spec/44_voice.md: a block treats each voice slot by itself, and the voice's sample. -/

namespace Sys2Proof.Machine

/-! ## One slot through a block (R170) -/

/-- `s` with other voices, and other values of what no frame reads: the fault bits and the output buffers. -/
def State.withSlots (vs : Vector Voice numVoices) (f : FaultBits) (l r : List Host.Cell) (s : State) : State :=
  { s with voices := vs, fault := f, obufL := l, obufR := r }

/-- A frame whose decremented counter is at most 0 reloads it and ticks (R207). -/
theorem lfoDecimate_tick {s : State} (h : s.lfoStep - 1 ≤ 0) : lfoDecimate s = lfoTick { s with lfoStep := s.params.lfoMax } :=
  if_pos h

/-- Any other frame counts down (R207). -/
theorem lfoDecimate_count {s : State} (h : ¬ s.lfoStep - 1 ≤ 0) : lfoDecimate s = { s with lfoStep := s.lfoStep - 1 } := if_neg h

section Slots
variable (vs : Vector Voice numVoices) (f : FaultBits) (l r : List Host.Cell)

theorem lfoDecimate_withSlots (s : State) :
    lfoDecimate (s.withSlots vs f l r) = (lfoDecimate s).withSlots (vmap (tickVoice s) vs) f l r := by
  by_cases h : s.lfoStep - 1 ≤ 0
  case pos =>
    have htick : tickVoice s = voiceTick (lfoScalars { s with lfoStep := s.params.lfoMax }) := funext fun _ => if_pos h
    rw [htick, lfoDecimate_tick h, lfoDecimate_tick (s := s.withSlots vs f l r) h]
    rfl
  case neg =>
    have htick : vmap (tickVoice s) vs = vs := vmap_same fun _ => if_neg h
    rw [htick, lfoDecimate_count h, lfoDecimate_count (s := s.withSlots vs f l r) h]
    rfl

theorem frameInputs_withSlots (s : State) :
    frameInputs (s.withSlots vs f l r) = (frameInputs s).withSlots (vmap (tickVoice s) vs) f l r := by
  simp only [frameInputs, lfoDecimate_withSlots]
  rfl

theorem renderVoices_withSlots (s : State) (noise mix : F) :
    ∃ f', renderVoices (s.withSlots vs f l r) noise mix =
      (renderVoices s noise mix).withSlots (vmap (voiceFrame s noise mix) vs) f' l r := by
  unfold renderVoices
  split <;> split <;> exact ⟨_, rfl⟩

/-- Where a store goes does not depend on the values, which the mix of all voices gives. -/
theorem storeFrame_withSlots (chan : BitVec 8) (k : Nat) (outL outR outL' outR' : F) (s : State) :
    ∃ l' r', storeFrame chan k outL' outR' (s.withSlots vs f l r) = (storeFrame chan k outL outR s).withSlots vs f l' r' := by
  unfold storeFrame
  split <;> exact ⟨_, _, rfl⟩

theorem frameOutputs_withSlots (chan : BitVec 8) (k : Nat) (s : State) :
    ∃ f' l' r', frameOutputs chan k (s.withSlots vs f l r) =
      (frameOutputs chan k s).withSlots (vmap (voiceFrame s (frameNoise s) s.oscMix.cur) vs) f' l' r' := by
  obtain ⟨f', hf⟩ := renderVoices_withSlots vs f l r s (frameNoise s) s.oscMix.cur
  have hnoise : frameNoise (s.withSlots vs f l r) = frameNoise s := rfl
  have hmix : (s.withSlots vs f l r).oscMix = s.oscMix := rfl
  simp only [frameOutputs, hnoise, hmix, hf]
  exact ⟨f', storeFrame_withSlots _ f' l r chan k _ _ _ _
    { renderVoices s (frameNoise s) s.oscMix.cur with outLevel := smNext (renderVoices s (frameNoise s) s.oscMix.cur).outLevel }⟩

end Slots

/-- `t` is `s` but for the voices in the slots other than `i` and what no frame reads. -/
def AgreeOnSlot (i : Fin numVoices) (s t : State) : Prop := ∃ vs f l r, t = s.withSlots vs f l r ∧ vs.get i = s.voice i

theorem AgreeOnSlot.voice_eq {i : Fin numVoices} {s t : State} (h : AgreeOnSlot i s t) : t.voice i = s.voice i := by
  obtain ⟨vs, f, l, r, rfl, hi⟩ := h
  exact hi

theorem AgreeOnSlot.params_eq {i : Fin numVoices} {s t : State} (h : AgreeOnSlot i s t) : t.params = s.params := by
  obtain ⟨vs, f, l, r, rfl, hi⟩ := h
  rfl

/-- A frame makes the same of a slot whatever the others hold (R170). -/
theorem AgreeOnSlot.after_frame {i : Fin numVoices} {s t : State} (h : AgreeOnSlot i s t) (chan : BitVec 8) (k : Nat) :
    AgreeOnSlot i (frame chan k s) (frame chan k t) := by
  obtain ⟨vs, f, l, r, rfl, hi⟩ := h
  obtain ⟨f', l', r', hout⟩ := frameOutputs_withSlots (vmap (tickVoice s) vs) f l r chan k (frameInputs s)
  rw [← frameInputs_withSlots] at hout
  exact ⟨_, f', l', r', hout, by rw [vmap_get, vmap_get, hi, frame_voice]⟩

theorem AgreeOnSlot.after_frames {i : Fin numVoices} {s t : State} (h : AgreeOnSlot i s t) (chan : BitVec 8) (k n : Nat) :
    AgreeOnSlot i (frames chan k n s) (frames chan k n t) := by
  induction n generalizing k s t with
  | zero => exact h
  | succ n ih => exact ih (h.after_frame chan k) (k + 1)

/-! ## The voice's sample (R172) -/

/-- `VoiceRender` on names for its strategy, its two oscillators' outputs and its filter input. -/
theorem voiceRender_eq (p : Params) (nyq noise mix : F) (v : Voice) {ra rb : OscOut} {x : F}
    (hra : ra = oscRender p nyq (band v.frequency) v.oscA)
    (hrb : rb = oscRender p nyq (band v.frequency) { v.oscB with amp := F.mul v.oscA.amp mix })
    (hx : x = F.add (F.add ra.sample rb.sample) (F.mul noise (F.div (f7 v.velocity) f127))) :
    voiceRender p nyq noise mix v =
      { voice := { v with oscA := ra.osc, oscB := rb.osc, flt := fltCall p.flt v.flt (.process x), env := envNext v.env }
        sample := F.mul (fltOut p.flt v.flt x) (envNext v.env).level
        clip := ra.clip || rb.clip } := by
  subst hx hra hrb
  rfl

end Sys2Proof.Machine

namespace Sys2Proof.Proofs

open Sys2Proof.Machine

/-- Settles O33: what a frame reads besides the slot itself does not depend on the other slots, and the sweep reads the slot alone. -/
theorem voicesDoNotInteract : Obligations.VoicesDoNotInteract := by
  intro chan k n s vs i hi
  have hstart : AgreeOnSlot i s { s with voices := vs } := ⟨vs, s.fault, s.obufL, s.obufR, rfl, hi⟩
  have hend := hstart.after_frames chan k n
  rw [sweep_voice, sweep_voice, hend.voice_eq, hend.params_eq]

/-- Settles O60: the strategy the statement names is the note frequency's band, and its other names are the steps of `VoiceRender`. -/
theorem voiceRenderResult : Obligations.VoiceRenderResult := by
  intro p nyq noise mix v b oB ra rb x hb hoB hra hrb hx
  have hband : b = band v.frequency := hb
  subst hband hoB
  rw [voiceRender_eq p nyq noise mix v hra hrb hx]
  exact ⟨rfl, rfl, rfl⟩

end Sys2Proof.Proofs

/-! PROOFS. The statements of spec/45_synth_commands.md: the commands `NOP`, `PWRITE`, `ALLOC`, `RESET` and `RENDER`, one frame with its
mixer and stores, silence after `RESET`, the smoothers and the LFO. -/

namespace Sys2Proof

/-! ## Words (R191) and rates (R196) -/

/-- Only opcode 0x05 decodes to `PWRITE` (R87). -/
theorem decode_ne_pwrite {w : Word} (h : w.op ≠ 0x05#8) (idx : BitVec 8) (value : F) : decode w ≠ .pwrite idx value := by
  obtain hop | hop | hop | hop | hop | hop | hop := opcode_cases w.op
  · rw [decode_nop hop]; nofun
  · rw [decode_alloc hop]; nofun
  · rw [decode_reset hop]; nofun
  · rw [decode_render hop]; nofun
  · rw [decode_midi hop]
    intro hpwrite
    have hmidi := (decodeMidi_isMidi_wf w.kind w.d1 w.d2).left
    rw [hpwrite] at hmidi
    exact Bool.false_ne_true hmidi
  · exact absurd hop h
  · rw [decode_illegal hop]; nofun

/-- A place above zero is the pattern itself, of a value whose sign bit is clear and that does not read as zero. -/
theorem F.key_pos {x : F} (h : 0 < x.key) : x.key = x.toNat ∧ 2 ^ 23 ≤ x.toNat := by
  rw [F.key_eq, F.mag] at *
  cases hneg : x.neg? with
  | true => rw [hneg, if_pos rfl] at h; omega
  | false =>
    cases hzero : x.isZero with
    | true => simp [hneg, hzero] at h
    | false =>
      have hmag : x.magBits = x.toNat := Nat.mod_eq_of_lt (by simpa [F.neg?] using hneg)
      have hlow : 2 ^ 23 ≤ x.magBits := by simpa [F.isZero] using hzero
      exact ⟨by simp [hmag], hmag ▸ hlow⟩

/-- A pattern from the least normal one up to infinity is its own place. -/
theorem F.key_of_normal {x : F} (hlow : 2 ^ 23 ≤ x.toNat) (hhigh : x.toNat ≤ 0x7F800000) : x.isNaN = false ∧ x.key = x.toNat := by
  have hmag : x.magBits = x.toNat := Nat.mod_eq_of_lt (by omega)
  rw [F.isNaN, F.key, F.isZero, F.neg?, hmag, decide_eq_false (by omega), if_neg (by simpa using hlow), decide_eq_false (by omega)]
  exact ⟨rfl, rfl⟩

/-! ## Zeros (R199) -/

/-- `+0` times a finite value is the zero of its sign (R10). -/
theorem F.mul_zero_finite {g : F} (h : g.isFinite = true) : F.mul F.zero g = F.zeroOf g.neg? := by
  have hround : F.mul F.zero g = F.round g.neg? 0 149 := by
    simp [F.mul, F.finite_not_nan h, F.finite_not_inf h, show F.zero.isNaN = false by decide, show F.zero.isInf = false by decide,
      show F.zero.neg? = false by decide, show F.zero.units = 0 by decide]
  rw [hround, F.round, roundBits_zero]
  cases g.neg? <;> decide

/-- `+0` times an infinity or a NaN is a NaN (R10). -/
theorem F.mul_zero_not_finite {g : F} (h : g.isFinite = false) : F.mul F.zero g = F.nan := by
  cases hn : g.isNaN with
  | true => simp [F.mul, hn]
  | false =>
    have hi : g.isInf = true := by
      cases hi : g.isInf with
      | true => rfl
      | false => rw [F.finite_of hn hi] at h; exact h.symm
    simp [F.mul, hn, hi, show F.zero.isNaN = false by decide, show F.zero.isZero = true by decide]

/-- The average of a zero with itself is that zero. -/
theorem F.average_zero (b : Bool) : F.mul (F.add (F.zeroOf b) (F.zeroOf b)) f0_5 = F.zeroOf b := by
  cases b <;> decide

/-! ## The LFO phase (R208) -/

/-- The value next above `-PI`. -/
def aboveNegPi : F := 0xC0490FDA#32
/-- The value next above `PI`. -/
def abovePi : F := 0x40490FDC#32
/-- `PI + TWO_PI` as a sum of `F` values, a quarter of a pattern step below the exact sum. -/
def threePi : F := 0x4116CBE4#32

/-- A place directly above another leaves no value between them. -/
theorem F.lt_iff_of_next {x lo next : F} (hlo : lo.isNaN = false) (hnext : next.isNaN = false) (h : next.key = lo.key + 1) :
    F.lt lo x = true ↔ F.le next x = true := by
  rw [F.lt_iff, F.le_iff, h, Int.add_one_le_iff]; simp only [hlo, hnext]

theorem F.negPi_lt_iff {x : F} : F.lt (F.neg pi) x = true ↔ F.le aboveNegPi x = true :=
  F.lt_iff_of_next (by decide) (by decide) (by decide)

theorem F.pi_lt_iff {x : F} : F.lt pi x = true ↔ F.le abovePi x = true :=
  F.lt_iff_of_next (by decide) (by decide) (by decide)

/-- A phase in `(-PI, PI]` and an increment in `[0, TWO_PI]` add to a value above `-PI`, at most three times `PI`. -/
theorem F.add_lfo_within {lfo inc : F} (hlfo : F.within aboveNegPi lfo pi) (hinc : F.within F.zero inc twoPi) :
    F.within aboveNegPi (F.add lfo inc) threePi := by
  have hbottom : F.add aboveNegPi F.zero = aboveNegPi := by decide +kernel
  have htop : F.add pi twoPi = threePi := by decide +kernel
  have h := F.add_within_both (by decide) (by decide) (by decide) (by decide) hlfo hinc
  rwa [hbottom, htop] at h

/-- Subtracting `TWO_PI` from a value above `PI`, at most three times `PI`, gives one in `(-PI, PI]`; both ends are exact. -/
theorem F.sub_twoPi_within {x : F} (h : F.within abovePi x threePi) : F.within aboveNegPi (F.sub x twoPi) pi := by
  have hbottom : F.le aboveNegPi (F.sub abovePi twoPi) = true := by decide +kernel
  have htop : F.le (F.sub threePi twoPi) pi = true := by decide +kernel
  obtain ⟨hlow, hhigh⟩ := F.sub_within (by decide) (by decide) h (y := twoPi) (by decide)
  exact ⟨F.le_trans hbottom hlow, F.le_trans hhigh htop⟩

end Sys2Proof

namespace Sys2Proof.Machine

/-! ## Aborts and the port check (R191) -/

theorem State.abort_cmd {s : State} (k : FaultCode) (h : s.port = .cmd) :
    s.abort k = { s with fault := s.fault.raise k, cp := s.cp + 1 } := State.advance_cmd (s := s.raise k) h

theorem State.abort_par {s : State} (k : FaultCode) (h : s.port = .par) :
    s.abort k = { s with fault := s.fault.raise k, pp := s.pp + 1 } := State.advance_par (s := s.raise k) h

/-- On the parameter port every command but `PWRITE` aborts with `IllegalCommand`, before its other checks. -/
theorem exec_parameterPort {i : Instr} {s : State} (hp : s.port = .par) (hi : ∀ idx value, i ≠ .pwrite idx value) :
    exec i s = .next (s.abort .illegalCommand) := by
  cases i with
  | pwrite idx value => exact absurd rfl (hi idx value)
  | illegal op => rfl
  | _ => exact congrArg Host.Outcome.next (commandPortOnly_par hp)

theorem exec_illegal (op : BitVec 8) (s : State) : exec (.illegal op) s = .next (s.abort .illegalCommand) := rfl

/-! ## Blocks and the command pointer (R200, R214) -/

/-- A block raises `HarmClip` or nothing (R271). -/
theorem renderBlock_fault (off cnt : Nat) (chan : BitVec 8) (s : State) :
    (renderBlock off cnt chan s).fault = s.fault ∨ (renderBlock off cnt chan s).fault = s.fault.raise .harmClip := by
  have h := frames_fault chan off cnt (latch s)
  rwa [latch_fault] at h

/-- `s` at another place of the command-port sequence. -/
def State.withCp (c : Nat) (s : State) : State := { s with cp := c }

section CommandPointer
variable (c : Nat)

theorem lfoDecimate_withCp (s : State) : lfoDecimate (s.withCp c) = (lfoDecimate s).withCp c := by
  unfold lfoDecimate; rw [apply_ite (State.withCp c)]; rfl

theorem renderVoices_withCp (s : State) (noise mix : F) :
    renderVoices (s.withCp c) noise mix = (renderVoices s noise mix).withCp c := by
  unfold renderVoices; rw [apply_ite (State.withCp c)]; rfl

theorem frameInputs_withCp (s : State) : frameInputs (s.withCp c) = (frameInputs s).withCp c := by
  rw [frameInputs, lfoDecimate_withCp]; rfl

/-- Mono or stereo, where the stores go does not depend on the command pointer. -/
theorem frameOutputs_withCp (chan : BitVec 8) (k : Nat) (s : State) :
    frameOutputs chan k (s.withCp c) = (frameOutputs chan k s).withCp c := by
  rw [frameOutputs, renderVoices_withCp, frameOutputs, storeFrame, storeFrame, apply_ite (State.withCp c)]
  rfl

/-- A run of frames neither reads nor writes the command pointer. -/
theorem frames_withCp (chan : BitVec 8) (k n : Nat) (s : State) : frames chan k n (s.withCp c) = (frames chan k n s).withCp c := by
  induction n generalizing k s with
  | zero => rfl
  | succ n ih => rw [frames_succ, frame, frameInputs_withCp, frameOutputs_withCp, ih]; rfl

end CommandPointer

@[simp] theorem renderBlock_port (off cnt : Nat) (chan : BitVec 8) (s : State) : (renderBlock off cnt chan s).port = s.port := by
  simp [renderBlock]

theorem latch_clean {s : State} (h : s.dirty = false) : latch s = s := if_neg (by simp [h])

/-- A sweep resets nothing where every voice is active (R213). -/
theorem sweep_allActive {s : State} (h : s.AllActive) : sweep s = s := by
  rw [sweep, State.mapVoices, vmap_same fun i => if_pos (h i)]

/-- With no voice inactive at the split, the second block goes on where the first one ended: its latch finds `DIRTY` 0, and the sweep
between them resets nothing (R214). -/
theorem renderBlock_split {off a b c : Nat} {chan : BitVec 8} {s : State} (h : (renderBlock off a chan s).AllActive) :
    renderBlock (off + a) b chan ((renderBlock off a chan s).withCp c) = (renderBlock off (a + b) chan s).withCp c := by
  have hsweep : renderBlock off a chan s = frames chan off a (latch s) :=
    sweep_allActive fun i => (sweep_active _ i).symm.trans (h i)
  have hdirty : ((renderBlock off a chan s).withCp c).dirty = false := renderBlock_dirty off a chan s
  rw [renderBlock, latch_clean hdirty, hsweep, frames_withCp, ← frames_add]
  rfl

/-! ## One frame (R202) -/

/-- Of what the voices read besides themselves, steps (1) to (3) leave the Nyquist bound as it is. -/
theorem frameInputs_nyqVal (s : State) : (frameInputs s).nyqVal = s.nyqVal := by rw [State.nyqVal, frameInputs_nyq]; rfl

theorem mixVoice_frameInputs (s : State) : mixVoice (frameInputs s) = mixVoice s := by
  funext noise mix acc v
  rw [mixVoice, mixVoice, frameInputs_params, frameInputs_nyqVal]

theorem voiceFrame_frameInputs (s : State) : voiceFrame (frameInputs s) = voiceFrame s := by
  funext noise mix v
  rw [voiceFrame, voiceFrame, frameInputs_params, frameInputs_nyqVal]

theorem voiceClips_frameInputs (s : State) : voiceClips (frameInputs s) = voiceClips s := by
  funext noise mix v
  rw [voiceClips, voiceClips, frameInputs_params, frameInputs_nyqVal]

/-- The noise sample of a frame (R209). -/
theorem frameNoise_frameInputs (s : State) :
    frameNoise (frameInputs s) = F.mul (noiseValue (noiseAdvance s.params s.lfsr)) (s.cfgReg .noiseMix) := by
  rw [frameNoise, frameInputs_lfsr, State.cfgReg, frameInputs_cfg]; rfl

/-- The accumulators of a frame: the voices after the tick, in index order (R211). -/
theorem mixAll_frameInputs (s : State) (noise mix : F) :
    mixAll (frameInputs s) noise mix = (lfoDecimate s).voices.toList.foldl (mixVoice s noise mix) (F.zero, F.zero) := by
  rw [mixAll, mixVoice_frameInputs, frameInputs_voices]

theorem storeFrame_obufL (chan : BitVec 8) (k : Nat) (l r : F) (s : State) : (storeFrame chan k l r s).obufL =
    if chan = 1#8 then writeElem k (F.mul (F.add l r) f0_5) s.obufL else writeElem k l s.obufL := by
  unfold storeFrame; split <;> rfl

theorem storeFrame_obufR (chan : BitVec 8) (k : Nat) (l r : F) (s : State) :
    (storeFrame chan k l r s).obufR = if chan = 1#8 then s.obufR else writeElem k r s.obufR := by
  unfold storeFrame; split <;> rfl

theorem renderVoices_fault (s : State) (noise mix : F) : (renderVoices s noise mix).fault =
    if s.voices.toList.any (voiceClips s noise mix) then s.fault.raise .harmClip else s.fault := by
  unfold renderVoices; split <;> rfl

/-- A frame on names for what it hands from one step to the next. -/
structure FrameValues (s : State) (noise mix : F) (acc : F × F) (outL outR : F) : Prop where
  noise_eq : noise = F.mul (noiseValue (noiseAdvance s.params s.lfsr)) (s.cfgReg .noiseMix)
  mix_eq : mix = (smNext s.oscMix).cur
  acc_eq : acc = (lfoDecimate s).voices.toList.foldl (mixVoice s noise mix) (F.zero, F.zero)
  outL_eq : outL = F.mul acc.1 (smNext s.outLevel).cur
  outR_eq : outR = F.mul acc.2 (smNext s.outLevel).cur

section FrameValues
variable {s : State} {noise mix outL outR : F} {acc : F × F} (chan : BitVec 8) (k : Nat)
variable (h : FrameValues s noise mix acc outL outR)
include h

/-- The stores of a frame take its two output samples (R202 (6), R212). -/
theorem FrameValues.frame_eq : frame chan k s =
    storeFrame chan k outL outR { renderVoices (frameInputs s) noise mix with outLevel := smNext s.outLevel } := by
  have hnoise : noise = frameNoise (frameInputs s) := h.noise_eq.trans (frameNoise_frameInputs s).symm
  have hmix : mix = (frameInputs s).oscMix.cur := by rw [h.mix_eq, frameInputs_oscMix]
  have hacc : acc = mixAll (frameInputs s) noise mix := h.acc_eq.trans (mixAll_frameInputs s noise mix).symm
  have hlevel : smNext s.outLevel = smNext (renderVoices (frameInputs s) noise mix).outLevel := by simp
  rw [h.outL_eq, h.outR_eq, hacc, hlevel, hnoise, hmix]
  rfl

theorem FrameValues.obufL : (frame chan k s).obufL =
    if chan = 1#8 then writeElem k (F.mul (F.add outL outR) f0_5) s.obufL else writeElem k outL s.obufL := by
  rw [h.frame_eq, storeFrame_obufL]; simp

theorem FrameValues.obufR : (frame chan k s).obufR = if chan = 1#8 then s.obufR else writeElem k outR s.obufR := by
  rw [h.frame_eq, storeFrame_obufR]; simp

theorem FrameValues.voices : (frame chan k s).voices = vmap (voiceFrame s noise mix) (lfoDecimate s).voices := by
  rw [h.frame_eq, storeFrame_voices]; simp [voiceFrame_frameInputs]

theorem FrameValues.fault : (frame chan k s).fault =
    if (lfoDecimate s).voices.toList.any (voiceClips s noise mix) then s.fault.raise .harmClip else s.fault := by
  rw [h.frame_eq, storeFrame_fault]; simp [renderVoices_fault, voiceClips_frameInputs]

end FrameValues

@[simp] theorem frame_lfo (chan : BitVec 8) (k : Nat) (s : State) : (frame chan k s).lfo = (lfoDecimate s).lfo := by simp [frame]
@[simp] theorem frame_vibratoMod (chan : BitVec 8) (k : Nat) (s : State) : (frame chan k s).vibratoMod = (lfoDecimate s).vibratoMod := by simp [frame]
@[simp] theorem frame_filterZip (chan : BitVec 8) (k : Nat) (s : State) : (frame chan k s).filterZip = (lfoDecimate s).filterZip := by simp [frame]

/-! ## Silence (R199) -/

/-- An operation on each voice by itself that makes none active. -/
theorem State.AllInactive.map {s t : State} {f : Voice → Voice} (h : s.AllInactive) (ht : t.voices = vmap f s.voices)
    (hf : ∀ v, v.active = false → (f v).active = false) : t.AllInactive := fun i => by
  rw [voice_of_vmap ht]; exact hf _ (h i)

theorem State.AllInactive.congr {s t : State} (h : s.AllInactive) (ht : t.voices = s.voices) : t.AllInactive := fun i => by
  rw [voice_congr ht]; exact h i

/-- An operation that leaves every voice's phases and levels makes none active. -/
theorem State.AllInactive.map_motion {s t : State} {f : Voice → Voice} (h : s.AllInactive) (ht : t.voices = vmap f s.voices)
    (hf : ∀ v, (f v).motion = v.motion) : t.AllInactive :=
  h.map ht fun v hv => (Voice.active_of_motion (hf v)).trans hv

theorem allInactive_of_voiceReset {s t : State} {p : Params} (ht : t.voices = vmap (voiceReset p) s.voices) : t.AllInactive :=
  fun i => by rw [voice_of_vmap ht]; exact voiceReset_active _ _

theorem frame_allInactive (chan : BitVec 8) (k : Nat) {s : State} (h : s.AllInactive) : (frame chan k s).AllInactive := fun i => by
  rw [frame_voice_inactive chan k (h i)]; exact h i

theorem frames_allInactive (chan : BitVec 8) (k n : Nat) {s : State} (h : s.AllInactive) : (frames chan k n s).AllInactive :=
  frames_preserve State.AllInactive (fun k _ => frame_allInactive chan k) k n h

/-- A block makes no voice active (R211, R213). -/
theorem renderBlock_allInactive (off cnt : Nat) (chan : BitVec 8) {s : State} (h : s.AllInactive) :
    (renderBlock off cnt chan s).AllInactive := fun i => by
  rw [renderBlock_voice_inactive off cnt chan (h i)]; exact voiceReset_active _ _

/-- Only a note-on with a velocity other than 0 makes a voice active. -/
theorem Effect.allInactive {i : Instr} {s u : State} (hs : s.AllInactive) (hi : ∀ n v, i = .midiNoteOn n v → v = 0#7)
    (h : Effect i s u) : u.AllInactive := by
  cases h with
  | noteOn _ hv => exact absurd (hi _ _ rfl) hv
  | alloc => exact hs.map_motion (allocate_voices _ s) fun _ => rfl
  | reset => exact allInactive_of_voiceReset (resetSynth_voices s)
  | render => exact renderBlock_allInactive _ _ _ hs
  | noteOff | noteOnZero => exact hs.map_motion (noteOff_voices _ s) (voiceNoteOff_motion _ _)
  | sustain => exact hs.map_motion (by rw [sustainPedal_eq]; rfl) (voicePedal_motion _)
  | allOff => exact allInactive_of_voiceReset (allNotesOff_voices s)
  | nop | ignored => exact hs
  | modWheel | resonance | filterUp | filterDown | pressure | pitchBend | pwrite => exact hs.congr rfl

/-- A tick leaves inactive voices. -/
theorem lfoDecimate_voices_allInactive {s : State} (h : s.AllInactive) : (lfoDecimate s).voices = s.voices := by
  rw [lfoDecimate_voices, vmap_same fun i => tickVoice_inactive (h i)]

/-- No inactive voice adds to the accumulators (R211). -/
theorem foldl_mixVoice_allInactive {s t : State} (h : t.AllInactive) (noise mix : F) (acc : F × F) :
    t.voices.toList.foldl (mixVoice s noise mix) acc = acc := by
  have hkeep (acc : F × F) (v : Voice) (hv : v ∈ t.voices.toList) : mixVoice s noise mix acc v = acc := by
    obtain ⟨i, rfl⟩ := mem_voices.1 hv
    simp [mixVoice, h i]
  rw [List.foldl_ext _ (fun acc _ => acc) acc hkeep]
  exact List.foldl_fixed _

/-- The output samples of a frame with no voice active are both `+0 * g` (R199). -/
theorem frameValues_allInactive {s : State} (h : s.AllInactive) {z : F} (hz : z = F.mul F.zero (smNext s.outLevel).cur) :
    FrameValues s (F.mul (noiseValue (noiseAdvance s.params s.lfsr)) (s.cfgReg .noiseMix)) (smNext s.oscMix).cur (F.zero, F.zero) z z := by
  refine ⟨rfl, rfl, ?_, hz, hz⟩
  rw [lfoDecimate_voices_allInactive h, foldl_mixVoice_allInactive h]

/-- In a buffer that later frames leave alone, an element of a run of frames is the one its own frame stored. -/
theorem frames_readElem_at {chan : BitVec 8} (buf : State → Memory)
    (hkeep : ∀ {i k n : Nat} (s : State), i < k ∨ k + n ≤ i → readElem i (buf (frames chan k n s)) = readElem i (buf s))
    {j n : Nat} (k : Nat) (s : State) (hj : j < n) :
    readElem (k + j) (buf (frames chan k n s)) = readElem (k + j) (buf (frame chan (k + j) (frames chan k j s))) := by
  rw [show n = j + 1 + (n - (j + 1)) by omega, frames_add, hkeep _ (by omega), frames_succ_last]

/-- The elements of a block with no voice active: `z` in both buffers, or its average with itself in `OBUF_L` (R199, R212). -/
theorem frames_readElem_allInactive {chan : BitVec 8} {j n : Nat} (k : Nat) {s : State} (h : s.AllInactive) (hj : j < n) {z : F}
    (hz : z = F.mul F.zero (smNext^[j + 1] s.outLevel).cur) :
    (chan ≠ 1#8 → readElem (k + j) (frames chan k n s).obufL = some z ∧ readElem (k + j) (frames chan k n s).obufR = some z) ∧
    (chan = 1#8 → readElem (k + j) (frames chan k n s).obufL = some (F.mul (F.add z z) f0_5)) := by
  rw [Function.iterate_succ_apply', ← frames_outLevel chan k] at hz
  have hframe := frameValues_allInactive (frames_allInactive chan k j h) hz
  rw [frames_readElem_at (·.obufL) (frames_readElemL_outside chan) k s hj,
    frames_readElem_at (·.obufR) (frames_readElemR_outside chan) k s hj]
  refine ⟨fun hstereo => ?_, fun hmono => ?_⟩
  · rw [hframe.obufL, hframe.obufR, if_neg hstereo, if_neg hstereo]
    exact ⟨readElem_writeElem_same _ _ _, readElem_writeElem_same _ _ _⟩
  · rw [hframe.obufL, if_pos hmono, readElem_writeElem_same]

/-! ## The smoothers (R204, R205) -/

section Smoother
variable (sm : Smoother)

theorem smNext_cnt : (smNext sm).cnt = sm.cnt - 1 := by
  rcases Nat.eq_zero_or_pos sm.cnt with h | h
  · rw [smNext_zero h, h]
  · rw [smNext_pos h]

theorem smNext_tgt : (smNext sm).tgt = sm.tgt := by unfold smNext; split <;> rfl
theorem smNext_step : (smNext sm).step = sm.step := by unfold smNext; split <;> rfl

variable {sm}

/-- Before its last frame a ramp moves by its step. -/
theorem smNext_cur_moving (h : 1 < sm.cnt) : (smNext sm).cur = F.add sm.cur sm.step := by
  rw [smNext_pos (by omega)]; exact if_neg (by omega)

/-- The last frame of a ramp loads the target. -/
theorem smNext_cur_last (h : sm.cnt = 1) : (smNext sm).cur = sm.tgt := by
  rw [smNext_pos (by omega)]; exact if_pos (by omega)

variable (sm)

theorem smNext_iterate_cnt_eq (j : Nat) : (smNext^[j] sm).cnt = sm.cnt - j := by
  induction j with
  | zero => rfl
  | succ j ih => rw [Function.iterate_succ_apply', smNext_cnt, ih, Nat.sub_sub]

theorem smNext_iterate_tgt (j : Nat) : (smNext^[j] sm).tgt = sm.tgt :=
  Function.Iterate.rec (fun x : Smoother => x.tgt = sm.tgt) rfl (fun _ h => (smNext_tgt _).trans h) j

theorem smNext_iterate_step (j : Nat) : (smNext^[j] sm).step = sm.step :=
  Function.Iterate.rec (fun x : Smoother => x.step = sm.step) rfl (fun _ h => (smNext_step _).trans h) j

/-- From its last frame on a ramp stands at its target. -/
theorem smNext_iterate_settled {m : Nat} (h1 : 1 ≤ sm.cnt) (hm : sm.cnt ≤ m) :
    (smNext^[m] sm).cur = sm.tgt ∧ (smNext^[m] sm).cnt = 0 := by
  have hcnt {j : Nat} (hj : sm.cnt ≤ j) : (smNext^[j] sm).cnt = 0 := by rw [smNext_iterate_cnt_eq, Nat.sub_eq_zero_of_le hj]
  refine ⟨?_, hcnt hm⟩
  induction m, hm using Nat.le_induction with
  | base =>
    have hlast : (smNext^[sm.cnt - 1] sm).cnt = 1 := by rw [smNext_iterate_cnt_eq]; omega
    rw [← Nat.sub_add_cancel h1, Function.iterate_succ_apply', smNext_cur_last hlast, smNext_iterate_tgt]
  | succ m hm ih => rw [Function.iterate_succ_apply', smNext_zero (hcnt hm), ih]

end Smoother

/-- A ramp of `n` frames from the present value (R204). -/
theorem smSetTarget_ramp {n : Nat} (h : 1 ≤ n) (sm : Smoother) (t : F) :
    smSetTarget n sm t = { cur := sm.cur, tgt := t, step := F.div (F.sub t sm.cur) (F.ofNat n), cnt := n } := if_neg (by omega)

/-! ## The LFO counter (R207) -/

/-- The frames up to and including the next tick: a counter of 0 or below ticks in the next frame, as 1 does. -/
def framesToTick (s : State) : Int := max s.lfoStep 1

theorem framesToTick_frame (chan : BitVec 8) (k : Nat) {s : State} (h : 1 ≤ s.params.lfoMax) :
    framesToTick (frame chan k s) = if framesToTick s = 1 then (s.params.lfoMax : Int) else framesToTick s - 1 := by
  rw [framesToTick, framesToTick, frame_lfoStep]
  split <;> split <;> omega

theorem framesToTick_eq_one_iff {s : State} : framesToTick s = 1 ↔ s.lfoStep - 1 ≤ 0 := by rw [framesToTick]; omega

/-- After `n` frames from a counter of 0 the next tick falls on a frame whose index is a multiple of `LFO_MAX`. -/
theorem framesToTick_frames (chan : BitVec 8) (k n : Nat) {s : State} (h0 : s.lfoStep = 0) (h : 1 ≤ s.params.lfoMax) :
    1 ≤ framesToTick (frames chan k n s) ∧ framesToTick (frames chan k n s) ≤ s.params.lfoMax ∧
      (s.params.lfoMax : Int) ∣ n + framesToTick (frames chan k n s) - 1 := by
  induction n with
  | zero => rw [frames_zero, framesToTick, h0]; refine ⟨by omega, by omega, by simp⟩
  | succ n ih =>
    obtain ⟨hlow, hhigh, hdvd⟩ := ih
    rw [frames_succ_last, framesToTick_frame chan _ (by rwa [frames_params]), frames_params]
    split_ifs with hone
    · rw [hone] at hdvd
      refine ⟨by omega, le_refl _, ?_⟩
      rw [show ((n + 1 : Nat) : Int) + s.params.lfoMax - 1 = n + 1 - 1 + s.params.lfoMax by push_cast; ring]
      exact Int.dvd_add hdvd (Int.dvd_refl _)
    · refine ⟨by omega, by omega, ?_⟩
      rwa [show ((n + 1 : Nat) : Int) + (framesToTick (frames chan k n s) - 1) - 1 = n + framesToTick (frames chan k n s) - 1 by push_cast; ring]

/-! ## The LFO phase (R208) -/

theorem lfoPhase_wrap {lfo inc : F} (h : F.gt (F.add lfo inc) pi = true) : lfoPhase lfo inc = F.sub (F.add lfo inc) twoPi := if_pos h
theorem lfoPhase_noWrap {lfo inc : F} (h : F.gt (F.add lfo inc) pi = false) : lfoPhase lfo inc = F.add lfo inc :=
  if_neg (by simp [h])

end Sys2Proof.Machine

namespace Sys2Proof.Proofs

open Sys2Proof.Machine

/-- Settles O11: on the parameter port the port check comes first, and an illegal opcode decodes to `ILLEGAL` and aborts on either port. -/
theorem portCheck : Obligations.PortCheck := by
  refine ⟨fun s w hp hop => ?parameterPort, fun s w hp hop => ?commandPort, fun s op => ⟨fun hp => ?_, fun hp => ?_⟩⟩
  case parameterPort => rw [exec_parameterPort hp (decode_ne_pwrite hop), State.abort_par _ hp]; rfl
  case commandPort => rw [decode_illegal hop, exec_illegal, State.abort_cmd _ hp]; rfl
  · rw [exec_illegal, State.abort_cmd _ hp]; rfl
  · rw [exec_illegal, State.abort_par _ hp]; rfl

/-- Settles O21: the operation of either command changes nothing before the pointer advances. -/
theorem nopAndIgnoredRetire : Obligations.NopAndIgnoredRetire := by
  refine fun s hp => ⟨?nop, fun ha => ?ignored⟩
  case nop => rw [exec, execNop, commandPortOnly_cmd hp, State.advance_cmd hp]
  case ignored => rw [exec, execMidiIgnored, midiCommand_run hp ha, State.advance_cmd hp]

/-- Settles O22: whichever way a `PWRITE` ends, its effect happens and the pointer of its port advances. -/
theorem pwriteResult : Obligations.PwriteResult := by
  refine fun idx value s => ⟨fun h => ?inside, fun h => ?outside⟩
  case inside =>
    rw [exec_pwrite, pwriteEffect_inside h]
    exact ⟨fun hp => congrArg Host.Outcome.next (State.advance_cmd (s := writeShadow ⟨idx.toNat, h⟩ value s) hp),
      fun hp => congrArg Host.Outcome.next (State.advance_par (s := writeShadow ⟨idx.toNat, h⟩ value s) hp)⟩
  case outside =>
    rw [exec_pwrite, pwriteEffect_outside (Nat.not_lt.2 h)]
    exact ⟨fun hp => congrArg Host.Outcome.next (State.abort_cmd .badParamIndex hp),
      fun hp => congrArg Host.Outcome.next (State.abort_par .badParamIndex hp)⟩

/-- Settles O23: the two branches of `ALLOC`'s test. -/
theorem allocResult : Obligations.AllocResult := by
  intro hint rate s hp
  rw [exec, execAlloc, commandPortOnly_cmd hp]
  refine ⟨fun hrate => ?taken, fun hrate => ?refused⟩
  case taken =>
    rw [if_pos (by simpa [rateOk] using hrate), State.advance_cmd (s := allocate rate s) hp]
    rfl
  case refused =>
    rw [if_neg (by simpa [rateOk] using hrate), State.abort_cmd _ hp]
    rfl

/-- Settles O24: a value above `+0` is its own place, and so is every normal pattern up to infinity. -/
theorem allocTakesPositiveNormalRates : Obligations.AllocTakesPositiveNormalRates := by
  intro rate
  have hzero : F.zero.key = 0 := by decide
  have hinf : F.inf.key = 0x7F800000 := by decide
  rw [F.gt, F.lt_iff, F.lt_iff, hzero, hinf]
  constructor
  · rintro ⟨⟨-, -, hpos⟩, -, -, hlt⟩
    obtain ⟨hkey, hlow⟩ := F.key_pos hpos
    exact ⟨hlow, by omega⟩
  · rintro ⟨hlow, hlt⟩
    obtain ⟨hnan, hkey⟩ := F.key_of_normal hlow hlt.le
    exact ⟨⟨by decide, hnan, by omega⟩, hnan, by decide, by omega⟩

/-- Settles O25: `resetSynth` and the reset of a voice, written out. -/
theorem resetResult : Obligations.ResetResult := by
  intro s hp
  rw [exec, execReset, commandPortOnly_cmd hp, State.advance_cmd (s := resetSynth s) hp]
  rfl

/-- Settles O26: the checks in their order, and a block raises `HarmClip` or nothing. -/
theorem renderAborts : Obligations.RenderAborts := by
  refine fun off cnt chan s hp => ⟨fun ha => ?unallocated, fun ha (hb : s.params.obufDepth < renderEnd off cnt) => ?range,
    fun ha hb => ?runs⟩
  case unallocated => rw [exec, execRender, commandPortOnly_cmd hp, whenAllocated_unset ha, State.abort_cmd _ hp]; rfl
  case range => rw [exec, execRender, commandPortOnly_cmd hp, whenAllocated_set ha, renderChecked, if_pos hb, State.abort_cmd _ hp]; rfl
  case runs => exact ⟨_, exec_render hp ha hb, renderBlock_fault _ _ _ s⟩

/-- Settles O27: the latch of the statement is `latch` written out, and no frame changes the parameters the sweep reads. -/
theorem renderIsLatchFramesSweep : Obligations.RenderIsLatchFramesSweep := by
  refine ⟨fun chan k n s => ⟨rfl, rfl⟩, fun off cnt chan s u hp ha hb hu => ?_⟩
  have hframes : u = frames chan off.toNat cnt.toNat (latch s) := hu
  have hparams : u.params = s.params := by rw [hframes, frames_params, latch_params]
  rw [exec_render hp ha hb, renderBlock, ← hframes, ← hparams]
  rfl

/-- Settles O29: the statement's names are the values a frame hands from step to step, and a stored element is its four bytes. -/
theorem frameResult : Obligations.FrameResult := by
  refine ⟨fun k v m => ⟨readElem_writeElem_same k v m, fun j => readByte_writeElem_inside v m, fun a => readByte_writeElem_outside v m⟩,
    fun s r => State.nyqVal_of_nyq, fun chan k s a l n mix g acc outL outR ha hl hn hmix hacc hg hL hR => ?_⟩
  have ha : a = lfoDecimate s := ha
  rw [← noiseAdvance_eq_iterate] at hl
  subst ha hl hmix hg
  have h : FrameValues s n (smNext s.oscMix).cur acc outL outR := ⟨hn, rfl, hacc, hL, hR⟩
  have hstep : (frame chan k s).lfoStep = (lfoDecimate s).lfoStep := by simp [frame]
  exact ⟨h.obufL chan k, h.obufR chan k, h.voices chan k, frame_lfsr .., frame_oscMix .., frame_outLevel .., hstep, frame_lfo ..,
    frame_vibratoMod .., frame_filterZip .., h.fault chan k⟩

/-- Settles O31: the latch of the second block and the sweep of the first change nothing, so the two runs of frames are one. -/
theorem splitRender : Obligations.SplitRender := by
  intro off a b chan s s1 s2 hp ha hb hoff hcnt h1 hactive h2
  have hsum : (a + b).toNat = a.toNat + b.toNat := by rw [BitVec.toNat_add, Nat.mod_eq_of_lt hcnt]
  have hstart : (off + a).toNat = off.toNat + a.toNat := by rw [BitVec.toNat_add, Nat.mod_eq_of_lt hoff]
  rw [exec_render hp ha (by omega)] at h1
  rw [exec_render hp ha (by omega), hsum] at h2
  injection h1 with h1
  injection h2 with h2
  subst h1 h2
  rw [exec_render (by simpa using hp) (by simpa using ha) (by simp; omega), hstart]
  exact congrArg (fun t : State => Host.Outcome.next (t.withCp (s.cp + 2))) (renderBlock_split hactive)

/-- Settles O32: no command but a note-on makes a voice active, and a frame with none active accumulates nothing. -/
theorem silenceAfterReset : Obligations.SilenceAfterReset := by
  refine ⟨fun s t hp h => ?reset, fun i s t hs hi h => ?commands, fun off cnt chan s t hp ha hb hs h => ?render,
    fun g => ⟨fun hg => ⟨F.mul_zero_finite hg, ?average⟩, F.mul_zero_not_finite⟩⟩
  case reset =>
    rw [exec, execReset, commandPortOnly_cmd hp] at h
    injection h with h
    subst h
    exact allInactive_of_voiceReset (State.advance_voices _)
  case commands =>
    rcases exec_next_cases h with ⟨k, -, rfl⟩ | ⟨u, hu, rfl, -⟩
    · exact hs.congr (State.advance_voices _)
    · exact (hu.allInactive hs hi).congr (State.advance_voices u)
  case render =>
    rw [exec_render hp ha hb] at h
    injection h with h
    subst h
    refine ⟨renderBlock_lfsr .., fun j z hj hz => ?_⟩
    exact frames_readElem_allInactive off.toNat (hs.congr (latch_voices s)) hj hz
  case average => rw [F.mul_zero_finite hg, F.average_zero]

/-- Settles O46: the counter of a ramp counts down to the frame that loads the target, after which nothing moves. -/
theorem rampEndsOnItsTarget : Obligations.RampEndsOnItsTarget := by
  refine ⟨fun sm t => rfl, fun n sm t hn => ?_⟩
  rw [smSetTarget_ramp hn]
  refine ⟨rfl, rfl, fun j _ => smNext_iterate_cnt_eq _ j, fun j hj => ?moves, fun m hm => smNext_iterate_settled _ hn hm⟩
  case moves =>
    rw [Function.iterate_succ_apply', smNext_cur_moving (by rw [smNext_iterate_cnt_eq]; dsimp only; omega), smNext_iterate_step]

/-- Settles O47: the next tick falls on a multiple of `LFO_MAX` fewer than `LFO_MAX` frames away, so on frame `n` if and only if `n` is one. -/
theorem tickEveryLfoMaxFrames : Obligations.TickEveryLfoMaxFrames := by
  intro chan k n s h0 h
  obtain ⟨hlow, hhigh, hdvd⟩ := framesToTick_frames chan k n h0 h
  rw [← framesToTick_eq_one_iff, ← Nat.dvd_iff_mod_eq_zero, ← Int.natCast_dvd_natCast]
  constructor
  · intro hone
    rwa [hone, Int.add_sub_cancel] at hdvd
  · intro hn
    rw [Int.add_sub_assoc] at hdvd
    have hrest := (Int.dvd_add_right hn).1 hdvd
    have := Int.eq_zero_of_dvd_of_nonneg_of_lt (by omega) (by omega) hrest
    omega

/-- Settles O48: the statement is the definition of a tick and of its voice operations, written out; `FS` is read where it is set. -/
theorem lfoTickResult : Obligations.LfoTickResult := by
  rintro s lfo sine vib zip rfl rfl rfl rfl
  exact ⟨fun r => State.fsVal_of_fs, rfl⟩

/-- Settles O50: the sum is above `-PI` and at most three times `PI`. Up to `PI` it is the new phase, above it the subtraction takes
it back. -/
theorem lfoPhaseStaysInRange : Obligations.LfoPhaseStaysInRange := by
  intro lfo inc hlow hhigh hinc
  rw [F.negPi_lt_iff] at hlow ⊢
  obtain ⟨hsumLow, hsumHigh⟩ := F.add_lfo_within ⟨hlow, hhigh⟩ hinc
  cases hwrap : F.gt (F.add lfo inc) pi with
  | true =>
    rw [lfoPhase_wrap hwrap]
    exact F.sub_twoPi_within ⟨F.pi_lt_iff.1 hwrap, hsumHigh⟩
  | false =>
    obtain ⟨-, hnan, -⟩ := F.le_iff.1 hsumLow
    rw [lfoPhase_noWrap hwrap]
    exact ⟨hsumLow, (F.not_lt (by decide) hnan).1 hwrap⟩

end Sys2Proof.Proofs

/-! PROOFS. The statements of spec/46_midi_and_allocation.md: voice allocation, the notes and the pedal, the controllers and pitch
bend. -/

namespace Sys2Proof

/-! ## Products with zero, comparisons and powers of two (R10, R12, R13) -/

theorem F.mul_comm (x y : F) : F.mul x y = F.mul y x := by
  simp only [F.mul, Bool.or_comm x.isNaN, Bool.or_comm x.isInf, Bool.or_comm x.isZero, bne_comm (a := x.neg?), Nat.mul_comm x.units]

/-- A finite value times `+0` reads as zero. -/
theorem F.mul_zero_isZero {x : F} (h : x.isFinite = true) : (F.mul x F.zero).isZero = true := by
  rw [F.mul_comm, F.mul_zero_finite h]
  cases x.neg? <;> decide

theorem F.lt_irrefl (x : F) : F.lt x x = false := by simp [F.lt]

/-- A value that is not below `z` is not at or below anything that is. -/
theorem F.le_eq_false_of_lt {x y z : F} (h1 : F.lt y z = true) (h2 : F.lt x z = false) : F.le x y = false :=
  Bool.eq_false_iff.2 fun h => Bool.eq_false_iff.1 h2 (F.lt_of_le_of_lt h h1)

/-- An integer below `2^24` in magnitude is read back from its conversion (R11). -/
theorem F.asInt?_ofInt {i : Int} (h : i.natAbs < 2 ^ 24) : (F.ofInt i).asInt? = some i := by
  obtain ⟨hfinite, hneg, hunits⟩ := F.ofInt_exact h
  simp only [F.asInt?, hfinite, hneg, hunits, Nat.mul_mod_left, Nat.mul_div_cancel _ (Nat.two_pow_pos 149), decide_eq_true_eq,
    Bool.and_self, decide_true, if_true, Option.some.injEq]
  split <;> omega

/-- The pattern with exponent field `e + 1` and fraction 0 is `2^(e - 126)`. -/
theorem F.pack_exponent {e : Nat} (h : e ≤ 253) :
    (F.pack false ((e + 1) * 2 ^ 23)).isFinite = true ∧ (F.pack false ((e + 1) * 2 ^ 23)).toUnits = 2 ^ (e + 23) := by
  have hbits := F.pack_magBits false (b := (e + 1) * 2 ^ 23) (by omega)
  refine ⟨by rw [F.isFinite, hbits, decide_eq_true_eq]; omega, ?_⟩
  rw [F.toUnits, F.pack_neg? false (by omega), if_neg Bool.false_ne_true,
    F.units_of_magBits (a := 2 ^ 23) (d := e) (le_refl _) (by decide) (by rw [hbits]; ring), ← Nat.pow_add, Nat.add_comm]
  push_cast
  rfl

/-- `NUM.pow2int`: `POW2(k) = 2^k` for an integer in range (R12). -/
theorem POW2_ofInt (num : NumSel) {k : Int} (hlow : -126 ≤ k) (hhigh : k ≤ 127) :
    (POW2 num (F.ofInt k)).isFinite = true ∧ (POW2 num (F.ofInt k)).toUnits = 2 ^ (k + 149).toNat := by
  rw [POW2_of_asInt num (F.asInt?_ofInt (by omega)) hlow hhigh]
  obtain ⟨e, he⟩ : ∃ e : Nat, k = e - 126 := ⟨(k + 126).toNat, by omega⟩
  rw [show (k + 127).toNat = e + 1 by omega, show (k + 149).toNat = e + 23 by omega]
  exact F.pack_exponent (by omega)

end Sys2Proof

namespace Sys2Proof.Machine

/-! ## Runs of a `MIDI` word (R230) -/

/-- Every instruction of the `MIDI` command is an operation inside its two checks. -/
theorem exec_of_isMidi {i : Instr} (h : i.isMidi = true) : ∃ k, ∀ s, exec i s = midiCommand s k := by
  cases i with
  | nop | alloc | reset | render | pwrite | illegal => exact absurd h Bool.false_ne_true
  | _ => exact ⟨_, fun _ => rfl⟩

/-- A `MIDI` word before any `ALLOC` (R230). -/
theorem midiCommand_unset {s : State} {k : State → State} (hp : s.port = .cmd) (ha : s.allocated = false) :
    midiCommand s k = .next (s.abort .notAllocated) := by
  rw [midiCommand, commandPortOnly_cmd hp, whenAllocated_unset ha]

section Runs
variable {s : State} (hp : s.port = .cmd) (ha : s.allocated = true)
include hp ha

/-- A `MIDI` word that passes its checks, its operation leaving port and pointer alone: the operation, and `cp` advances. -/
theorem midiCommand_next {k : State → State} (hport : (k s).port = s.port) (hcp : (k s).cp = s.cp) :
    midiCommand s k = .next { k s with cp := s.cp + 1 } := by
  rw [midiCommand_run hp ha, State.advance_cmd (hport.trans hp), hcp]

theorem exec_midiNoteOff (n vel : BitVec 7) : exec (.midiNoteOff n vel) s = .next { noteOff n s with cp := s.cp + 1 } :=
  midiCommand_next hp ha rfl rfl

/-- Note-on with velocity 0 is a note-off (R232). -/
theorem exec_midiNoteOn_zero (n : BitVec 7) : exec (.midiNoteOn n 0#7) s = .next { noteOff n s with cp := s.cp + 1 } :=
  midiCommand_next hp ha rfl rfl

theorem exec_midiNoteOn (n : BitVec 7) {vel : BitVec 7} (h : vel ≠ 0#7) :
    exec (.midiNoteOn n vel) s = .next { noteOn n vel s with cp := s.cp + 1 } := by
  rw [exec, execMidiNoteOn, if_neg h, midiCommand_next hp ha rfl rfl]

theorem exec_midiCcSustain (v : BitVec 7) : exec (.midiCcSustain v) s = .next { sustainPedal v s with cp := s.cp + 1 } :=
  midiCommand_next hp ha (by rw [sustainPedal_eq]; rfl) (by rw [sustainPedal_eq]; rfl)

end Runs

/-! ## The pedal (R248, R255) -/

theorem sustainPedal_down {v : BitVec 7} (h : 64 ≤ v.toNat) (s : State) : sustainPedal v s = { s with sustain := true } := if_pos h
theorem sustainPedal_up {v : BitVec 7} (h : v.toNat < 64) (s : State) :
    sustainPedal v s = { s.mapVoices voicePedalUp with sustain := false } := if_neg (Nat.not_le.2 h)

/-- A note-off with the pedal down leaves a voice that holds the note to the pedal (R248). -/
theorem voiceNoteOff_held {n : Int} {v : Voice} (h : v.note = n) : voiceNoteOff true n v = { v with note := noteHeld } := if_pos h

/-- The pedal's release lets a pedal-held voice go (R255). -/
theorem voicePedalUp_held {v : Voice} (h : v.note = noteHeld) : voicePedalUp v = { voiceRelease v with note := noteFree } := if_pos h

/-! ## Voice allocation (R241 to R243) -/

/-- Whether the first scan stops at a voice (R241). -/
theorem takesNote_iff {n : Int} {v : Voice} : takesNote n v = true ↔ v.active = false ∨ v.note = n := by simp [takesNote]
theorem takesNote_eq_false_iff {n : Int} {v : Voice} : takesNote n v = false ↔ v.active = true ∧ v.note ≠ n := by simp [takesNote]

/-- A scan of the slots finds the lowest one that passes its test. -/
theorem find?_voiceIndices {p : Fin numVoices → Bool} {i : Fin numVoices} (hi : p i = true) (hlow : ∀ j, j < i → p j = false) :
    voiceIndices.find? p = some i := by
  obtain ⟨before, after, hsplit⟩ := List.append_of_mem (mem_voiceIndices i)
  have hsorted := voiceIndices_sorted
  rw [hsplit, List.pairwise_append] at hsorted
  obtain ⟨-, -, hbefore⟩ := hsorted
  rw [List.find?_eq_some_iff_append]
  exact ⟨hi, before, after, hsplit, fun j hj => by rw [hlow j (hbefore j hj i List.mem_cons_self)]; rfl⟩

/-- Where the first scan stops (R241). -/
theorem findVoice_of_takesNote {s : State} {n : Int} {i : Fin numVoices} (hi : takesNote n (s.voice i) = true)
    (hlow : ∀ j, j < i → takesNote n (s.voice j) = false) : findVoice s n = i := by
  rw [findVoice, find?_voiceIndices hi hlow]

/-- Where the first scan stops at no voice, one is stolen (R241). -/
theorem findVoice_of_no_takesNote {s : State} {n : Int} (h : ∀ i, takesNote n (s.voice i) = false) : findVoice s n = stealVoice s := by
  rw [findVoice, List.find?_eq_none.2 fun i _ => by simp [h i]]

/-- What the second scan knows after the slots of `l`: no voice of them that is not in attack scores below the best score, and the best
voice is the scan's start or the lowest of them with that score. -/
structure StealScan (s : State) (l : List (Fin numVoices)) (best : Fin numVoices × F) : Prop where
  least : ∀ j ∈ l, inAttack (s.voice j).env = false → F.lt (stealScore (s.voice j)) best.2 = false
  origin : best = (0, F.inf) ∨
    (best.1 ∈ l ∧ inAttack (s.voice best.1).env = false ∧ best.2 = stealScore (s.voice best.1) ∧ F.lt best.2 F.inf = true ∧
      ∀ j ∈ l, j < best.1 → inAttack (s.voice j).env = false → F.le (stealScore (s.voice j)) best.2 = false)

section StealScan
variable {s : State} {l : List (Fin numVoices)} {best : Fin numVoices × F} {i : Fin numVoices}

/-- The best score never rises above the scan's start. -/
theorem StealScan.lt_inf (h : StealScan s l best) {x : F} (hx : F.lt x best.2 = true) : F.lt x F.inf = true := by
  obtain rfl | ⟨-, -, -, hinf, -⟩ := h.origin
  · exact hx
  · exact F.lt_trans hx hinf

/-- A slot that does not beat the best leaves it. -/
theorem StealScan.keep (h : StealScan s l best) (hl : ∀ j ∈ l, j < i)
    (hi : inAttack (s.voice i).env = false → F.lt (stealScore (s.voice i)) best.2 = false) :
    StealScan s (l ++ [i]) best where
  least := by simpa [or_imp, forall_and] using ⟨h.least, hi⟩
  origin := h.origin.imp_right fun ⟨hmem, hattack, hscore, hinf, hlowest⟩ =>
    ⟨List.mem_append_left _ hmem, hattack, hscore, hinf, fun j hj hlt => by
      obtain hj | rfl := List.mem_append.1 hj |>.imp_right List.mem_singleton.1
      · exact hlowest j hj hlt
      · exact absurd hlt (hl _ hmem).asymm⟩

/-- A slot with a score below the best one is the new best: no slot before it that is not in attack scores as low. -/
theorem StealScan.replace (h : StealScan s l best) (hattack : inAttack (s.voice i).env = false)
    (hi : F.lt (stealScore (s.voice i)) best.2 = true) :
    StealScan s (l ++ [i]) (i, stealScore (s.voice i)) where
  least j hj hja := by
    obtain hj | rfl := List.mem_append.1 hj |>.imp_right List.mem_singleton.1
    · exact Bool.eq_false_iff.2 fun hlt => Bool.eq_false_iff.1 (h.least j hj hja) (F.lt_trans hlt hi)
    · exact F.lt_irrefl _
  origin := .inr ⟨by simp, hattack, rfl, h.lt_inf hi, fun j hj hlt hja => by
    obtain hj | rfl := List.mem_append.1 hj |>.imp_right List.mem_singleton.1
    · exact F.le_eq_false_of_lt hi (h.least j hj hja)
    · exact absurd hlt (lt_irrefl _)⟩

theorem StealScan.step (h : StealScan s l best) (hl : ∀ j ∈ l, j < i) :
    StealScan s (l ++ [i]) (stealStep s best i) := by
  unfold stealStep
  split
  case isTrue hattack => exact h.keep hl fun hfree => absurd hattack (by simp [hfree])
  case isFalse hattack =>
    split
    case isTrue hlt => exact h.replace (Bool.eq_false_iff.2 hattack) hlt
    case isFalse hlt => exact h.keep hl fun _ => Bool.eq_false_iff.2 hlt

end StealScan

/-- The second scan over any ascending list of slots. -/
theorem stealScan_foldl (s : State) {l : List (Fin numVoices)} (hl : l.Pairwise (· < ·)) :
    StealScan s l (l.foldl (stealStep s) (0, F.inf)) := by
  induction l using List.reverseRecOn with
  | nil => exact ⟨fun _ hj => absurd hj List.not_mem_nil, .inl rfl⟩
  | append_singleton l i ih =>
    rw [List.foldl_concat]
    obtain ⟨hinit, -, hlast⟩ := List.pairwise_append.1 hl
    exact (ih hinit).step fun j hj => hlast j hj i List.mem_cons_self

/-- The second scan, with a voice to steal: the lowest of those with the least score (R241, R243). -/
theorem stealVoice_least {s : State}
    (h : ∃ i, inAttack (s.voice i).env = false ∧ F.lt (stealScore (s.voice i)) F.inf = true) :
    inAttack (s.voice (stealVoice s)).env = false ∧ F.lt (stealScore (s.voice (stealVoice s))) F.inf = true ∧
      (∀ j, inAttack (s.voice j).env = false → F.lt (stealScore (s.voice j)) (stealScore (s.voice (stealVoice s))) = false) ∧
      ∀ j, j < stealVoice s → inAttack (s.voice j).env = false →
        F.le (stealScore (s.voice j)) (stealScore (s.voice (stealVoice s))) = false := by
  obtain ⟨hleast, hstart | ⟨-, hattack, hscore, hinf, hlowest⟩⟩ := stealScan_foldl s voiceIndices_sorted
  case inl =>
    obtain ⟨i, hattack, hinf⟩ := h
    rw [hstart] at hleast
    exact absurd hinf (Bool.eq_false_iff.1 (hleast i (mem_voiceIndices i) hattack))
  case inr =>
    rw [hscore] at hleast hinf hlowest
    exact ⟨hattack, hinf, fun j => hleast j (mem_voiceIndices j), fun j => hlowest j (mem_voiceIndices j)⟩

/-- The second scan with no voice to steal takes voice 0 (R243). -/
theorem stealVoice_none {s : State} (h : ∀ i, inAttack (s.voice i).env = false → F.lt (stealScore (s.voice i)) F.inf = false) :
    stealVoice s = 0 := by
  obtain ⟨-, hstart | ⟨-, hattack, hscore, hinf, -⟩⟩ := stealScan_foldl s voiceIndices_sorted
  · exact congrArg Prod.fst hstart
  · rw [hscore] at hinf
    exact absurd hinf (Bool.eq_false_iff.1 (h _ hattack))

end Sys2Proof.Machine

namespace Sys2Proof.Proofs

open Sys2Proof.Machine

/-- Settles O37: the voice `FindVoice` returns starts its attack, which from a clean level or an active one is above the floor. -/
theorem noteOnAlwaysSounds : Obligations.NoteOnAlwaysSounds := by
  intro n vel s hp ha hclean hvel
  have htaken : (noteOn n vel s).voice (findVoice s n.toNat) = triggerVoice s n vel (s.voice (findVoice s n.toNat)) :=
    voice_setVoice_same ..
  refine ⟨_, findVoice s n.toNat, exec_midiNoteOn hp ha n hvel, ?note, ?active, fun j hj => voice_setVoice_other s _ hj⟩
  case note => exact congrArg Voice.note htaken
  case active => exact (congrArg Voice.active htaken).trans (triggerVoice_active s n vel (hclean _))

/-- Settles O38: the first scan stops at the lowest voice that passes its test; the second one keeps the lowest of the least scores. -/
theorem findVoiceRule : Obligations.FindVoiceRule := by
  intro s n score hscore
  have hscore : score = fun i => stealScore (s.voice i) := funext hscore
  subst hscore
  refine ⟨fun i hi hlow => ?_, fun hnone => ?_⟩
  · exact findVoice_of_takesNote (takesNote_iff.2 hi) fun j hj => takesNote_eq_false_iff.2 (hlow j hj)
  · rw [findVoice_of_no_takesNote fun i => takesNote_eq_false_iff.2 (hnone i)]
    exact ⟨stealVoice_least, stealVoice_none⟩

/-- Settles O34: the check of `ALLOCATED` comes before the operation of every `MIDI` word. -/
theorem midiNeedsAllocation : Obligations.MidiNeedsAllocation := by
  intro i s hi hp ha
  obtain ⟨k, hk⟩ := exec_of_isMidi hi
  rw [hk, midiCommand_unset hp ha, State.abort_cmd _ hp]
  rfl

/-- Settles O35: either word is `noteOff`, which treats every voice by itself. -/
theorem noteOffResult : Obligations.NoteOffResult := by
  rintro n vel s t hp ha rfl
  exact ⟨exec_midiNoteOff hp ha n vel, exec_midiNoteOn_zero hp ha n⟩

/-- Settles O36: the names of the statement are the steps of `triggerVoice`, and `FS` is read where it is set. -/
theorem noteOnResult : Obligations.NoteOnResult := by
  intro n vel s i f ang fa fb hp ha hvel hi hf hang hfa hfb
  refine ⟨fun r => State.fsVal_of_fs, ?_⟩
  rw [hfb, hfa, hang, hf, hi, exec_midiNoteOn hp ha n hvel, noteOn]
  simp only [triggerVoice, updatePanning, updatePitch, pitchA, oscSetFreq, envPrime, envAttack, State.setVoice]
  rfl

/-- Settles O39: each controller stores its curve; the examples by computing them. -/
theorem controllersStoreTheirCurves : Obligations.ControllersStoreTheirCurves := by
  refine ⟨fun v s hp ha => ⟨?_, ?_, ?_, ?_, ?_⟩, by decide +kernel⟩
  all_goals exact midiCommand_next hp ha rfl rfl

/-- Settles O40: at the centre the exponent is a zero; an integer in range is read back from its conversion; the examples by computing
them. -/
theorem pitchBendResult : Obligations.PitchBendResult := by
  refine ⟨fun d1 d2 s hp ha => midiCommand_next hp ha rfl rfl, fun num k hk => EXP_of_isZero num (F.mul_zero_isZero hk), fun num => ?named,
    by decide +kernel, by decide +kernel⟩
  case named =>
    exact ⟨EXP_of_isZero num (by decide), EXP_of_isZero num (by decide), rfl, SIN_negZero num, fun k => POW2_ofInt num⟩

/-- Settles O41: the two branches of the pedal's test. -/
theorem sustainResult : Obligations.SustainResult := by
  intro v s hp ha
  rw [exec_midiCcSustain hp ha]
  refine ⟨fun h => ?down, fun h => ?up⟩
  case down => rw [sustainPedal_down h]
  case up => rw [sustainPedal_up h]; rfl

/-- Settles O42: neither operand is consulted. -/
theorem allNotesOffResult : Obligations.AllNotesOffResult := fun _ _ _ hp ha => midiCommand_next hp ha rfl rfl

/-- Settles O43: the note-off leaves the voice to the pedal, and the pedal's release lets every voice left to it go. -/
theorem pedalHoldsAndReleases : Obligations.PedalHoldsAndReleases := by
  intro n vel v s i hp ha hpedal hv hnote
  have hheld : (noteOff n s).voice i = { s.voice i with note := noteHeld } := by
    rw [noteOff, voice_mapVoices, hpedal, voiceNoteOff_held hnote]
  have hfreed : ((noteOff n s).mapVoices voicePedalUp).voice i = { voiceRelease (s.voice i) with note := noteFree } := by
    rw [voice_mapVoices, hheld, voicePedalUp_held rfl]; rfl
  have hup := exec_midiCcSustain (s := { noteOff n s with cp := s.cp + 1 }) hp ha v
  rw [sustainPedal_up hv] at hup
  exact ⟨_, _, exec_midiNoteOff hp ha n vel, hheld, hup, congrArg Voice.note hfreed, congrArg Voice.env hfreed, congrArg Voice.fenv hfreed,
    rfl⟩

end Sys2Proof.Proofs

/-! PROOFS. The statements of spec/60_exceptions.md: no command reads the fault bits, and a command that aborts does nothing else. -/

namespace Sys2Proof.Machine

/-! ## What an aborting fault bit tells (R271) -/

/-- A bit that a raise sets is the one of its own code. -/
theorem FaultBits.eq_of_bit_raise {f : FaultBits} {j k : FaultCode} (hbefore : f.bit k = false)
    (hafter : (f.raise j).bit k = true) : k = j := by
  rw [FaultBits.bit_raise, hbefore, Bool.or_false] at hafter
  exact of_decide_eq_true hafter

/-- The effect of a command that passes its checks sets no aborting bit. -/
theorem Effect.aborting_bit {i : Instr} {s u : State} {k : FaultCode} (h : Effect i s u) (hk : k.aborting = true) :
    u.fault.bit k = s.fault.bit k := by
  have hne : k ≠ .harmClip := by rintro rfl; exact Bool.false_ne_true hk
  rcases h.fault with hf | hf
  · rw [hf]
  · rw [hf, FaultBits.bit_raise, decide_eq_false hne, Bool.false_or]

/-! ## Operations that do not read the fault bits (R277) -/

/-- `s` with other fault bits. -/
def State.withFault (f : FaultBits) (s : State) : State := { s with fault := f }

/-- From states that differ in the fault bits alone, `k` goes to states that differ in the fault bits alone. -/
def IgnoresFault (k : State → State) : Prop := ∀ s f, ∃ g, k (s.withFault f) = (k s).withFault g

/-- An operation that neither reads nor writes the fault bits. -/
theorem IgnoresFault.of_commutes {k : State → State} (h : ∀ s f, k (s.withFault f) = (k s).withFault f) : IgnoresFault k :=
  fun s f => ⟨f, h s f⟩

theorem IgnoresFault.comp {k l : State → State} (hl : IgnoresFault l) (hk : IgnoresFault k) : IgnoresFault fun s => l (k s) := by
  intro s f
  obtain ⟨g, hg⟩ := hk s f
  obtain ⟨g', hg'⟩ := hl (k s) g
  exact ⟨g', (congrArg l hg).trans hg'⟩

/-- A choice whose condition does not read the fault bits. -/
theorem IgnoresFault.ite {c : State → Prop} [DecidablePred c] {k l : State → State} (hc : ∀ s f, c (s.withFault f) ↔ c s)
    (hk : IgnoresFault k) (hl : IgnoresFault l) : IgnoresFault fun s => if c s then k s else l s := by
  intro s f
  by_cases h : c s
  · simpa only [hc, if_pos h] using hk s f
  · simpa only [hc, if_neg h] using hl s f

theorem ignoresFault_advance : IgnoresFault State.advance := by
  refine .of_commutes fun s f => ?_
  cases hp : s.port with
  | cmd => rw [State.advance_cmd hp, State.advance_cmd (s := s.withFault f) hp]; rfl
  | par => rw [State.advance_par hp, State.advance_par (s := s.withFault f) hp]; rfl

theorem ignoresFault_raise (k : FaultCode) : IgnoresFault fun s => s.raise k := fun _ f => ⟨f.raise k, rfl⟩

theorem ignoresFault_abort (k : FaultCode) : IgnoresFault fun s => s.abort k := ignoresFault_advance.comp (ignoresFault_raise k)

/-! ### The checks -/

theorem ignoresFault_commandPortOnly {k : State → State} (hk : IgnoresFault k) : IgnoresFault fun s => commandPortOnly s k := by
  intro s f
  cases hp : s.port with
  | cmd => simpa only [commandPortOnly_cmd hp, commandPortOnly_cmd (s := s.withFault f) hp] using hk s f
  | par => simpa only [commandPortOnly_par hp, commandPortOnly_par (s := s.withFault f) hp] using ignoresFault_abort .illegalCommand s f

theorem ignoresFault_whenAllocated {k : State → State} (hk : IgnoresFault k) : IgnoresFault fun s => whenAllocated s k :=
  .ite (c := fun s => s.allocated = true) (fun _ _ => Iff.rfl) hk (ignoresFault_abort .notAllocated)

/-! ### Blocks -/

theorem ignoresFault_latch : IgnoresFault latch :=
  .ite (c := fun s => s.dirty = true) (fun _ _ => Iff.rfl) (.of_commutes fun _ _ => rfl) (.of_commutes fun _ _ => rfl)

theorem ignoresFault_lfoDecimate : IgnoresFault lfoDecimate :=
  .ite (c := fun s => s.lfoStep - 1 ≤ 0) (fun _ _ => Iff.rfl) (.of_commutes fun _ _ => rfl) (.of_commutes fun _ _ => rfl)

theorem ignoresFault_frameInputs : IgnoresFault frameInputs :=
  IgnoresFault.comp (l := fun s => { noiseNext s with oscMix := smNext s.oscMix }) (.of_commutes fun _ _ => rfl) ignoresFault_lfoDecimate

/-- Whether a voice raises `HarmClip` does not depend on the bits set so far. -/
theorem ignoresFault_renderVoices (noise mix : F) : IgnoresFault fun s => renderVoices s noise mix :=
  .ite (c := fun s => s.voices.toList.any (voiceClips s noise mix) = true) (fun _ _ => Iff.rfl)
    ((ignoresFault_raise .harmClip).comp (.of_commutes fun _ _ => rfl)) (.of_commutes fun _ _ => rfl)

theorem storeFrame_withFault (chan : BitVec 8) (k : Nat) (outL outR : F) (f : FaultBits) (s : State) :
    storeFrame chan k outL outR (s.withFault f) = (storeFrame chan k outL outR s).withFault f := by
  unfold storeFrame
  split <;> rfl

theorem ignoresFault_frameOutputs (chan : BitVec 8) (k : Nat) : IgnoresFault (frameOutputs chan k) := by
  intro s f
  obtain ⟨g, hg⟩ := ignoresFault_renderVoices (frameNoise s) s.oscMix.cur s f
  have hnoise : frameNoise (s.withFault f) = frameNoise s := rfl
  have hmix : (s.withFault f).oscMix = s.oscMix := rfl
  simp only [frameOutputs, hnoise, hmix, hg]
  exact ⟨g, storeFrame_withFault chan k _ _ g
    { renderVoices s (frameNoise s) s.oscMix.cur with outLevel := smNext (renderVoices s (frameNoise s) s.oscMix.cur).outLevel }⟩

theorem ignoresFault_frames (chan : BitVec 8) (k n : Nat) : IgnoresFault (frames chan k n) := by
  induction n generalizing k with
  | zero => exact .of_commutes fun _ _ => rfl
  | succ n ih => exact (ih (k + 1)).comp ((ignoresFault_frameOutputs chan k).comp ignoresFault_frameInputs)

theorem ignoresFault_renderBlock (off cnt : Nat) (chan : BitVec 8) : IgnoresFault (renderBlock off cnt chan) :=
  IgnoresFault.comp (l := sweep) (.of_commutes fun _ _ => rfl) ((ignoresFault_frames chan off cnt).comp ignoresFault_latch)

/-! ### Commands -/

theorem ignoresFault_renderChecked (off cnt : BitVec 24) (chan : BitVec 8) : IgnoresFault (renderChecked off cnt chan) :=
  .ite (c := fun s => s.params.obufDepth < renderEnd off cnt) (fun _ _ => Iff.rfl) (ignoresFault_abort .obufRange)
    (ignoresFault_advance.comp (ignoresFault_renderBlock off.toNat cnt.toNat chan))

theorem sustainPedal_withFault (v : BitVec 7) (f : FaultBits) (s : State) :
    sustainPedal v (s.withFault f) = (sustainPedal v s).withFault f := by
  rw [sustainPedal_eq, sustainPedal_eq]
  rfl

/-- The command, its checks included, is one operation that ignores the fault bits. -/
def RunsIgnoringFault (i : Instr) : Prop := ∃ k, IgnoresFault k ∧ ∀ s, exec i s = .next (k s)

theorem runsIgnoringFault_of_midiCommand {i : Instr} {k : State → State} (hi : ∀ s, exec i s = midiCommand s k)
    (hk : ∀ s f, k (s.withFault f) = (k s).withFault f) : RunsIgnoringFault i :=
  ⟨_, ignoresFault_commandPortOnly (ignoresFault_whenAllocated (ignoresFault_advance.comp (.of_commutes hk))), hi⟩

theorem runsIgnoringFault_alloc (hint : BitVec 24) (rate : F) : RunsIgnoringFault (.alloc hint rate) := by
  refine ⟨_, ignoresFault_commandPortOnly (.ite (c := fun _ => rateOk rate = true) (fun _ _ => Iff.rfl) ?set ?bad), fun _ => rfl⟩
  case set => exact ignoresFault_advance.comp (.of_commutes fun _ _ => rfl)
  case bad => exact ignoresFault_abort .badSampleRate

theorem runsIgnoringFault_pwrite (idx : BitVec 8) (value : F) : RunsIgnoringFault (.pwrite idx value) := by
  by_cases h : idx.toNat < numCfg
  case pos =>
    have hwrite : IgnoresFault (writeShadow ⟨idx.toNat, h⟩ value) := .of_commutes fun _ _ => rfl
    exact ⟨_, ignoresFault_advance.comp hwrite, fun s => by rw [exec, execPwrite, dif_pos h]⟩
  case neg => exact ⟨_, ignoresFault_abort .badParamIndex, fun s => by rw [exec, execPwrite, dif_neg h]⟩

theorem runsIgnoringFault_midiNoteOn (n vel : BitVec 7) : RunsIgnoringFault (.midiNoteOn n vel) := by
  refine runsIgnoringFault_of_midiCommand (fun _ => rfl) fun s f => ?_
  split <;> rfl

/-- No command reads the fault bits (R277). -/
theorem runsIgnoringFault (i : Instr) : RunsIgnoringFault i := by
  cases i with
  | nop => exact ⟨_, ignoresFault_commandPortOnly ignoresFault_advance, fun _ => rfl⟩
  | alloc hint rate => exact runsIgnoringFault_alloc hint rate
  | reset =>
    have hreset : IgnoresFault resetSynth := .of_commutes fun _ _ => rfl
    exact ⟨_, ignoresFault_commandPortOnly (ignoresFault_advance.comp hreset), fun _ => rfl⟩
  | render off cnt chan =>
    exact ⟨_, ignoresFault_commandPortOnly (ignoresFault_whenAllocated (ignoresFault_renderChecked off cnt chan)), fun _ => rfl⟩
  | pwrite idx value => exact runsIgnoringFault_pwrite idx value
  | illegal op => exact ⟨_, ignoresFault_abort .illegalCommand, exec_illegal op⟩
  | midiNoteOn n vel => exact runsIgnoringFault_midiNoteOn n vel
  | midiCcSustain v => exact runsIgnoringFault_of_midiCommand (fun _ => rfl) fun s f => sustainPedal_withFault v f s
  | _ => exact runsIgnoringFault_of_midiCommand (fun _ => rfl) fun _ _ => rfl

end Sys2Proof.Machine

namespace Sys2Proof.Proofs

open Sys2Proof.Machine

/-- Settles O15: a command is one operation on the state, and from other fault bits it ends in a state that differs in them alone. -/
theorem faultBitsAreReadByNoRule : Obligations.FaultBitsAreReadByNoRule := by
  intro i s f
  obtain ⟨k, hk, hexec⟩ := runsIgnoringFault i
  obtain ⟨g, hg⟩ := hk s f
  exact ⟨k s, g, hexec s, (hexec _).trans (congrArg Host.Outcome.next hg)⟩

/-- Settles O16: the command aborted, since an effect sets no aborting bit, and with the fault of the bit it set. -/
theorem abortChangesOnlyItsBit : Obligations.AbortChangesOnlyItsBit := by
  intro i s t k hexec hk hbefore hafter
  rcases exec_next_cases hexec with ⟨j, -, rfl⟩ | ⟨u, hu, rfl, -⟩
  case inl =>
    rw [State.abort, State.advance_fault] at hafter
    obtain rfl := FaultBits.eq_of_bit_raise hbefore hafter
    split
    case h_1 hp => exact State.abort_cmd k hp
    case h_2 hp => exact State.abort_par k hp
  case inr =>
    rw [State.advance_fault, hu.aborting_bit hk, hbefore] at hafter
    exact absurd hafter Bool.false_ne_true

end Sys2Proof.Proofs

/-! PROOFS. The statements of spec/70_reset_and_hazards.md: a run ends after as many steps as it has words (R300), and the last two
commands of the boot sequence (R291). -/

namespace Sys2Proof.Machine

/-! ## The end of a run (R300) -/

/-- The words of both ports that have not transferred. -/
def State.wordsLeft (s : State) : Nat := (s.cmdWords.length - s.cp) + (s.parWords.length - s.pp)

/-- A state inside a run: no reset act is ahead, and neither pointer is beyond the end of its program. -/
structure State.InRun (s : State) : Prop where
  noReset : HostAct.rst ∉ s.sched
  cp_le : s.cp ≤ s.cmdWords.length
  pp_le : s.pp ≤ s.parWords.length

/-- What one retired command of a run does to the run: one word fewer is left, of the same programs. -/
structure State.RunStep (s t : State) : Prop where
  inRun : t.InRun
  wordsLeft : t.wordsLeft + 1 = s.wordsLeft
  cmdWords : t.cmdWords = s.cmdWords
  parWords : t.parWords = s.parWords

theorem lt_of_pending_cmd {s : State} {w : Word} (h : s.pending .cmd = some w) : s.cp < s.cmdWords.length :=
  (List.getElem?_eq_some_iff.1 h).1

theorem lt_of_pending_par {s : State} {w : Word} (h : s.pending .par = some w) : s.pp < s.parWords.length :=
  (List.getElem?_eq_some_iff.1 h).1

/-- While a word is left some port presents one. -/
theorem exists_pending {s : State} (h : 0 < s.wordsLeft) : ∃ p w, s.pending p = some w := by
  by_cases hc : s.cp < s.cmdWords.length
  · exact ⟨.cmd, _, List.getElem?_eq_getElem hc⟩
  · have hp : s.pp < s.parWords.length := by unfold State.wordsLeft at h; omega
    exact ⟨.par, _, List.getElem?_eq_getElem hp⟩

/-- Whichever port is asked first, a word that is pending on either port makes a pending word transfer. -/
theorem firstPending_word {s : State} {p q r : Port} {v : Word} (hv : s.pending r = some v) (hr : r = p ∨ r = q) :
    ∃ a w, s.firstPending p q = .word a w ∧ s.pending a = some w := by
  cases hp : s.pending p with
  | some w => exact ⟨p, w, firstPending_first hp, hp⟩
  | none =>
    obtain rfl | rfl := hr
    · rw [hp] at hv; exact nomatch hv
    · exact ⟨r, v, firstPending_second hp hv, hv⟩

/-- With no reset ahead and a word left, the next transfer is a pending word: no idle step comes between (log entry 10). -/
theorem transfer_word {s : State} (hr : HostAct.rst ∉ s.sched) (h : 0 < s.wordsLeft) :
    ∃ p w, s.transfer = .word p w ∧ s.pending p = some w := by
  obtain ⟨r, v, hv⟩ := exists_pending h
  have hcmd : ∃ p w, s.firstPending .cmd .par = .word p w ∧ s.pending p = some w := firstPending_word hv (by cases r <;> simp)
  match hs : s.sched with
  | [] => rwa [transfer_nil hs]
  | .cmd :: _ => rwa [transfer_cmd hs]
  | .par :: _ => rw [transfer_par hs]; exact firstPending_word hv (by cases r <;> simp)
  | .rst :: _ => exact absurd (by rw [hs]; exact List.mem_cons_self) hr

/-- In a run with a word left a step executes a word, whatever it decodes to, and one word fewer is left (R28, R74). -/
theorem step_inRun {s : State} (hs : s.InRun) (h : 0 < s.wordsLeft) : ∃ t, step s = .next t ∧ s.RunStep t := by
  obtain ⟨hr, hcp, hpp⟩ := hs
  obtain ⟨p, w, ht, hw⟩ := transfer_word hr h
  obtain ⟨t, he, hcmd, hpar⟩ := Proofs.everyCommandAdvancesOnePointer (decode w) (s.accept p)
  obtain ⟨-, hcw, hpw, hsched, -⟩ := exec_control he
  simp only [State.accept_cp, State.accept_pp, State.accept_port, State.accept_cmdWords, State.accept_parWords,
    State.accept_sched] at hcmd hpar hcw hpw hsched
  have hr' : HostAct.rst ∉ t.sched := fun hm => hr (List.mem_of_mem_tail (hsched ▸ hm))
  have hone : (s.cp < s.cmdWords.length ∧ t.cp = s.cp + 1 ∧ t.pp = s.pp) ∨
      (s.pp < s.parWords.length ∧ t.cp = s.cp ∧ t.pp = s.pp + 1) := by
    cases p with
    | cmd => exact .inl ⟨lt_of_pending_cmd hw, hcmd rfl⟩
    | par => exact .inr ⟨lt_of_pending_par hw, hpar rfl⟩
  have hleft : t.wordsLeft + 1 = s.wordsLeft := by rw [State.wordsLeft, State.wordsLeft, hcw, hpw]; omega
  exact ⟨t, (step_of_word ht).trans he, ⟨hr', by rw [hcw]; omega, by rw [hpw]; omega⟩, hleft, hcw, hpw⟩

/-- A run with no word left has ended. -/
theorem ended_of_no_words {s : State} (hs : s.InRun) (h : s.wordsLeft = 0) : s.Ended := by
  obtain ⟨-, hcp, hpp⟩ := hs
  unfold State.wordsLeft at h
  exact ⟨by omega, by omega⟩

theorem run_succ_of_step {M : Host.Core} {s t : M.State} (h : M.step s = .next t) (k : Nat) : M.run (k + 1) s = M.run k t := by
  rw [Host.Core.run, h]

/-- As many steps as words are left end the run. -/
theorem run_wordsLeft {n : Nat} {s : State} (hs : s.InRun) (hn : s.wordsLeft = n) :
    ∃ t : State, core.run n s = .next t ∧ t.Ended ∧ t.cmdWords = s.cmdWords ∧ t.parWords = s.parWords := by
  induction n generalizing s with
  | zero => exact ⟨s, rfl, ended_of_no_words hs hn, rfl, rfl⟩
  | succ n ih =>
    obtain ⟨u, hstep, hu, hleft, hcw, hpw⟩ := step_inRun hs (by omega)
    obtain ⟨t, hrun, hend, htc, htp⟩ := ih hu (by omega)
    exact ⟨t, (run_succ_of_step hstep n).trans hrun, hend, htc.trans hcw, htp.trans hpw⟩

/-! ## The boot sequence (R291) -/

/-- `LATCH` is `RENDER` with no frames: the latch and the sweep (R98, R203, R213). -/
theorem exec_latch {s : State} (chan : BitVec 8) (hp : s.port = .cmd) (ha : s.allocated = true) :
    exec (.render 0#24 0#24 chan) s = .next (sweep (latch s)).advance := by
  rw [exec_render hp ha (Nat.zero_le _), State.advance_cmd (by simpa using hp), sweep_cp, latch_cp]
  rfl

/-- A `RESET` on the command port (R198). -/
theorem exec_reset {s : State} (hp : s.port = .cmd) : exec .reset s = .next (resetSynth s).advance := by
  rw [exec, execReset, commandPortOnly_cmd hp]

/-- A smoother snapped right after its target is set stands there, whether or not a ramp was begun (R204, R206). -/
theorem smSnap_smSetTarget (n : Nat) (sm : Smoother) (t : F) :
    smSnap (smSetTarget n sm t) = { cur := t, tgt := t, step := F.zero, cnt := 0 } := by
  unfold smSetTarget; split <;> rfl

end Sys2Proof.Machine

namespace Sys2Proof.Proofs

open Sys2Proof.Machine

/-- Settles O13: each step of a run executes one of the words left, so the induction is on their number. -/
theorem runEnds : Obligations.RunEnds := fun _ hr hcp hpp => run_wordsLeft ⟨hr, hcp, hpp⟩ rfl

/-- Settles O45: the latch loads the bank and sets the smoothers' targets, and `RESET` snaps the smoothers to them. -/
theorem bootSequence : Obligations.BootSequence := by
  intro s hp ha hd
  refine ⟨_, _, exec_latch _ hp ha, exec_reset (by simpa using hp), ?_⟩
  have hvoices : (resetSynth (sweep (latch s)).advance).advance.AllInactive := allInactive_of_voiceReset (State.advance_voices _)
  simp [hd, ha, smSnap_smSetTarget, hvoices, State.shReg, Reg.idx]

end Sys2Proof.Proofs
